-- ==== Sys2Proof/Word.lean ====
section
/-! DEFINITION. Bytes, words and the word length W (00_scope.md R7, R8). -/

namespace Sys2Proof

/-- A byte: 8 bits (R61). -/
abbrev Byte := BitVec 8

/-- The function or the data field of an instruction byte (R90). -/
abbrev Nibble := BitVec 4

/-- A word of the machine. W is 16 or 32 (R7); a 16-bit part keeps its words in the low half of this vector, and every
result of arithmetic is cut to W bits by `WordSize.trunc` (DESIGN CHOICE, log 2). -/
abbrev Word := BitVec 32

/-- `WordBits` of R7. -/
inductive WordSize where
  | w16
  | w32
deriving DecidableEq, Repr

/-- W, the bits in a word. -/
def WordSize.bits : WordSize → Nat
  | .w16 => 16
  | .w32 => 32

/-- BPW, the bytes in a word (R7). -/
def WordSize.bytes : WordSize → Nat
  | .w16 => 2
  | .w32 => 4

/-- The W low bits set. -/
def WordSize.mask : WordSize → Word
  | .w16 => 0x0000FFFF
  | .w32 => 0xFFFFFFFF

/-- A value modulo 2^W (R62). -/
def WordSize.trunc (ws : WordSize) (v : Word) : Word := v &&& ws.mask

/-- MinInt: the most negative word, the lowest address, and NotProcess.p (R7). -/
def WordSize.minInt : WordSize → Word
  | .w16 => 0x00008000
  | .w32 => 0x80000000

/-- MaxInt: the most positive word and the highest address (R7). -/
def WordSize.maxInt : WordSize → Word
  | .w16 => 0x00007FFF
  | .w32 => 0x7FFFFFFF

end Sys2Proof
end

