-- ==== Sys2Proof/Config.lean ====
section
/-! DEFINITION. The configuration `Cfg` of 00_scope.md R7 and the free values (R9 `draw`). -/

namespace Sys2Proof

/-- What `MemMap` says stands at an address (R74, D27); an address in no region is empty. -/
inductive MemKind where
  | ram
  | rom
deriving DecidableEq, Repr

/-- `size` consecutive byte addresses from `base`, counted modulo 2^W. -/
structure Region where
  base : Word
  size : Nat
  kind : MemKind
deriving DecidableEq, Repr

/-- `MisalignedWord` of R7: a word access at an address that is no multiple of BPW (R68, D7). -/
inductive MisalignedWord where
  | refuse
  | ignoreLowBits
deriving DecidableEq, Repr

/-- The configuration record of R7. `LinkInWord`, `LinkOutWord`, `NLinks` and `BPW` are fixed by D5, D6 and D1 and are
not fields; `PreservedBits` is computed from the masks and `hasJ0Break` (Machine/Flags.lean). -/
structure Cfg where
  wordSize          : WordSize
  memStart          : Word
  resetCodePtr      : Word
  errorFlag         : Word
  haltOnErrorFlag   : Word
  enableJ0BreakFlag : Word
  /-- the T425, T801 "and future transputers", whose PreservedBits hold EnableJ0BreakFlag (R7) -/
  hasJ0Break        : Bool
  memMap            : List Region
  misaligned        : MisalignedWord
deriving DecidableEq, Repr

/-- The parts R1 names. -/
inductive Part where
  | t212
  | t222
  | m212
  | t414
  | t425
  | t800
  | t801
deriving DecidableEq, Repr

/-- Word length of a part (R7, G1). -/
def Part.wordSize : Part → WordSize
  | .t212 => .w16
  | .t222 => .w16
  | .m212 => .w16
  | .t414 => .w32
  | .t425 => .w32
  | .t800 => .w32
  | .t801 => .w32

/-- MemStart of a part (R7, G2). -/
def Part.memStart : Part → Word
  | .t212 => 0x00008024
  | .t222 => 0x00008024
  | .m212 => 0x00008024
  | .t414 => 0x80000048
  | .t425 => 0x80000070
  | .t800 => 0x80000070
  | .t801 => 0x80000070

/-- The parts whose PreservedBits hold EnableJ0BreakFlag (R7). -/
def Part.hasJ0Break : Part → Bool
  | .t425 => true
  | .t801 => true
  | _ => false

/-- A part's configuration over a platform's memory map. `resetCodePtr` is D3's default MaxInt - 1; the flag masks are
the stand-ins of 95_test_vectors.md, not the chip's positions (DESIGN CHOICE, log 3); `misaligned` is D7's default. -/
def Cfg.ofPart (p : Part) (memMap : List Region) : Cfg where
  wordSize          := p.wordSize
  memStart          := p.memStart
  resetCodePtr      := p.wordSize.maxInt - 1
  errorFlag         := 1
  haltOnErrorFlag   := 2
  enableJ0BreakFlag := 4
  hasJ0Break        := p.hasJ0Break
  memMap            := memMap
  misaligned        := .refuse

/-- The configuration of `State.reset`: a T414 whose whole address space is RAM but for the ROM in its top 256 bytes
(DESIGN CHOICE, log 1 and 6). -/
def Cfg.default : Cfg :=
  Cfg.ofPart .t414 [⟨0x80000000, 0xFFFFFF00, .ram⟩, ⟨0x7FFFFF00, 0x100, .rom⟩]

/-- A word the rules do not fix (R9 `draw`): the `n`-th one taken. Nothing is known of it (log 15). -/
opaque Config.freeWord : Nat → Word

/-- Which of several Links with a pending byte the poll returns (R128, D8, log 14). -/
opaque Config.freePoll : Nat → Nat

/-- Whether a Link byte that Reset catches is kept (R275, log 19). -/
opaque Config.freeKeep : Nat → Bool

/-- What RAM holds after a plain Reset (R274, D25, log 18). -/
opaque Config.freeMemory : Nat → List Host.Cell

end Sys2Proof
end

