-- ==== Sys2Proof/Syntax.lean ====
section
/-! DEFINITION. The instructions: one constructor per row of spec/opcode_table.json (30_encoding.md R99, R100). -/

namespace Sys2Proof

/-- An instruction as its final byte (R90, R97). `data` is bits 3:0 of that byte; the rest of an operand stands in Oreg,
where the prefix bytes, which are instructions of their own, built it (R94, R96). An operation has its own constructor;
`opr` is the byte with function #F itself, whose operand selects an operation (R98). -/
inductive Instr where
  | start
  | testhardchan
  | testldd
  | teststd
  | testlde
  | testste
  | testlds
  | teststs
  | mint
  | pfix (data : Nibble)
  | opr (data : Nibble)
  | nfix (data : Nibble)
  | j (data : Nibble)
  | ldc (data : Nibble)
  | ldnlp (data : Nibble)
  | stl (data : Nibble)
deriving DecidableEq, Repr

end Sys2Proof
end

