-- ==== Sys2Proof/WellFormed.lean ====
section
/-! DEFINITION. Which instruction terms stand for a final byte under a given Oreg, and which configurations R7 admits. -/

namespace Sys2Proof

/-- The operation code of an operation (R99, R100); none for a function. -/
def Instr.operationCode : Instr → Option Nat
  | .start        => some 0x1FF
  | .testhardchan => some 0x2D
  | .testldd      => some 0x25
  | .teststd      => some 0x28
  | .testlde      => some 0x24
  | .testste      => some 0x27
  | .testlds      => some 0x23
  | .teststs      => some 0x26
  | .mint         => some 0x42
  | .pfix _       => none
  | .opr _        => none
  | .nfix _       => none
  | .j _          => none
  | .ldc _        => none
  | .ldnlp _      => none
  | .stl _        => none

/-- The nine operation codes of R99 and R100. -/
def operationCodes : List Nat :=
  [0x1FF, 0x2D, 0x25, 0x28, 0x24, 0x27, 0x23, 0x26, 0x42]

/-- An instruction that can stand at a final byte executed with Oreg = `oreg`: an operation only where Oreg with the low
digit of its code is that code (R97, R98), and `opr` only where the operand selects none of the nine (R106: the
operation rows refine the `opr` row). -/
def Instr.wellFormedAt (oreg : Word) : Instr → Bool
  | .opr d => !(operationCodes.contains (oreg ||| d.zeroExtend 32).toNat)
  | i =>
    match i.operationCode with
    | none => true
    | some code => (oreg ||| BitVec.ofNat 32 (code % 16)).toNat == code

/-- A mask of one bit. -/
def Word.singleBit (v : Word) : Bool := v != 0 && v &&& (v - 1) == 0

/-- What R7, D4, D11 and D27 ask of a configuration: MemStart, ResetCodePtr and the masks are words of W bits, MemStart
is word-aligned and above the eight Link words, the masks are distinct single bits. -/
def Cfg.wellFormed (c : Cfg) : Bool :=
  c.wordSize.trunc c.memStart == c.memStart
    && c.wordSize.trunc c.resetCodePtr == c.resetCodePtr
    && c.wordSize.trunc c.errorFlag == c.errorFlag
    && c.wordSize.trunc c.haltOnErrorFlag == c.haltOnErrorFlag
    && c.wordSize.trunc c.enableJ0BreakFlag == c.enableJ0BreakFlag
    && c.memStart.toNat % c.wordSize.bytes == 0
    && decide (8 * c.wordSize.bytes ≤ (c.wordSize.trunc (c.memStart - c.wordSize.minInt)).toNat)
    && Word.singleBit c.errorFlag
    && Word.singleBit c.haltOnErrorFlag
    && Word.singleBit c.enableJ0BreakFlag
    && c.errorFlag != c.haltOnErrorFlag
    && c.errorFlag != c.enableJ0BreakFlag
    && c.haltOnErrorFlag != c.enableJ0BreakFlag

end Sys2Proof
end

