-- ==== Sys2Proof/Decode.lean ====
section
/-! DEFINITION. Decoding and encoding (30_encoding.md R90 to R106). -/

namespace Sys2Proof

/-- Why bytes are no instruction of this spec. -/
inductive DecodeError where
  /-- a function code that R91 and R100 do not list (R103) -/
  | functionNotSpecified (function : Nibble)
  /-- there is no byte to decode -/
  | noByte
deriving DecidableEq, Repr

/-- Bits 7:4 of an instruction byte (R90). -/
def functionOf (b : Byte) : Nibble := b.extractLsb' 4 4

/-- Bits 3:0 of an instruction byte (R90). -/
def dataOf (b : Byte) : Nibble := b.extractLsb' 0 4

/-- The byte of a function and a data field (R90). -/
def instrByte (function data : Nibble) : Byte := function ++ data

/-- The operand at a final byte: Oreg OR data (R97). -/
def operandOf (oreg : Word) (data : Nibble) : Word := oreg ||| data.zeroExtend 32

/-- Oreg after `pfix data` (R94). -/
def pfixOreg (ws : WordSize) (oreg : Word) (data : Nibble) : Word :=
  ws.trunc (operandOf oreg data <<< 4)

/-- Oreg after `nfix data` (R96). -/
def nfixOreg (ws : WordSize) (oreg : Word) (data : Nibble) : Word :=
  ws.trunc ((~~~ operandOf oreg data) <<< 4)

/-- The operation an operation code selects (R98 to R100); none where the code is not listed (R103). -/
def operationOf (code : Nat) : Option Instr :=
  match code with
  | 0x1FF => some .start
  | 0x2D  => some .testhardchan
  | 0x25  => some .testldd
  | 0x28  => some .teststd
  | 0x24  => some .testlde
  | 0x27  => some .testste
  | 0x23  => some .testlds
  | 0x26  => some .teststs
  | 0x42  => some .mint
  | _     => none

/-- The instruction at a byte executed with Oreg = `oreg`. The function field selects the row (R91, R100); at function #F
the operand, compared as a whole word, refines `opr` into the operation it selects (R98, R106). -/
def decodeByte (oreg : Word) (b : Byte) : Except DecodeError Instr :=
  match functionOf b with
  | 0x0#4 => .ok (.j (dataOf b))
  | 0x2#4 => .ok (.pfix (dataOf b))
  | 0x4#4 => .ok (.ldc (dataOf b))
  | 0x5#4 => .ok (.ldnlp (dataOf b))
  | 0x6#4 => .ok (.nfix (dataOf b))
  | 0xD#4 => .ok (.stl (dataOf b))
  | 0xF#4 => .ok ((operationOf (operandOf oreg (dataOf b)).toNat).getD (.opr (dataOf b)))
  | f     => .error (.functionNotSpecified f)

/-- An instruction in the wider sense, read from bytes in fetch order (R92, R102): prefix bytes are taken into Oreg until
a final byte stands. Answers that instruction, the Oreg it executes with, how many prefix bytes came before it, and the
bytes after it. Bytes that end in a prefix byte give that prefix byte's own instruction. -/
def decodeBytes (ws : WordSize) : Word → Nat → List Byte → Except DecodeError (Instr × Word × Nat × List Byte)
  | _, _, [] => .error .noByte
  | oreg, n, b :: rest =>
    match decodeByte oreg b with
    | .error e => .error e
    | .ok (.pfix d) =>
      if rest.isEmpty then .ok (.pfix d, oreg, n, []) else decodeBytes ws (pfixOreg ws oreg d) (n + 1) rest
    | .ok (.nfix d) =>
      if rest.isEmpty then .ok (.nfix d, oreg, n, []) else decodeBytes ws (nfixOreg ws oreg d) (n + 1) rest
    | .ok i => .ok (i, oreg, n, rest)

/-- The bytes of a number of `n` bytes as spec/opcode_table.json writes it: the first fetched byte is leftmost (R106). -/
def tableBytes : Nat → Nat → List Byte
  | 0, _ => []
  | n + 1, w => BitVec.ofNat 8 (w >>> (8 * n)) :: tableBytes n w

/-- The instruction read from a word of spec/opcode_table.json, numbered as the table numbers it (R106, log 10). -/
def decodeTableWord (nbits w : Nat) : Option Instr :=
  match decodeBytes .w32 0 0 (tableBytes (nbits / 8) w) with
  | .ok (i, _, _, _) => some i
  | .error _ => none

/-- The final byte of an instruction (R90, R99, R100). -/
def finalByte : Instr → Byte
  | .start        => 0xFF
  | .testhardchan => 0xFD
  | .testldd      => 0xF5
  | .teststd      => 0xF8
  | .testlde      => 0xF4
  | .testste      => 0xF7
  | .testlds      => 0xF3
  | .teststs      => 0xF6
  | .mint         => 0xF2
  | .pfix d       => instrByte 0x2 d
  | .opr d        => instrByte 0xF d
  | .nfix d       => instrByte 0x6 d
  | .j d          => instrByte 0x0 d
  | .ldc d        => instrByte 0x4 d
  | .ldnlp d      => instrByte 0x5 d
  | .stl d        => instrByte 0xD d

/-- The prefix bytes of an operation's memory code (R99, R100); none for a function. -/
def leadingBytes : Instr → List Byte
  | .start        => [0x21, 0x2F]
  | .testhardchan => [0x22]
  | .testldd      => [0x22]
  | .teststd      => [0x22]
  | .testlde      => [0x22]
  | .testste      => [0x22]
  | .testlds      => [0x22]
  | .teststs      => [0x22]
  | .mint         => [0x24]
  | .pfix _       => []
  | .opr _        => []
  | .nfix _       => []
  | .j _          => []
  | .ldc _        => []
  | .ldnlp _      => []
  | .stl _        => []

/-- The memory code of an instruction, in fetch order (R99, R100). -/
def encode (i : Instr) : List Byte := leadingBytes i ++ [finalByte i]

/-- Whether a word of W bits is negative. -/
def isNegative (ws : WordSize) (v : Word) : Bool := v.getLsbD (ws.bits - 1)

/-- The canonical memory code of function `f` with operand `v` (R101). A code has at most 2*BPW bytes (R92), which is
what `fuel` counts. -/
def encodeOperand (ws : WordSize) : Nat → Nibble → Word → List Byte
  | 0, _, _ => []
  | fuel + 1, f, v =>
    let last := [instrByte f (v.extractLsb' 0 4)]
    if isNegative ws v then encodeOperand ws fuel 0x6 (ws.trunc (~~~v) >>> 4) ++ last
    else if v.toNat < 16 then last
    else encodeOperand ws fuel 0x2 (v >>> 4) ++ last

/-- The canonical memory code of function `f` with operand `v` (R101). -/
def canonicalCode (ws : WordSize) (f : Nibble) (v : Word) : List Byte :=
  encodeOperand ws (2 * ws.bytes) f v

/-- The function and the operand that bytes in fetch order select, from Oreg = `oreg`, and the bytes after them (R93,
R94, R96, R97, R102). -/
def assemble (ws : WordSize) : Word → List Byte → Option (Nibble × Word × List Byte)
  | _, [] => none
  | oreg, b :: rest =>
    match functionOf b with
    | 0x2#4 => assemble ws (pfixOreg ws oreg (dataOf b)) rest
    | 0x6#4 => assemble ws (nfixOreg ws oreg (dataOf b)) rest
    | f     => some (f, operandOf oreg (dataOf b), rest)

/-- The instructions the source names without defining, by the operation codes G11 gives them; used only to name what is
refused (R103). -/
def namedOnly (code : Nat) : String :=
  match code with
  | 0x07 => "in"
  | 0x0B => "out"
  | 0x4A => "move"
  | 0x2B => "tin"
  | 0x51 => "taltwt"
  | 0x2F => "disc"
  | _    => ""

end Sys2Proof
end

