-- ==== Sys2Proof/Machine/State.lean ====
section
/-! DEFINITION. The state of the machine (10_state.md), the reasons a step stops, and the state after reset (R51). -/

namespace Sys2Proof.Machine

/-- A fault is "a defined hardware exception; none occurs in this spec" (93_implementation_defined.md, R230): so there is
none, no one raises one, and every stop is a refusal. -/
inductive Fault
deriving DecidableEq, Repr

/-- One of the four Links (R7, D6). -/
inductive Link where
  | link0
  | link1
  | link2
  | link3
deriving DecidableEq, Repr

/-- No meaning is given (R9 `refuse`, 93_implementation_defined.md A.2). All are safe. -/
inductive Refusal where
  /-- An instruction whose meaning is not written yet; raised by no arm of this model. Safe. -/
  | notModelled (mnemonic : String)
  /-- Fetch: the byte's function is not one of R91 and R100 (R103, U6). Safe. -/
  | undecoded (e : DecodeError)
  /-- `opr`: the operation code is not one of R99 and R100 (R103, U6); `name` where the source names the instruction.
  Safe. -/
  | operationNotSpecified (code : Nat) (name : String)
  /-- `testhardchan`: AReg is not the address of a Link word (R162, U4). Safe. -/
  | notALinkWord (address : Word)
  /-- `testhardchan`: some Link is active (R163, U1). Safe. -/
  | linkActive
  /-- `start` from memory: some Link is active (R123, U9). Safe. -/
  | startWhileLinkActive
  /-- `teststs`: ErrorFlag and HaltOnErrorFlag become both set (R185, R232, U7). Safe. -/
  | errorHalt
  /-- `j 0` while it is a breakpoint (R205, U8). Safe. -/
  | breakpoint
  /-- Fetch: the byte was written in the fetch window since the last taken jump (R79, U10). Safe. -/
  | fetchOfWrittenByte (address : Word)
  /-- An access to an address that `MemMap` marks empty: fetch, `stl`, and the peeks, pokes and boot messages of `start`
  (R74, D27, U11). Safe. -/
  | emptyMemory (address : Word)
  /-- A write to ROM: `stl`, and the pokes and boot messages of `start` (R74, D27, U11). Safe. -/
  | romWrite (address : Word)
  /-- `stl`, peek, poke: the address is no multiple of BPW, under `MisalignedWord = refuse` (R68, U13). Safe. -/
  | misalignedWord (address : Word)
  /-- A step from a state with a timer alarm on or a message on behalf of a process (R241, U12). Safe. -/
  | notOneProcess
  /-- A byte or a Link transfer on a channel that `testhardchan` left with a non-zero CountReg (R165, U5). Safe. -/
  | transferAfterPush (link : Link)
  /-- The Analyse pin goes low with no Reset after it went high (R273 describes no such sequence). Safe. -/
  | analyseWithoutReset
deriving DecidableEq, Repr

/-- One thing for each Link. -/
structure PerLink (α : Type) where
  l0 : α
  l1 : α
  l2 : α
  l3 : α
deriving DecidableEq, Repr

/-- The input or the output channel of a Link (R40). -/
inductive Dir where
  | inp
  | out
deriving DecidableEq, Repr

/-- A Link channel (R40). -/
structure ChannelId where
  link : Link
  dir  : Dir
deriving DecidableEq, Repr

/-- The message that a channel has in progress (R42, R48): none, one to or from memory at PtrReg, or a word of `start`'s
own, which passes through the buffer that R85 keeps invisible and stays in DBuffReg. -/
inductive Transfer where
  | idle
  | memory
  | buffered
deriving DecidableEq, Repr

/-- A channel: its stack of three registers (R40 to R44) and its control logic (R48, C5). -/
structure Channel where
  count    : Word
  ptr      : Word
  dbuff    : Word
  transfer : Transfer
  /-- a byte is being shifted in (R48, R242) -/
  shifting : Bool
  /-- how many bytes of the word in DBuffReg are received or sent: the byte selector behind R45's byte write enables
  (log 42) -/
  fill     : Nat
  /-- `testhardchan` left `count` non-zero and no Reset has followed (R165, log 21) -/
  pushed   : Bool
deriving DecidableEq, Repr

/-- A Link: its two channels and the host's side of it (R140, D22). -/
structure LinkState where
  inp       : Channel
  out       : Channel
  /-- bytes that have arrived from the host and that no message and no poll has taken, oldest first -/
  fromHost  : List Byte
  /-- bytes sent to the host that it has not taken, oldest first -/
  toHost    : List Byte
  /-- the host accepts output (R131) -/
  accepting : Bool
deriving DecidableEq, Repr

/-- ProcPriority (R24, R251). -/
inductive Priority where
  | high
  | low
deriving DecidableEq, Repr

/-- The levels on the three input pins (R49). -/
structure Pins where
  reset       : Bool
  analyse     : Bool
  bootFromRom : Bool
deriving DecidableEq, Repr

/-- The two instruction buffer registers (R38). The words are those of the last refill by a taken jump (R78, log 24). -/
structure InstrBuffers where
  full0 : Bool
  full1 : Bool
  word0 : Word
  word1 : Word
deriving DecidableEq, Repr

/-- The two memory protocols of R130 and R131. -/
inductive Protocol where
  | poke
  | peek
deriving DecidableEq, Repr

/-- Where the Link phase of `start` stands: what it waits for (R128 to R133). -/
inductive BootPhase where
  /-- PollLinkInputs (R128) -/
  | poll
  /-- InputAddressFromSelectedLink (R129) -/
  | address (link : Link) (protocol : Protocol)
  /-- InputDataFromSelectedLink of a poke (R130) -/
  | data (link : Link) (address : Word)
  /-- OutputDataToSelectedLink of a peek (R131) -/
  | output (link : Link)
  /-- InputBootCodeFromSelectedLink, a message of `length` bytes (R133) -/
  | code (link : Link) (length : Nat)
deriving DecidableEq, Repr

/-- The Link phase of `start`: its phase, the CountReg of each input channel when it began (R138), and the Links it has
used for input and for output (R53). -/
structure Boot where
  phase   : BootPhase
  saved   : PerLink Word
  usedIn  : PerLink Bool
  usedOut : PerLink Bool
deriving DecidableEq, Repr

/-- What the processor is doing. -/
inductive Control where
  /-- executing instructions -/
  | run
  /-- in the Link phase of `start` (R128 to R138) -/
  | boot (b : Boot)
  /-- Analyse is high and Reset has not gone high yet (R273); `message`: the channel that the Link phase of `start`, if
  Analyse has stopped one, was waiting for -/
  | analysing (message : Option ChannelId)
  /-- Reset is held high; `analyse`: Analyse was high before it (R271, R273) -/
  | resetHeld (analyse : Bool)
  /-- Reset is low again and Analyse still high (R273) -/
  | analyseHeld
deriving DecidableEq, Repr

/-- What the host can do (R140, R242, R275). -/
inductive HostAction where
  /-- the first bit of an unsolicited byte arrives -/
  | linkShift (link : Link)
  /-- a byte has arrived -/
  | linkByte (link : Link) (byte : Byte)
  /-- the host begins or ceases to accept output -/
  | linkAccept (link : Link) (accepting : Bool)
  /-- the host takes the oldest byte sent to it -/
  | linkTake (link : Link)
  | resetHigh
  | resetLow
  | analyseHigh
  | analyseLow
  | bootFromRom (level : Bool)
deriving DecidableEq, Repr

/-- Which agent's step is next (R11). -/
inductive Turn where
  | cpu
  | channel (ch : ChannelId)
  | host (a : HostAction)
deriving DecidableEq, Repr

/-- Memory: (address, byte) pairs, addresses strictly rising, no byte equal to what an unlisted address reads as
(R50, R60, R61; log 5). -/
abbrev Memory := List Host.Cell

/-- The state of the machine (R20 to R50). -/
structure State where
  cfg            : Cfg
  aReg           : Word
  bReg           : Word
  cReg           : Word
  wPtr           : Word
  procPriority   : Priority
  iPtr           : Word
  oreg           : Word
  dReg           : Word
  eReg           : Word
  statusReg      : Word
  timerAlarmHigh : Bool
  timerAlarmLow  : Bool
  timesliceCount : Nat
  buffers        : InstrBuffers
  /-- addresses of bytes written in the fetch window since the last taken jump (R79, log 23) -/
  written        : List Nat
  links          : PerLink LinkState
  mem            : Memory
  pins           : Pins
  control        : Control
  /-- who does what, and when, from here on; the machine by itself when empty (R12, D22, log 16) -/
  turns          : List Turn
  /-- how many free values have been taken; the model's own field (R9 `draw`, log 15) -/
  draws          : Nat
deriving DecidableEq, Repr

/-- A channel register file at power-on: zero (DESIGN CHOICE, log 7), with idle control logic (R52). -/
def Channel.idle : Channel := ⟨0, 0, 0, .idle, false, 0, false⟩

/-- A Link on which nothing has been sent. -/
def LinkState.quiet : LinkState := ⟨.idle, .idle, [], [], true⟩

/-- Power-on with Reset held high and BootFromRom high. The registers' values are the spec's draws (D25), named zero here
(DESIGN CHOICE, log 7). -/
def State.powerOn : State where
  cfg            := Cfg.default
  aReg           := 0
  bReg           := 0
  cReg           := 0
  wPtr           := 0
  procPriority   := .high
  iPtr           := 0
  oreg           := 0
  dReg           := 0
  eReg           := 0
  statusReg      := 0
  timerAlarmHigh := false
  timerAlarmLow  := false
  timesliceCount := 0
  buffers        := ⟨true, true, 0, 0⟩
  written        := []
  links          := ⟨.quiet, .quiet, .quiet, .quiet⟩
  mem            := []
  pins           := ⟨true, false, true⟩
  control        := .resetHeld false
  turns          := []
  draws          := 0

/-- The machine right after reset: R51's column for a boot from ROM, computed from `powerOn` (log 8). That it is what the
forced `start` gives is `Obligations.ResetStateIsTheForcedStart`. -/
def State.reset : State :=
  { State.powerOn with
    wPtr         := Cfg.default.memStart
    procPriority := .low
    iPtr         := Cfg.default.resetCodePtr
    pins         := ⟨false, false, true⟩
    control      := .run }

end Sys2Proof.Machine
end

