-- ==== Sys2Proof/Machine/Memory.lean ====
section
/-! DEFINITION. Memory as a list of cells in one canonical form, and words in it (20_memory.md R60 to R64). -/

namespace Sys2Proof.Machine

/-- What an address that is not listed reads as (DESIGN CHOICE, log 5). -/
def Memory.unlisted : Byte := 0

/-- The byte at an address. -/
def Memory.read : Memory → Nat → Byte
  | [], _ => Memory.unlisted
  | (a, v) :: rest, addr => if a = addr then v else Memory.read rest addr

/-- A cell put in front of a memory, or nothing where the byte is what an unlisted address reads as. -/
def Memory.cons (addr : Nat) (v : Byte) (m : Memory) : Memory :=
  if v = Memory.unlisted then m else (addr, v) :: m

/-- The memory with one byte replaced, in canonical form. -/
def Memory.write : Memory → Nat → Byte → Memory
  | [], addr, v => Memory.cons addr v []
  | (a, x) :: rest, addr, v =>
    if addr < a then Memory.cons addr v ((a, x) :: rest)
    else if addr = a then Memory.cons addr v rest
    else (a, x) :: Memory.write rest addr v

/-- The canonical form: addresses strictly rising from `low` on, no byte as unlisted ones read. -/
def Memory.wfFrom : Nat → Memory → Bool
  | _, [] => true
  | low, (a, v) :: rest => decide (low ≤ a) && v != Memory.unlisted && Memory.wfFrom (a + 1) rest

/-- The canonical form. -/
def Memory.wf (m : Memory) : Bool := Memory.wfFrom 0 m

/-- Every listed address is below `limit`. -/
def Memory.below (limit : Nat) : Memory → Bool
  | [] => true
  | (a, _) :: rest => decide (a < limit) && Memory.below limit rest

/-- The `n` addresses from `a` on, modulo 2^W. -/
def addressSpan (ws : WordSize) : Nat → Word → List Word
  | 0, _ => []
  | n + 1, a => ws.trunc a :: addressSpan ws n (a + 1)

/-- The bytes of a value, least significant first (R64). -/
def bytesOf : Nat → Word → List Byte
  | 0, _ => []
  | n + 1, v => v.extractLsb' 0 8 :: bytesOf n (v >>> 8)

/-- The value of bytes, the first of them least significant (R64, R66). -/
def valueOf : List Byte → Word
  | [] => 0
  | b :: rest => b.zeroExtend 32 ||| valueOf rest <<< 8

/-- Bytes written at addresses, pairwise. -/
def Memory.writeBytes : Memory → List Word → List Byte → Memory
  | m, a :: as, b :: bs => Memory.writeBytes (m.write a.toNat b) as bs
  | m, _, _ => m

/-- `MemRead(addr, BPW)` of R64 at an address that is a multiple of BPW. -/
def Memory.readWord (ws : WordSize) (m : Memory) (a : Word) : Word :=
  valueOf ((addressSpan ws ws.bytes a).map fun x => m.read x.toNat)

/-- `MemWrite(addr, BPW, v)` of R64 at an address that is a multiple of BPW. -/
def Memory.writeWord (ws : WordSize) (m : Memory) (a : Word) (v : Word) : Memory :=
  m.writeBytes (addressSpan ws ws.bytes a) (bytesOf ws.bytes v)

/-- Whether a region holds an address. -/
def inRegion (c : Cfg) (r : Region) (a : Word) : Bool :=
  decide ((c.wordSize.trunc (a - r.base)).toNat < r.size)

/-- What the first region of a memory map that holds an address says stands there. -/
def regionKind (c : Cfg) (a : Word) : List Region → Option MemKind
  | [] => none
  | r :: rest => if inRegion c r a then some r.kind else regionKind c a rest

/-- What stands at an address (R74); none: empty. -/
def memKind (c : Cfg) (a : Word) : Option MemKind := regionKind c a c.memMap

/-- The stop of a read at an address, if any (R74). -/
def readStop (c : Cfg) (a : Word) : Option Refusal :=
  match memKind c a with
  | none => some (.emptyMemory a)
  | some _ => none

/-- The stop of a write at an address, if any (R74). -/
def writeStop (c : Cfg) (a : Word) : Option Refusal :=
  match memKind c a with
  | none => some (.emptyMemory a)
  | some .rom => some (.romWrite a)
  | some .ram => none

/-- The address of a word access, or its stop where the address is no multiple of BPW (R68, D7). -/
def alignedAddress (c : Cfg) (a : Word) : Except Refusal Word :=
  let low := BitVec.ofNat 32 (c.wordSize.bytes - 1)
  let a := c.wordSize.trunc a
  if a &&& low = 0 then .ok a
  else
    match c.misaligned with
    | .refuse => .error (.misalignedWord a)
    | .ignoreLowBits => .ok (a &&& ~~~low)

/-- The cells that ROM holds. -/
def romCells (c : Cfg) (m : Memory) : Memory :=
  m.filter fun cell => memKind c (BitVec.ofNat 32 cell.1) = some .rom

/-- Cells written over a memory, those whose address is RAM only. -/
def overwriteRam (c : Cfg) (m : Memory) : List Host.Cell → Memory
  | [] => m
  | (a, v) :: rest =>
    let x := c.wordSize.trunc (BitVec.ofNat 32 a)
    if memKind c x = some .ram then overwriteRam c (m.write x.toNat v) rest else overwriteRam c m rest

/-- Memory after a plain Reset: ROM as it was, RAM a free value (R274, D25, log 18). -/
def redrawn (c : Cfg) (m : Memory) (draw : Nat) : Memory :=
  overwriteRam c (romCells c m) (Config.freeMemory draw)

end Sys2Proof.Machine
end

