-- ==== Sys2Proof/Machine/Flags.lean ====
section
/-! DEFINITION. The named bits of StatusReg (10_state.md R31 to R33; 00_scope.md R7). -/

namespace Sys2Proof.Machine

/-- PreservedBits: the StatusReg bits that `start` keeps (R7). -/
def preservedBits (c : Cfg) : Word :=
  if c.hasJ0Break then c.errorFlag ||| c.haltOnErrorFlag ||| c.enableJ0BreakFlag
  else c.errorFlag ||| c.haltOnErrorFlag

/-- Whether the bits of a mask are set in a status word. -/
def flagSet (mask status : Word) : Bool := status &&& mask == mask

/-- ErrorFlag AND HaltOnErrorFlag, as a level (R232). -/
def errorHaltSet (c : Cfg) (status : Word) : Bool :=
  flagSet c.errorFlag status && flagSet c.haltOnErrorFlag status

/-- Writing `new` over `old` makes ErrorFlag AND HaltOnErrorFlag true where it was false (R232, D26). -/
def raisesErrorHalt (c : Cfg) (old new : Word) : Bool :=
  errorHaltSet c new && !(errorHaltSet c old)

/-- `j 0` is a breakpoint: the part has EnableJ0BreakFlag and it is set (R205 (a), D40, log 26). -/
def j0Breaks (c : Cfg) (status : Word) : Bool :=
  c.hasJ0Break && flagSet c.enableJ0BreakFlag status

end Sys2Proof.Machine
end

