-- ==== Sys2Proof/Machine/Operands.lean ====
section
/-! DEFINITION. Operands and the addresses an instruction computes (R25, R27, R39, R46, R62, R97, R135). -/

namespace Sys2Proof.Machine

/-- The operand of the final byte whose data field is `d`: Oreg OR data (R97). -/
def State.operand (s : State) (d : Nibble) : Word := operandOf (s.cfg.wordSize.trunc s.oreg) d

/-- NextInst: the address of the byte after the one being executed (R27, R28, R95). -/
def State.nextInst (s : State) : Word := s.cfg.wordSize.trunc (s.iPtr + 1)

/-- `Index(a, n)` of R62: the address `n` words after `a`, modulo 2^W. -/
def index (ws : WordSize) (a n : Word) : Word := ws.trunc (a + n * BitVec.ofNat 32 ws.bytes)

/-- ProcPriority as a number: 1 is low (R24). -/
def Priority.toWord : Priority → Word
  | .high => 0
  | .low => 1

/-- Wdesc: WPtr OR ProcPriority (R25, D28). -/
def State.wdesc (s : State) : Word := s.wPtr ||| s.procPriority.toWord

/-- The number of a Link. -/
def Link.number : Link → Nat
  | .link0 => 0
  | .link1 => 1
  | .link2 => 2
  | .link3 => 3

/-- `LinkOutWord(k)` of R7 (D5). -/
def linkOutWord (ws : WordSize) (k : Link) : Word :=
  ws.trunc (ws.minInt + BitVec.ofNat 32 (k.number * ws.bytes))

/-- `LinkInWord(k)` of R7 (D5). -/
def linkInWord (ws : WordSize) (k : Link) : Word :=
  ws.trunc (ws.minInt + BitVec.ofNat 32 ((4 + k.number) * ws.bytes))

/-- The address of a channel's Link word (R46). -/
def linkWord (ws : WordSize) (ch : ChannelId) : Word :=
  match ch.dir with
  | .inp => linkInWord ws ch.link
  | .out => linkOutWord ws ch.link

/-- The eight channels (R40). -/
def allChannels : List ChannelId :=
  [⟨.link0, .out⟩, ⟨.link1, .out⟩, ⟨.link2, .out⟩, ⟨.link3, .out⟩,
   ⟨.link0, .inp⟩, ⟨.link1, .inp⟩, ⟨.link2, .inp⟩, ⟨.link3, .inp⟩]

/-- `channel_of`: the channel whose Link word is at an address (R162); none where there is none. -/
def channelOf (ws : WordSize) (a : Word) : Option ChannelId :=
  allChannels.find? fun ch => linkWord ws ch == a

/-- First Free Word after a boot message of `n` bytes (R135). -/
def firstFreeWord (c : Cfg) (n : Nat) : Word :=
  c.wordSize.trunc
    (c.memStart + BitVec.ofNat 32 (c.wordSize.bytes * ((n + c.wordSize.bytes - 1) / c.wordSize.bytes)))

end Sys2Proof.Machine
end

