-- ==== Sys2Proof/Machine/Ops.lean ====
section
/-! DEFINITION. The named operations over the registers, the channels and memory that the meanings share. There is no
operation that takes an exception or returns from one: no instruction of this spec raises one (60_exceptions.md R230) and
no interrupt is taken (R241). -/

namespace Sys2Proof.Machine

/-- A step's outcome from a meaning's answer. -/
def outcome : Except Refusal State → Host.Outcome State Fault Refusal
  | .ok s => .next s
  | .error r => .refused r

/-! ### The evaluation stack and the end of an instruction -/

/-- Push (R21): the old CReg is lost. -/
def State.push (s : State) (v : Word) : State :=
  { s with cReg := s.bReg, bReg := s.aReg, aReg := v }

/-- What a pop leaves in the stack (R21): CReg keeps its value (D9, log 12). -/
def State.pop (s : State) : State :=
  { s with aReg := s.bReg, bReg := s.cReg }

/-- The end of an instruction that does not jump: `IPtr <- NextInst`, `Oreg <- 0` (R27, R97). -/
def State.finish (s : State) : State :=
  { s with iPtr := s.nextInst, oreg := 0 }

/-- A taken jump: IPtr, and the refill of the instruction buffers, after which fetch sees memory as it is (R78, R205 (c)).
DESIGN CHOICE (log 24): the spec does not say whether the refill of two words is an access that R74 refuses at an empty
address; here it never stops, and only a byte that is executed does. -/
def State.jumpTo (s : State) (target : Word) : State :=
  let first := target &&& ~~~(BitVec.ofNat 32 (s.cfg.wordSize.bytes - 1))
  { s with
    iPtr    := target
    written := []
    buffers := ⟨true, true, s.mem.readWord s.cfg.wordSize first,
      s.mem.readWord s.cfg.wordSize (index s.cfg.wordSize first 1)⟩ }

/-! ### Memory -/

/-- The first stop in a list of addresses. -/
def firstStop (stopAt : Cfg → Word → Option Refusal) (c : Cfg) : List Word → Option Refusal
  | [] => none
  | a :: rest =>
    match stopAt c a with
    | some e => some e
    | none => firstStop stopAt c rest

/-- `MemRead(a, BPW)` by the CPU (R68, R70, R74). -/
def State.loadWord (s : State) (a : Word) : Except Refusal Word :=
  match alignedAddress s.cfg a with
  | .error e => .error e
  | .ok x =>
    match firstStop readStop s.cfg (addressSpan s.cfg.wordSize s.cfg.wordSize.bytes x) with
    | some e => .error e
    | none => .ok (s.mem.readWord s.cfg.wordSize x)

/-- `MemWrite(a, BPW, v)` by the CPU (R68, R70, R74). -/
def State.storeWord (s : State) (a v : Word) : Except Refusal State :=
  match alignedAddress s.cfg a with
  | .error e => .error e
  | .ok x =>
    match firstStop writeStop s.cfg (addressSpan s.cfg.wordSize s.cfg.wordSize.bytes x) with
    | some e => .error e
    | none => .ok { s with mem := s.mem.writeWord s.cfg.wordSize x v }

/-- The write of a channel: the `n` lowest bytes of a word from `a` on, as one whole (R45, R70 to R72). -/
def State.storePart (s : State) (a : Word) (n : Nat) (v : Word) : Except Refusal State :=
  match firstStop writeStop s.cfg (addressSpan s.cfg.wordSize n a) with
  | some e => .error e
  | none => .ok { s with mem := s.mem.writeBytes (addressSpan s.cfg.wordSize n a) (bytesOf n v) }

/-- Whether an address lies in the span that the two instruction buffers can cover when the next byte to execute is at
`next`: `next .. next + 3*BPW - 1` (R79, D18). -/
def inFetchWindow (ws : WordSize) (next a : Word) : Bool :=
  decide ((ws.trunc (a - next)).toNat < 3 * ws.bytes)

/-- An address added to a list of addresses without repeats. -/
def noteAddress (noted : List Nat) (a : Nat) : List Nat :=
  if noted.contains a then noted else noted ++ [a]

/-- The addresses of a store noted where they lie in the fetch window (R79, log 23). -/
def noteWritten (ws : WordSize) (next : Word) : List Nat → List Word → List Nat
  | noted, [] => noted
  | noted, a :: rest =>
    noteWritten ws next (if inFetchWindow ws next a then noteAddress noted a.toNat else noted) rest

/-- The bytes a word store at `a` writes, as addresses: none where it stops (R68). -/
def storedSpan (c : Cfg) (a : Word) : List Word :=
  match alignedAddress c a with
  | .error _ => []
  | .ok x => addressSpan c.wordSize c.wordSize.bytes x

/-- A word store by an instruction: the store, and the note of what it wrote ahead of fetch (R79). -/
def State.storeNoted (s : State) (a v : Word) : Except Refusal State :=
  match s.storeWord a v with
  | .error e => .error e
  | .ok t => .ok { t with written := noteWritten s.cfg.wordSize s.nextInst s.written (storedSpan s.cfg a) }

/-! ### Links and channels -/

/-- One Link's entry. -/
def PerLink.get {α : Type} (p : PerLink α) : Link → α
  | .link0 => p.l0
  | .link1 => p.l1
  | .link2 => p.l2
  | .link3 => p.l3

/-- One Link's entry replaced. -/
def PerLink.set {α : Type} (p : PerLink α) (k : Link) (v : α) : PerLink α :=
  match k with
  | .link0 => { p with l0 := v }
  | .link1 => { p with l1 := v }
  | .link2 => { p with l2 := v }
  | .link3 => { p with l3 := v }

/-- Every entry by one function. -/
def PerLink.map {α β : Type} (f : α → β) (p : PerLink α) : PerLink β :=
  ⟨f p.l0, f p.l1, f p.l2, f p.l3⟩

/-- A Link of the state. -/
def State.link (s : State) (k : Link) : LinkState := s.links.get k

/-- A Link of the state replaced. -/
def State.setLink (s : State) (k : Link) (l : LinkState) : State := { s with links := s.links.set k l }

/-- One of a Link's channels. -/
def LinkState.channel (l : LinkState) : Dir → Channel
  | .inp => l.inp
  | .out => l.out

/-- One of a Link's channels replaced. -/
def LinkState.setChannel (l : LinkState) (d : Dir) (c : Channel) : LinkState :=
  match d with
  | .inp => { l with inp := c }
  | .out => { l with out := c }

/-- A channel of the state. -/
def State.channel (s : State) (ch : ChannelId) : Channel := (s.link ch.link).channel ch.dir

/-- A channel of the state replaced. -/
def State.setChannel (s : State) (ch : ChannelId) (c : Channel) : State :=
  s.setLink ch.link ((s.link ch.link).setChannel ch.dir c)

/-- Active[ch] (R48): a message is in progress, or a byte is being shifted in (R242). -/
def Channel.active (c : Channel) : Bool := c.transfer != .idle || c.shifting

/-- Some channel is active (R163, R123). -/
def State.anyActive (s : State) : Bool :=
  allChannels.any fun ch => (s.channel ch).active

/-- A free word taken (R9 `draw`): the word, and the state with the count advanced. -/
def State.draw (s : State) : Word × State :=
  (s.cfg.wordSize.trunc (Config.freeWord s.draws), { s with draws := s.draws + 1 })

/-- PtrReg and DBuffReg of a channel made free values (R53, D32). -/
def State.drawPtrDBuff (s : State) (ch : ChannelId) : State :=
  let (p, s) := s.draw
  let (d, s) := s.draw
  s.setChannel ch { s.channel ch with ptr := p, dbuff := d }

/-- All three registers of a channel made free values (R53, D32). -/
def State.drawChannel (s : State) (ch : ChannelId) : State :=
  let (c, s) := s.draw
  (s.setChannel ch { s.channel ch with count := c }).drawPtrDBuff ch

/-- `drawChannel` on a condition. -/
def State.drawChannelIf (s : State) (used : Bool) (ch : ChannelId) : State :=
  if used then s.drawChannel ch else s

/-- `drawChannel` on the channels of one direction that are marked used (R53). -/
def State.drawUsed (s : State) (used : PerLink Bool) (d : Dir) : State :=
  let s := s.drawChannelIf used.l0 ⟨.link0, d⟩
  let s := s.drawChannelIf used.l1 ⟨.link1, d⟩
  let s := s.drawChannelIf used.l2 ⟨.link2, d⟩
  s.drawChannelIf used.l3 ⟨.link3, d⟩

/-- What a phase of the Link phase is about: the channel whose message `start` waits for; none at the poll. -/
def BootPhase.channel : BootPhase → Option ChannelId
  | .poll => none
  | .address k _ => some ⟨k, .inp⟩
  | .data k _ => some ⟨k, .inp⟩
  | .output k => some ⟨k, .out⟩
  | .code k _ => some ⟨k, .inp⟩

/-- The channel on which a message can be one of `start`'s own. -/
def Control.ownChannel : Control → Option ChannelId
  | .run => none
  | .boot b => b.phase.channel
  | .analysing m => m
  | .resetHeld _ => none
  | .analyseHeld => none

/-- The conditions under which the model is faithful (R241): both timer alarms off and no Link channel with a message on
behalf of a process, that is one that is not `start`'s own. That there is one process only is so because the state holds
one. -/
def State.oneProcess (s : State) : Bool :=
  !s.timerAlarmHigh && !s.timerAlarmLow
    && allChannels.all fun ch => (s.channel ch).transfer == .idle || s.control.ownChannel == some ch

/-- A step's outcome where R241's conditions hold; every step from another state is refused (U12, log 22). -/
def State.guarded (s : State) (o : Host.Outcome State Fault Refusal) : Host.Outcome State Fault Refusal :=
  if s.oneProcess then o else .refused .notOneProcess

end Sys2Proof.Machine
end

