-- ==== Sys2Proof/Machine/Auxiliary.lean ====
section
/-! DEFINITION. The auxiliary instructions j, ldc, mint, ldnlp, stl (43_auxiliary_base.md R205 to R209). -/

namespace Sys2Proof.Machine

/-- `j` (R205): `IPtr <- NextInst + operand` modulo 2^W, with the stack kept (log 12); `j 0` while it is a breakpoint is
refused (R205 (a)). -/
def execJ (d : Nibble) (s : State) : Host.Outcome State Fault Refusal :=
  if s.operand d = 0 ∧ j0Breaks s.cfg s.statusReg = true then .refused .breakpoint
  else .next ({ s with oreg := 0 }.jumpTo (s.cfg.wordSize.trunc (s.nextInst + s.operand d)))

/-- `ldc` (R206): push the operand. -/
def execLdc (d : Nibble) (s : State) : Host.Outcome State Fault Refusal :=
  .next (s.push (s.operand d)).finish

/-- `mint` (R207): push MinInt. -/
def execMint (s : State) : Host.Outcome State Fault Refusal :=
  .next (s.push s.cfg.wordSize.minInt).finish

/-- `ldnlp` (R208): `AReg <- Index(AReg, operand)`. -/
def execLdnlp (d : Nibble) (s : State) : Host.Outcome State Fault Refusal :=
  .next { s with aReg := index s.cfg.wordSize s.aReg (s.operand d) }.finish

/-- `stl` (R209): `MemWrite(Index(WPtr, operand), BPW, AReg)`, then a pop. -/
def execStl (d : Nibble) (s : State) : Host.Outcome State Fault Refusal :=
  match s.storeNoted (index s.cfg.wordSize s.wPtr (s.operand d)) s.aReg with
  | .ok t => .next t.pop.finish
  | .error e => outcome (.error e)

end Sys2Proof.Machine
end

