-- ==== Sys2Proof/Machine/HardChannel.lean ====
section
/-! DEFINITION. `testhardchan` (41_testhardchan.md R160 to R168). -/

namespace Sys2Proof.Machine

/-- A channel stack with a word pushed into it (R41); the word pushed out is the old DBuffReg. DESIGN CHOICE (log 21): R165
leaves open what a later transfer does where other values are left in PtrReg or DBuffReg with CountReg zero; here it has
its ordinary meaning, since a message sets both, and only a CountReg left non-zero is noted. -/
def Channel.push (c : Channel) (v : Word) : Channel :=
  { c with count := v, ptr := c.count, dbuff := c.ptr, pushed := v != 0 }

/-- `testhardchan` (R160): BReg is pushed into the stack of the channel that AReg names, AReg takes the DBuffReg pushed
out, BReg takes CReg. Refused where AReg is no Link word's address (R162) or a Link is active (R163). -/
def execTesthardchan (s : State) : Host.Outcome State Fault Refusal :=
  match channelOf s.cfg.wordSize s.aReg with
  | none => .refused (.notALinkWord s.aReg)
  | some ch =>
    if s.anyActive then .refused .linkActive
    else
      .next ({ s with aReg := (s.channel ch).dbuff, bReg := s.cReg }.setChannel ch
        ((s.channel ch).push s.bReg)).finish

end Sys2Proof.Machine
end

