-- ==== Sys2Proof/Machine/RegisterTest.lean ====
section
/-! DEFINITION. The six register test instructions (42_register_test.md R180 to R185). -/

namespace Sys2Proof.Machine

/-- `testldd` (R180): push DReg. -/
def execTestldd (s : State) : Host.Outcome State Fault Refusal :=
  .next (s.push s.dReg).finish

/-- `testlde` (R182): push EReg. -/
def execTestlde (s : State) : Host.Outcome State Fault Refusal :=
  .next (s.push s.eReg).finish

/-- `testlds` (R184): push StatusReg, the whole word. -/
def execTestlds (s : State) : Host.Outcome State Fault Refusal :=
  .next (s.push s.statusReg).finish

/-- `teststd` (R181): pop into DReg. -/
def execTeststd (s : State) : Host.Outcome State Fault Refusal :=
  .next { s with dReg := s.aReg }.pop.finish

/-- `testste` (R183): pop into EReg. -/
def execTestste (s : State) : Host.Outcome State Fault Refusal :=
  .next { s with eReg := s.aReg }.pop.finish

/-- `teststs` (R185): pop into StatusReg, the whole word; refused where ErrorFlag and HaltOnErrorFlag become both set
(R185 (a), R232). -/
def execTeststs (s : State) : Host.Outcome State Fault Refusal :=
  if raisesErrorHalt s.cfg s.statusReg s.aReg then .refused .errorHalt
  else .next { s with statusReg := s.aReg }.pop.finish

end Sys2Proof.Machine
end

