-- ==== Sys2Proof/Machine/Channels.lean ====
section
/-! DEFINITION. The Link channels as agents of their own (00_scope.md R11 (b); 10_state.md R42 to R48): a message enabled on
a channel, and one byte of it moved through the channel stack. -/

namespace Sys2Proof.Machine

/-- Byte `i` of a word, counted from the least significant. -/
def laneOf (v : Word) (i : Nat) : Byte := v.extractLsb' (8 * i) 8

/-- A word with byte `i` replaced. -/
def withLane (v : Word) (i : Nat) (b : Byte) : Word :=
  (v &&& ~~~((0xFF : Word) <<< (8 * i))) ||| b.zeroExtend 32 <<< (8 * i)

/-- A message of `n` bytes enabled: CountReg is minus `n` (R42), PtrReg the first word (R43). DESIGN CHOICE (log 42): the only
way into the stack that R41 gives the CPU is the push, and how `start` enables a channel is not in the source; here CountReg
and PtrReg are set in place, and DBuffReg keeps its value until the first byte or word of the message. -/
def Channel.enable (ws : WordSize) (c : Channel) (x : Transfer) (n : Nat) (a : Word) : Channel :=
  { c with count := ws.trunc (0 - BitVec.ofNat 32 n), ptr := a, transfer := x, fill := 0 }

/-- A byte of a message counted (R42): one data byte received, or one acknowledge. -/
def Channel.countByte (ws : WordSize) (c : Channel) : Channel :=
  { c with count := ws.trunc (c.count + 1), fill := c.fill + 1 }

/-- A byte of a message received: into DBuffReg at its place (R44), and counted. -/
def Channel.receive (ws : WordSize) (c : Channel) (v : Byte) : Channel :=
  { c with dbuff := ws.trunc (withLane c.dbuff c.fill v) }.countByte ws

/-- DBuffReg holds all of its word that the message has (R44, R45). -/
def Channel.wordDone (ws : WordSize) (c : Channel) : Bool := c.count == 0 || decide (ws.bytes ≤ c.fill)

/-- After a word: the next one, or the end of the message where CountReg has reached zero (R42, R48). -/
def Channel.endWord (c : Channel) : Channel :=
  { c with fill := 0, transfer := if c.count = 0 then .idle else c.transfer }

/-- PtrReg at the next word of memory (R43). -/
def Channel.nextWord (ws : WordSize) (c : Channel) : Channel := { c with ptr := index ws c.ptr 1 }

/-- An input channel without a message, on whose Link a byte has arrived, holds 1 in CountReg (R42). -/
def State.countWaiting (s : State) (k : Link) : State :=
  let c := s.channel ⟨k, .inp⟩
  if c.transfer = .idle ∧ (s.link k).fromHost ≠ [] then s.setChannel ⟨k, .inp⟩ { c with count := 1 } else s

/-- The word of DBuffReg that an input channel has received, written where its message is to memory: the message's bytes
only, as one whole (R45, R71, R72). DESIGN CHOICE (log 44): PtrReg is a byte address here, of the byte in lane 0 of DBuffReg,
also where it is no word address, so that the bytes may lie across a word boundary; R69 does not say what a channel then does,
and no run has such a message to memory. -/
def State.writeWordReceived (s : State) (c : Channel) : Except Refusal State :=
  match c.transfer with
  | .memory => s.storePart c.ptr c.fill c.dbuff
  | .buffered => .ok s
  | .idle => .ok s

/-- An input channel receives a byte of its message (R42 to R45): into DBuffReg, and to memory once the word, or the
message, is complete. A byte that waits behind the message is then an unsolicited one. -/
def State.receiveByte (s : State) (k : Link) : Except Refusal State :=
  match (s.link k).fromHost with
  | [] => .ok s
  | v :: rest =>
    let ws := s.cfg.wordSize
    let c := (s.channel ⟨k, .inp⟩).receive ws v
    let s := s.setLink k { s.link k with fromHost := rest }
    if c.wordDone ws then
      match s.writeWordReceived c with
      | .error e => .error e
      | .ok t => .ok ((t.setChannel ⟨k, .inp⟩ (c.nextWord ws).endWord).countWaiting k)
    else .ok (s.setChannel ⟨k, .inp⟩ c)

/-- The word that an output channel sends next: a message from memory is read as words, each when its first byte is to be
sent (R44, R45, R70). DESIGN CHOICE (log 44): where PtrReg is no word address, the BPW bytes from it on. -/
def State.wordToSend (s : State) (c : Channel) : Except Refusal Channel :=
  let ws := s.cfg.wordSize
  if c.transfer = .memory ∧ c.fill = 0 then
    match firstStop readStop s.cfg (addressSpan ws ws.bytes c.ptr) with
    | some e => .error e
    | none => .ok ({ c with dbuff := s.mem.readWord ws c.ptr }.nextWord ws)
  else .ok c

/-- An output channel sends a byte of its message, least significant first (R66), and the host acknowledges it (R42); it
waits while the host does not accept (R131, log 29). -/
def State.sendByte (s : State) (k : Link) : Except Refusal State :=
  if (s.link k).accepting then
    match s.wordToSend (s.channel ⟨k, .out⟩) with
    | .error e => .error e
    | .ok c =>
      let ws := s.cfg.wordSize
      let sent := c.countByte ws
      .ok ((s.setLink k { s.link k with toHost := (s.link k).toHost ++ [laneOf c.dbuff c.fill] }).setChannel ⟨k, .out⟩
        (if sent.wordDone ws then sent.endWord else sent))
  else .ok s

/-- Whether the pins leave the channels free to move: nothing changes while Reset, or in an Analyse Analyse, is held
(R271, log 17). -/
def Control.released : Control → Bool
  | .run => true
  | .boot _ => true
  | .analysing _ => false
  | .resetHeld _ => false
  | .analyseHeld => false

/-- The step of a channel: one byte of the message it has in progress, if any. Refused where `testhardchan` left its
CountReg non-zero (R165, log 21). -/
def channelStep (ch : ChannelId) (s : State) : Except Refusal State :=
  if s.control.released = false ∨ (s.channel ch).transfer = .idle then .ok s
  else if (s.channel ch).pushed then .error (.transferAfterPush ch.link)
  else
    match ch.dir with
    | .inp => s.receiveByte ch.link
    | .out => s.sendByte ch.link

end Sys2Proof.Machine
end

