-- ==== Sys2Proof/Machine/Start.lean ====
section
/-! DEFINITION. `start` and its boot procedures (40_start.md R120 to R147; 10_state.md R53). -/

namespace Sys2Proof.Machine

/-- The end of `start`, in both branches (R120): AReg, BReg, WPtr, ProcPriority, StatusReg, Oreg, and the jump to the boot
code. -/
def State.enterBootCode (s : State) (target workspace : Word) : State :=
  { s with
    aReg         := s.iPtr
    bReg         := s.wdesc
    wPtr         := workspace
    procPriority := .low
    statusReg    := s.statusReg &&& preservedBits s.cfg
    oreg         := 0
    control      := .run }.jumpTo target

/-- Boot from ROM (R125, R127). -/
def State.bootFromRom (s : State) : State := s.enterBootCode s.cfg.resetCodePtr s.cfg.memStart

/-- A Link's oldest byte from the host, taken. -/
def State.takeByte (s : State) (k : Link) : Option (Byte × State) :=
  match (s.link k).fromHost with
  | [] => none
  | b :: rest => some (b, s.setLink k { s.link k with fromHost := rest })

/-- The Links that hold a byte. -/
def State.pendingLinks (s : State) : List Link :=
  [Link.link0, .link1, .link2, .link3].filter fun k => !(s.link k).fromHost.isEmpty

/-- PollLinkInputs (R128): a Link that holds a byte; where several do, any of them, by a free value (D8, log 14).
DESIGN CHOICE (log 21): a byte that has arrived is found whatever CountReg holds, also where `testhardchan` has since
cleared the 1 that its arrival left there; the spec is silent (R165). -/
def State.pollLinkInputs (s : State) : Option (Link × State) :=
  match s.pendingLinks with
  | [] => none
  | [k] => some (k, s)
  | k :: rest =>
    some (((k :: rest)[Config.freePoll s.draws % (k :: rest).length]?).getD k, { s with draws := s.draws + 1 })

/-- The Link phase continued at a phase. -/
def State.bootAt (s : State) (b : Boot) (phase : BootPhase) : State :=
  { s with control := .boot { b with phase := phase } }

/-- A message enabled on a channel. -/
def State.enable (s : State) (ch : ChannelId) (x : Transfer) (n : Nat) (a : Word) : State :=
  s.setChannel ch ((s.channel ch).enable s.cfg.wordSize x n a)

/-- A word output set up, with the word in DBuffReg (R131). Its place in memory is not in the source, so PtrReg is a free
value (log 42). -/
def State.enableOutput (s : State) (k : Link) (v : Word) : State :=
  let (p, s) := s.draw
  s.setChannel ⟨k, .out⟩ ({ s.channel ⟨k, .out⟩ with dbuff := v }.enable s.cfg.wordSize .buffered s.cfg.wordSize.bytes p)

/-- The first byte `v` of Link `k` examined (R129): 0 a poke, 1 a peek, for both of which an address word is input through
the word at MemStart (R85), more the length of a boot message, which goes to MemStart (R133). DESIGN CHOICE (log 43): the
saving, use and restoring of the word at MemStart in a peek or a poke is no access that MemMap stops, also where that word is
empty or ROM; whether R74 (D27) refuses it there the spec does not say. -/
def State.firstByte (s : State) (b : Boot) (k : Link) (v : Byte) : Except Refusal State :=
  if (s.channel ⟨k, .inp⟩).pushed then .error (.transferAfterPush k)
  else
    let b := { b with usedIn := b.usedIn.set k true }
    let word := s.enable ⟨k, .inp⟩ .buffered s.cfg.wordSize.bytes s.cfg.memStart
    if v = 0 then .ok (word.bootAt b (.address k .poke))
    else if v = 1 then .ok (word.bootAt b (.address k .peek))
    else .ok ((s.enable ⟨k, .inp⟩ .memory v.toNat s.cfg.memStart).bootAt b (.code k v.toNat))

/-- The address of a peek or poke is complete (R130, R131). A poke's data word is input next; its place is not in the
source, so PtrReg is a free value (log 42). A peek's word goes to the output channel of the same Link. -/
def State.addressReceived (s : State) (b : Boot) (k : Link) (p : Protocol) (a : Word) : Except Refusal State :=
  match p with
  | .poke =>
    let (q, s) := s.draw
    .ok ((s.enable ⟨k, .inp⟩ .buffered s.cfg.wordSize.bytes q).bootAt b (.data k a))
  | .peek =>
    match s.loadWord a with
    | .error e => .error e
    | .ok v =>
      if (s.channel ⟨k, .out⟩).pushed then .error (.transferAfterPush k)
      else .ok ((s.enableOutput k v).bootAt { b with usedOut := b.usedOut.set k true } (.output k))

/-- The data word of a poke is complete (R130). -/
def State.dataReceived (s : State) (b : Boot) (a v : Word) : Except Refusal State :=
  match s.storeWord a v with
  | .error e => .error e
  | .ok t => .ok (t.bootAt b .poll)

/-- The end of a boot from Link `k` by a message of `length` bytes (R120, R136): the channel registers as R53 leaves them
(log 15), CountReg of the boot Link's input channel as before `start` (R138, R53, D32), CReg, and the jump to MemStart. -/
def State.finishBoot (s : State) (b : Boot) (k : Link) (length : Nat) : State :=
  let s := s.drawUsed (b.usedIn.set k false) .inp
  let s := s.drawUsed b.usedOut .out
  let s := s.drawPtrDBuff ⟨k, .inp⟩
  let s := s.setChannel ⟨k, .inp⟩ { s.channel ⟨k, .inp⟩ with count := b.saved.get k }
  { s with cReg := linkInWord s.cfg.wordSize k }.enterBootCode s.cfg.memStart (firstFreeWord s.cfg length)

/-- The channel whose message the Link phase waits for, if it waits for one. -/
def State.waitingFor (s : State) : Option ChannelId :=
  match s.control with
  | .boot b =>
    match b.phase.channel with
    | none => none
    | some ch => if (s.channel ch).transfer = .idle then none else some ch
  | .run => none
  | .analysing _ => none
  | .resetHeld _ => none
  | .analyseHeld => none

/-- The CPU's part in the Link phase, once the message it waits for is complete (R128 to R133); nothing while it is not,
or while no Link holds a byte (R141). A word that a channel has received is in its DBuffReg (R44). -/
def State.startStep (s : State) (b : Boot) : Except Refusal State :=
  if s.waitingFor.isSome then .ok s
  else
    match b.phase with
    | .poll =>
      match s.pollLinkInputs with
      | none => .ok s
      | some (k, s) =>
        match s.takeByte k with
        | none => .ok s
        | some (v, s) => s.firstByte b k v
    | .address k p => s.addressReceived b k p (s.channel ⟨k, .inp⟩).dbuff
    | .data k a => s.dataReceived b a (s.channel ⟨k, .inp⟩).dbuff
    | .output _ => .ok (s.bootAt b .poll)
    | .code k length => .ok (s.finishBoot b k length)

/-- The CountReg of each input channel (R138). -/
def State.inputCounts (s : State) : PerLink Word := s.links.map fun l => l.inp.count

/-- `start` from its first effects on, with `oldIPtr` in IPtr (R120, R124): BootFromRom is read once, here (R142, D39). The
Link phase then takes its steps (log 13). -/
def State.beginStart (s : State) : State :=
  let s := { s with timerAlarmHigh := false, timerAlarmLow := false, timesliceCount := 0 }
  if s.pins.bootFromRom then s.bootFromRom
  else
    { s with
      control := .boot ⟨.poll, s.inputCounts, ⟨false, false, false, false⟩, ⟨false, false, false, false⟩⟩ }

/-- `start` executed as an instruction (R120, R123): `oldIPtr` is NextInst of the `start` (R27). Refused where a Link is
active (R123, D38). -/
def execStart (s : State) : Host.Outcome State Fault Refusal :=
  if s.anyActive then .refused .startWhileLinkActive
  else .next { s with iPtr := s.nextInst }.beginStart

end Sys2Proof.Machine
end

