-- ==== Sys2Proof/Machine/Operate.lean ====
section
/-! DEFINITION. `opr` (30_encoding.md R98, R103). -/

namespace Sys2Proof.Machine

/-- `opr` (R98): executes the operation that the operand selects, compared as a whole word; a code that is not listed is
refused, with its name where the source names it (R103). -/
def execOpr (d : Nibble) (s : State) : Host.Outcome State Fault Refusal :=
  match (s.operand d).toNat with
  | 0x1FF => execStart s
  | 0x2D  => execTesthardchan s
  | 0x25  => execTestldd s
  | 0x28  => execTeststd s
  | 0x24  => execTestlde s
  | 0x27  => execTestste s
  | 0x23  => execTestlds s
  | 0x26  => execTeststs s
  | 0x42  => execMint s
  | code  => .refused (.operationNotSpecified code (namedOnly code))

end Sys2Proof.Machine
end

