-- ==== Sys2Proof/Machine/Prefixes.lean ====
section
/-! DEFINITION. The prefix instructions (30_encoding.md R94, R96). -/

namespace Sys2Proof.Machine

/-- `pfix` (R94): `Oreg <- (Oreg OR n) << 4; IPtr <- IPtr + 1`. -/
def execPfix (d : Nibble) (s : State) : Host.Outcome State Fault Refusal :=
  .next { s with oreg := pfixOreg s.cfg.wordSize (s.cfg.wordSize.trunc s.oreg) d, iPtr := s.nextInst }

/-- `nfix` (R96): `Oreg <- (NOT (Oreg OR n)) << 4; IPtr <- IPtr + 1`. -/
def execNfix (d : Nibble) (s : State) : Host.Outcome State Fault Refusal :=
  .next { s with oreg := nfixOreg s.cfg.wordSize (s.cfg.wordSize.trunc s.oreg) d, iPtr := s.nextInst }

end Sys2Proof.Machine
end

