-- ==== Sys2Proof/Machine/Dispatch.lean ====
section
/-! DEFINITION. The dispatch of an instruction to its meaning, one arm per row of spec/opcode_table.json. -/

namespace Sys2Proof.Machine

def exec (i : Instr) (s : State) : Host.Outcome State Fault Refusal :=
  match i with
  | .start => Sys2Proof.Machine.execStart s
  | .testhardchan => Sys2Proof.Machine.execTesthardchan s
  | .testldd => Sys2Proof.Machine.execTestldd s
  | .teststd => Sys2Proof.Machine.execTeststd s
  | .testlde => Sys2Proof.Machine.execTestlde s
  | .testste => Sys2Proof.Machine.execTestste s
  | .testlds => Sys2Proof.Machine.execTestlds s
  | .teststs => Sys2Proof.Machine.execTeststs s
  | .mint => Sys2Proof.Machine.execMint s
  | .pfix data => Sys2Proof.Machine.execPfix data s
  | .opr data => Sys2Proof.Machine.execOpr data s
  | .nfix data => Sys2Proof.Machine.execNfix data s
  | .j data => Sys2Proof.Machine.execJ data s
  | .ldc data => Sys2Proof.Machine.execLdc data s
  | .ldnlp data => Sys2Proof.Machine.execLdnlp data s
  | .stl data => Sys2Proof.Machine.execStl data s

end Sys2Proof.Machine
end

