-- ==== Sys2Proof/Machine/Cpu.lean ====
section
/-! DEFINITION. The CPU's own step: fetch, decode, execute (30_encoding.md R95, R97; 20_memory.md R74, R79), or the Link
phase of `start` resumed, or nothing while the pins hold the processor (R271). -/

namespace Sys2Proof.Machine

/-- The byte at IPtr, from current memory (R65, R79): a byte written ahead of fetch is refused (D18), and an empty address
stops (R74). -/
def State.fetchByte (s : State) : Except Refusal Byte :=
  let a := s.cfg.wordSize.trunc s.iPtr
  if s.written.contains a.toNat then .error (.fetchOfWrittenByte a)
  else
    match readStop s.cfg a with
    | some e => .error e
    | none => .ok (s.mem.read a.toNat)

/-- The instruction at IPtr under Oreg (R97, R98). -/
def State.fetch (s : State) : Except Refusal Instr :=
  match s.fetchByte with
  | .error e => .error e
  | .ok b =>
    match decodeByte (s.cfg.wordSize.trunc s.oreg) b with
    | .error e => .error (.undecoded e)
    | .ok i => .ok i

/-- The instruction at IPtr executed. -/
def State.runInstr (s : State) : Host.Outcome State Fault Refusal :=
  match s.fetch with
  | .ok i => exec i s
  | .error e => outcome (.error e)

/-- The CPU's step. -/
def cpuStep (s : State) : Host.Outcome State Fault Refusal :=
  match s.control with
  | .run => s.runInstr
  | .boot b => outcome (s.startStep b)
  | .analysing _ => .next s
  | .resetHeld _ => .next s
  | .analyseHeld => .next s

/-- The step of the machine by itself: while `start` waits for a channel's message that channel moves, else the CPU does
(R11, log 16). -/
def ownStep (s : State) : Host.Outcome State Fault Refusal :=
  match s.waitingFor with
  | some ch => outcome (channelStep ch s)
  | none => cpuStep s

/-- The bytes of an instruction placed from `a` on, whatever stands there: what a load from outside the machine does. -/
def State.placeBytes (s : State) (a : Word) (bytes : List Byte) : State :=
  { s with mem := s.mem.writeBytes (addressSpan s.cfg.wordSize bytes.length a) bytes }

/-- The state in which the instruction of `bytes` is the next thing the CPU executes: `bytes` stand from IPtr on and their
prefix bytes have been executed, so that IPtr is at the final byte and Oreg holds the operand's upper digits (R94 to R97,
log 9). Host and pins are quiet, so that the step is the CPU's. -/
def State.readyToExecute (s : State) (bytes : List Byte) : State :=
  let s := { s.placeBytes s.iPtr bytes with
    written := [], control := .run, turns := [], pins := { s.pins with reset := false, analyse := false } }
  match decodeBytes s.cfg.wordSize 0 0 bytes with
  | .ok (_, oreg, n, _) => { s with oreg := oreg, iPtr := s.cfg.wordSize.trunc (s.iPtr + BitVec.ofNat 32 n) }
  | .error _ => { s with oreg := 0 }

end Sys2Proof.Machine
end

