-- ==== Sys2Proof/Machine/HostActions.lean ====
section
/-! DEFINITION. What the host's actions do: the pins (70_reset_and_hazards.md R270 to R275) and the Links (R42, R52, R131,
R242). -/

namespace Sys2Proof.Machine

/-- A channel whose control logic is reset (R52, R272): the three registers keep their values (C5). -/
def Channel.reset (c : Channel) : Channel :=
  { c with transfer := .idle, shifting := false, fill := 0, pushed := false }

/-- A Link whose control logic is reset; whether bytes that wait in it are kept is a free value (R275, log 19). -/
def LinkState.reset (l : LinkState) (keep : Bool) : LinkState :=
  { l with inp := l.inp.reset, out := l.out.reset, fromHost := if l.fromHost.isEmpty || keep then l.fromHost else [] }

/-- The Link control logic of every Link reset (R52, R272). -/
def State.resetLinks (s : State) : State :=
  { s with
    links := ⟨s.links.l0.reset (Config.freeKeep s.draws), s.links.l1.reset (Config.freeKeep (s.draws + 1)),
      s.links.l2.reset (Config.freeKeep (s.draws + 2)), s.links.l3.reset (Config.freeKeep (s.draws + 3))⟩
    draws := s.draws + 4 }

/-- DReg and EReg made free values, as R51 has them after every Reset (log 41). -/
def State.drawHidden (s : State) : State :=
  let (d, s) := s.draw
  let (e, s) := s.draw
  { s with dReg := d, eReg := e }

/-- The Reset pin goes high (R270 to R274): the instruction or the Link phase in progress is abandoned, with the channel
registers as it has left them (R42 to R44, R53, R164), the Link control logic is reset, the instruction buffers are Full,
DReg and EReg are free values (R51), and, where this is no Analyse, so is memory (D25). -/
def State.resetGoesHigh (s : State) : State :=
  let s := s.resetLinks.drawHidden
  { s with
    pins    := { s.pins with reset := true }
    control := .resetHeld s.pins.analyse
    buffers := { s.buffers with full0 := true, full1 := true }
    mem     := if s.pins.analyse then s.mem else redrawn s.cfg s.mem s.draws
    draws   := s.draws + 1 }

/-- The Reset pin goes low: `start` proceeds, or in an Analyse with the Analyse pin still high is held on (R273).
DESIGN CHOICE (log 17): R273 gives no sequence in which Analyse goes low while Reset is still high; here `start` then
proceeds at Reset low, with memory kept, as the sequence began as an Analyse. DESIGN CHOICE (log 17): where Analyse has gone
high during a plain Reset and is still high, `start` proceeds too (R275), what it enters runs on with Analyse high, and
Analyse going low later does nothing; what a high Analyse does to a running program is not in the source (N35). -/
def State.resetGoesLow (s : State) : State :=
  let s := { s with pins := { s.pins with reset := false } }
  match s.control with
  | .resetHeld true => if s.pins.analyse then { s with control := .analyseHeld } else s.beginStart
  | _ => s.beginStart

/-- The Analyse pin goes high: the processor is held from here to the `start` that follows (R271, R273, log 17).
A message that the Link phase of `start` had in progress stands still with it. -/
def State.analyseGoesHigh (s : State) : State :=
  let t := { s with pins := { s.pins with analyse := true } }
  match s.control with
  | .run => { t with control := .analysing none }
  | .boot b => { t with control := .analysing b.phase.channel }
  | _ => t

/-- The Analyse pin goes low: `start` proceeds where Reset is low again (R273). -/
def State.analyseGoesLow (s : State) : Except Refusal State :=
  let t := { s with pins := { s.pins with analyse := false } }
  match s.control with
  | .analyseHeld => .ok t.beginStart
  | .analysing _ => .error .analyseWithoutReset
  | _ => .ok t

/-- A byte joins those that wait on a Link. -/
def State.queueByte (s : State) (k : Link) (v : Byte) : State :=
  s.setLink k { s.link k with fromHost := (s.link k).fromHost ++ [v] }

/-- A byte has been shifted in (R42, R242): it waits for the message in progress on that input channel, or, with none, is
unsolicited, and CountReg becomes 1. -/
def State.byteLands (s : State) (k : Link) (v : Byte) : State :=
  let s := s.queueByte k v
  (s.setChannel ⟨k, .inp⟩ { s.channel ⟨k, .inp⟩ with shifting := false }).countWaiting k

/-- A byte arrives on a Link (R42, R242). While Reset is high, whether it is kept is a free value (R275, log 19).
DESIGN CHOICE (log 17): what a Link does with a byte that comes after Analyse has gone high, while a message that `start`
had enabled stands still, is not in the source (N35); here the byte waits, and the message takes no more (R271). -/
def State.byteArrives (s : State) (k : Link) (v : Byte) : Except Refusal State :=
  if s.pins.reset then
    if Config.freeKeep s.draws then .ok { s.byteLands k v with draws := s.draws + 1 }
    else .ok { s with draws := s.draws + 1 }
  else if (s.channel ⟨k, .inp⟩).pushed then .error (.transferAfterPush k)
  else .ok (s.byteLands k v)

/-- The first bit of a byte arrives on a Link: the channel is active while the byte is shifted in, with a message in
progress or without (R48, R242). While Reset is high the control logic stays reset. DESIGN CHOICE (log 19): the spec is
silent on a byte whose first bit came before or while Reset was high and which completes after Reset low; here Reset
forgets the first bit, the channel is idle until the byte is complete, and the byte is then an unsolicited one. -/
def State.byteBegins (s : State) (k : Link) : Except Refusal State :=
  if s.pins.reset then .ok s
  else if (s.channel ⟨k, .inp⟩).pushed then .error (.transferAfterPush k)
  else .ok (s.setChannel ⟨k, .inp⟩ { s.channel ⟨k, .inp⟩ with shifting := true })

/-- What an action of the host does. -/
def hostStep (a : HostAction) (s : State) : Except Refusal State :=
  match a with
  | .linkShift k => s.byteBegins k
  | .linkByte k v => s.byteArrives k v
  | .linkAccept k x => .ok (s.setLink k { s.link k with accepting := x })
  | .linkTake k => .ok (s.setLink k { s.link k with toHost := (s.link k).toHost.drop 1 })
  | .resetHigh => if s.pins.reset then .ok s else .ok s.resetGoesHigh
  | .resetLow => if s.pins.reset then .ok s.resetGoesLow else .ok s
  | .analyseHigh => if s.pins.analyse then .ok s else .ok s.analyseGoesHigh
  | .analyseLow => if s.pins.analyse then s.analyseGoesLow else .ok s
  | .bootFromRom level => .ok { s with pins := { s.pins with bootFromRom := level } }

end Sys2Proof.Machine
end

