-- ==== Sys2Proof/Machine/Step.lean ====
section
/-! DEFINITION. One step of the machine, by one of its agents: the CPU, a Link channel, the host (00_scope.md R11, log 16). -/

namespace Sys2Proof.Machine

/-- The step of the agent whose turn it is. -/
def agentStep (x : Turn) (s : State) : Host.Outcome State Fault Refusal :=
  match x with
  | .cpu => cpuStep s
  | .channel ch => outcome (channelStep ch s)
  | .host a => outcome (hostStep a s)

/-- One step, where R241's conditions hold: the agent's whose turn is next; the machine's by itself where no turns are
left. -/
def step (s : State) : Host.Outcome State Fault Refusal :=
  s.guarded <|
    match s.turns with
    | [] => ownStep s
    | x :: rest => agentStep x { s with turns := rest }

/-- The instruction of a word of spec/opcode_table.json placed so that the next step executes it (R106, log 9, log 10). -/
def State.withFetchWord (s : State) (nbits w : Nat) : State :=
  s.readyToExecute (tableBytes (nbits / 8) w)

end Sys2Proof.Machine
end

