-- ==== Sys2Proof/Safety.lean ====
section
/-! DEFINITION. What claims call a good state: an admitted configuration, words of W bits, memory in canonical form. -/

namespace Sys2Proof.Machine

/-- A word of W bits (R7; log 2). -/
def inWord (ws : WordSize) (v : Word) : Bool := ws.trunc v == v

/-- The registers of a channel are words of W bits (R47). -/
def Channel.inWords (ws : WordSize) (c : Channel) : Bool :=
  inWord ws c.count && inWord ws c.ptr && inWord ws c.dbuff

/-- The registers of both channels of a Link are words of W bits. -/
def LinkState.inWords (ws : WordSize) (l : LinkState) : Bool :=
  l.inp.inWords ws && l.out.inWords ws

/-- A property of every Link's entry. -/
def PerLink.every {α : Type} (f : α → Bool) (p : PerLink α) : Bool :=
  f p.l0 && f p.l1 && f p.l2 && f p.l3

/-- The counts the Link phase saved are words of W bits. -/
def Control.inWords (ws : WordSize) : Control → Bool
  | .boot b => b.saved.every (inWord ws)
  | _ => true

/-- Every register is a word of W bits (R7, R20 to R32, R38, R47). -/
def State.inWords (s : State) : Bool :=
  let ws := s.cfg.wordSize
  inWord ws s.aReg && inWord ws s.bReg && inWord ws s.cReg && inWord ws s.wPtr && inWord ws s.iPtr
    && inWord ws s.oreg && inWord ws s.dReg && inWord ws s.eReg && inWord ws s.statusReg
    && inWord ws s.buffers.word0 && inWord ws s.buffers.word1
    && s.links.every (LinkState.inWords ws) && s.control.inWords ws

/-- The machine's invariant: the configuration is one R7 admits, every register holds a word of W bits, and memory is in
canonical form with every address a word of W bits (R61). -/
structure State.Inv (s : State) : Prop where
  cfgWellFormed : s.cfg.wellFormed = true
  registers     : s.inWords = true
  canonical     : s.mem.wf = true
  addresses     : Memory.below (2 ^ s.cfg.wordSize.bits) s.mem = true

/-- The conditions of R241, and what keeps them: the timer alarms are off, a message is in progress on no channel but the
one that the Link phase of `start` waits for, or waited for when Analyse stopped it, and while the Reset pin is high the
processor is held by it (R271). -/
structure State.Quiet (s : State) : Prop where
  oneProcess : s.oneProcess = true
  resetPin   : s.pins.reset = true → ∃ a, s.control = .resetHeld a

/-- The machine by itself hears `bytes` from the host on Link `k` and nothing on the others, and that input channel takes
them (R165). -/
structure State.Hears (s : State) (k : Link) (bytes : List Byte) : Prop where
  turns  : s.turns = []
  bytes  : (s.link k).fromHost = bytes
  others : ∀ j, j ≠ k → (s.link j).fromHost = []
  fresh  : (s.channel ⟨k, .inp⟩).pushed = false

/-- `start` is in its Link phase, at the poll (R128), under R241's conditions. -/
structure State.Polls (s : State) (b : Boot) : Prop where
  control    : s.control = .boot b
  phase      : b.phase = .poll
  oneProcess : s.oneProcess = true

end Sys2Proof.Machine
end

