-- ==== Sys2Proof/Certificates/Slice0/Obligations.lean ====
section
/-! DEFINITION. The statements for the provers. `ws` is the word size, so each holds for 16-bit and 32-bit parts; every
configuration field is the state's own, so each holds for every configuration. -/

open Sys2Proof Sys2Proof.Machine

/-! ### Encoding -/

/-- Decode and encode agree at one byte, with every data field at every value: under any Oreg, the final byte of an
instruction that can stand there decodes to it (R90, R97 to R100). -/
def Obligations.FinalByteDecodesToItsInstruction : Prop :=
  ∀ (oreg : Word) (i : Instr), i.wellFormedAt oreg = true → decodeByte oreg (finalByte i) = .ok i

/-- The other direction: with Oreg's low digit clear, as the prefixes leave it, each byte that decodes is the final byte
of the instruction it decodes to, so no two bytes are one instruction (R90, R97 to R100). -/
def Obligations.DecodedByteIsTheFinalByte : Prop :=
  ∀ (oreg : Word) (b : Byte) (i : Instr), oreg &&& 0xF = 0 → decodeByte oreg b = .ok i →
    i.wellFormedAt oreg = true ∧ finalByte i = b

/-- The memory code of every instruction, read from the start with Oreg 0, gives that instruction and takes all of its
bytes (R93, R99, R100, R102). -/
def Obligations.MemoryCodeDecodesToItsInstruction : Prop :=
  ∀ (ws : WordSize) (i : Instr), ∃ oreg,
    decodeBytes ws 0 0 (encode i) = .ok (i, oreg, (leadingBytes i).length, []) ∧ i.wellFormedAt oreg = true

/-- R101 with R94, R96 and R97: the canonical memory code of every operand of W bits, for every function that is no
prefix, leaves that function with that operand. -/
def Obligations.CanonicalCodeCarriesItsOperand : Prop :=
  ∀ (ws : WordSize) (f : Nibble) (v : Word), f ≠ 0x2 → f ≠ 0x6 → inWord ws v = true →
    assemble ws 0 (canonicalCode ws f v) = some (f, v, [])

/-- Memory codes written out in §1 and §5 of the source and in R100, as spec/opcode_table.json numbers them. -/
def Obligations.MemoryCodesOfTheManualDecode : Prop :=
  decodeTableWord 24 0x212FFF = some .start ∧ decodeTableWord 16 0x22FD = some .testhardchan
    ∧ decodeTableWord 16 0x22F5 = some .testldd ∧ decodeTableWord 16 0x22F8 = some .teststd
    ∧ decodeTableWord 16 0x22F4 = some .testlde ∧ decodeTableWord 16 0x22F7 = some .testste
    ∧ decodeTableWord 16 0x22F3 = some .testlds ∧ decodeTableWord 16 0x22F6 = some .teststs
    ∧ decodeTableWord 16 0x24F2 = some .mint ∧ decodeTableWord 8 0x54 = some (.ldnlp 4)
    ∧ decodeTableWord 8 0xD1 = some (.stl 1)

/-- R102: a `pfix 0` before any byte sequence that starts from Oreg 0 changes neither the function nor the operand. -/
def Obligations.RedundantPrefixChangesNothing : Prop :=
  ∀ (ws : WordSize) (bytes : List Byte), assemble ws 0 (instrByte 0x2 0x0 :: bytes) = assemble ws 0 bytes

/-! ### The step -/

/-- When the byte at IPtr decodes, the CPU's step is `exec` of that instruction, and nothing is added around it: the
instruction itself moves IPtr past its byte (R95, R97). The conditions are those under which R79, R74 and R241 let a byte
be executed. -/
def Obligations.StepRunsTheDecodedInstruction : Prop :=
  ∀ (s : State) (i : Instr) (rest : List Turn), s.control = .run → s.oneProcess = true →
    (s.cfg.wordSize.trunc s.iPtr).toNat ∉ s.written → memKind s.cfg (s.cfg.wordSize.trunc s.iPtr) ≠ none →
    decodeByte (s.cfg.wordSize.trunc s.oreg) (s.mem.read (s.cfg.wordSize.trunc s.iPtr).toNat) = .ok i →
    (s.turns = [] → step s = exec i s) ∧ (s.turns = .cpu :: rest → step s = exec i { s with turns := rest })

/-- Where a step does not reach an instruction: any step of a state outside R241's conditions (log 22); with the processor
running by itself, a byte written ahead of fetch (R79, log 23), an empty address (R74, log 25), an unlisted function (R103,
log 38). -/
def Obligations.StepStopsBeforeAnInstruction : Prop :=
  (∀ s : State, s.oneProcess = false → step s = .refused .notOneProcess)
  ∧ ∀ s : State, s.turns = [] → s.control = .run → s.oneProcess = true →
    let a := s.cfg.wordSize.trunc s.iPtr
    (a.toNat ∈ s.written → step s = .refused (.fetchOfWrittenByte a))
    ∧ (a.toNat ∉ s.written → memKind s.cfg a = none → step s = .refused (.emptyMemory a))
    ∧ (a.toNat ∉ s.written → memKind s.cfg a ≠ none →
        functionOf (s.mem.read a.toNat) ∈ [(0x1 : Nibble), 0x3, 0x7, 0x8, 0x9, 0xA, 0xB, 0xC, 0xE] →
        step s = .refused (.undecoded (.functionNotSpecified (functionOf (s.mem.read a.toNat)))))


/-- Two steps from the first byte of a two-byte memory code execute its operation with IPtr at the final byte and the
prefix's digit in Oreg (R93, R94, R95, R98). -/
def Obligations.TwoByteMemoryCodeRunsItsOperation : Prop :=
  ∀ (s : State) (i : Instr) (p : Byte), leadingBytes i = [p] → s.turns = [] → s.control = .run →
    s.oneProcess = true → s.oreg = 0 → s.written = [] → inWord s.cfg.wordSize s.iPtr = true →
    memKind s.cfg s.iPtr ≠ none → memKind s.cfg s.nextInst ≠ none →
    s.mem.read s.iPtr.toNat = p → s.mem.read s.nextInst.toNat = finalByte i →
    Host.Core.run Sys2Proof.core 2 s
      = exec i { s with oreg := pfixOreg s.cfg.wordSize 0 (dataOf p), iPtr := s.nextInst }

/-! ### Prefixes and opr -/

/-- R94 and the formula of R96, with their encodings and the whole state after each. -/
def Obligations.PrefixesBuildOreg : Prop :=
  ∀ (d : Nibble) (s : State), inWord s.cfg.wordSize s.oreg = true →
    decodeByte s.oreg (instrByte 0x2 d) = .ok (.pfix d) ∧ decodeByte s.oreg (instrByte 0x6 d) = .ok (.nfix d)
    ∧ exec (.pfix d) s = .next { s with
      oreg := s.cfg.wordSize.trunc ((s.oreg ||| d.zeroExtend 32) <<< 4)
      iPtr := s.cfg.wordSize.trunc (s.iPtr + 1) }
    ∧ exec (.nfix d) s = .next { s with
      oreg := s.cfg.wordSize.trunc ((~~~(s.oreg ||| d.zeroExtend 32)) <<< 4)
      iPtr := s.cfg.wordSize.trunc (s.iPtr + 1) }

/-- R98: `opr` executes the operation that its operand, Oreg OR data compared as a whole word, selects. -/
def Obligations.OprExecutesTheSelectedOperation : Prop :=
  ∀ (d : Nibble) (s : State) (i : Instr), inWord s.cfg.wordSize s.oreg = true →
    i.operationCode = some (s.oreg ||| d.zeroExtend 32).toNat → exec (.opr d) s = exec i s

/-- R103: an operation code that is none of the nine is refused, with the code. -/
def Obligations.UnlistedOperationIsRefused : Prop :=
  ∀ (d : Nibble) (s : State), inWord s.cfg.wordSize s.oreg = true →
    (s.oreg ||| d.zeroExtend 32).toNat ∉ operationCodes →
    exec (.opr d) s = .refused (.operationNotSpecified (s.oreg ||| d.zeroExtend 32).toNat
      (namedOnly (s.oreg ||| d.zeroExtend 32).toNat))

/-- `opr` completes where it selects an operation that always does: its next state is that operation's (R98, R180 to R184,
R207). That CReg keeps its value through the two pops is a literal reading (D9, log 12). -/
def Obligations.OprCompletesOnTheRegisterOperations : Prop :=
  ∀ (d : Nibble) (s : State), inWord s.cfg.wordSize s.oreg = true →
    let code := (s.oreg ||| d.zeroExtend 32).toNat
    let pushed := fun v : Word => { s with
      cReg := s.bReg, bReg := s.aReg, aReg := v, iPtr := s.cfg.wordSize.trunc (s.iPtr + 1), oreg := 0 }
    let popped := { s with
      aReg := s.bReg, bReg := s.cReg, iPtr := s.cfg.wordSize.trunc (s.iPtr + 1), oreg := 0 }
    (code = 0x25 → exec (.opr d) s = .next (pushed s.dReg))
    ∧ (code = 0x24 → exec (.opr d) s = .next (pushed s.eReg))
    ∧ (code = 0x23 → exec (.opr d) s = .next (pushed s.statusReg))
    ∧ (code = 0x42 → exec (.opr d) s = .next (pushed s.cfg.wordSize.minInt))
    ∧ (code = 0x28 → exec (.opr d) s = .next { popped with dReg := s.aReg })
    ∧ (code = 0x27 → exec (.opr d) s = .next { popped with eReg := s.aReg })

/-! ### Register tests -/

/-- R180, R182, R184, with their encodings and the whole state after each. -/
def Obligations.RegisterLoadsPushTheRegister : Prop :=
  ∀ (s : State),
    let pushed := fun v : Word => { s with
      cReg := s.bReg, bReg := s.aReg, aReg := v, iPtr := s.cfg.wordSize.trunc (s.iPtr + 1), oreg := 0 }
    decodeBytes s.cfg.wordSize 0 0 [0x22, 0xF5] = .ok (.testldd, 0x20, 1, [])
    ∧ exec .testldd s = .next (pushed s.dReg)
    ∧ decodeBytes s.cfg.wordSize 0 0 [0x22, 0xF4] = .ok (.testlde, 0x20, 1, [])
    ∧ exec .testlde s = .next (pushed s.eReg)
    ∧ decodeBytes s.cfg.wordSize 0 0 [0x22, 0xF3] = .ok (.testlds, 0x20, 1, [])
    ∧ exec .testlds s = .next (pushed s.statusReg)

/-- R181, R183, with their encodings and the whole state after each. That CReg keeps its value is the spec's literal
reading (D9 of 92_eei_decisions.md, log 12). -/
def Obligations.RegisterStoresPopIntoDAndE : Prop :=
  ∀ (s : State),
    let popped := { s with
      aReg := s.bReg, bReg := s.cReg, iPtr := s.cfg.wordSize.trunc (s.iPtr + 1), oreg := 0 }
    decodeBytes s.cfg.wordSize 0 0 [0x22, 0xF8] = .ok (.teststd, 0x20, 1, [])
    ∧ exec .teststd s = .next { popped with dReg := s.aReg }
    ∧ decodeBytes s.cfg.wordSize 0 0 [0x22, 0xF7] = .ok (.testste, 0x20, 1, [])
    ∧ exec .testste s = .next { popped with eReg := s.aReg }

/-- `teststs` (R185): the whole StatusReg is replaced, unless the conjunction of ErrorFlag and HaltOnErrorFlag changes
from false to true. That every bit is stored, and that CReg keeps its value, are literal readings (D11, D9, log 12). -/
def Obligations.TeststsReplacesStatusReg : Prop :=
  ∀ (s : State),
    let both := fun v : Word => v &&& s.cfg.errorFlag = s.cfg.errorFlag
      ∧ v &&& s.cfg.haltOnErrorFlag = s.cfg.haltOnErrorFlag
    (¬ both s.aReg ∨ both s.statusReg) →
    exec .teststs s = .next { s with
      statusReg := s.aReg, aReg := s.bReg, bReg := s.cReg, iPtr := s.cfg.wordSize.trunc (s.iPtr + 1), oreg := 0 }

/-- R232: a `teststs` that changes ErrorFlag AND HaltOnErrorFlag from false to true is refused. -/
def Obligations.TeststsRaisingErrorHaltIsRefused : Prop :=
  ∀ (s : State),
    let both := fun v : Word => v &&& s.cfg.errorFlag = s.cfg.errorFlag
      ∧ v &&& s.cfg.haltOnErrorFlag = s.cfg.haltOnErrorFlag
    both s.aReg → ¬ both s.statusReg → exec .teststs s = .refused .errorHalt

/-- R186: from the stack (A, B, C) a store gives (B, C, C) and the matching load then (A, B, C) again, with A left in the
register; a load gives (D, A, B) and the matching store then (A, B, B), with the register D as it was. -/
def Obligations.RegisterRoundTrips : Prop :=
  ∀ (s : State),
    let stack := fun (u : State) (x y z : Word) => u.aReg = x ∧ u.bReg = y ∧ u.cReg = z
    (∃ t u, exec .teststd s = .next t ∧ exec .testldd t = .next u ∧ stack t s.bReg s.cReg s.cReg
        ∧ stack u s.aReg s.bReg s.cReg ∧ t.dReg = s.aReg ∧ u.dReg = s.aReg)
    ∧ (∃ t u, exec .testste s = .next t ∧ exec .testlde t = .next u ∧ stack t s.bReg s.cReg s.cReg
        ∧ stack u s.aReg s.bReg s.cReg ∧ t.eReg = s.aReg ∧ u.eReg = s.aReg)
    ∧ (raisesErrorHalt s.cfg s.statusReg s.aReg = false →
        ∃ t u, exec .teststs s = .next t ∧ exec .testlds t = .next u ∧ stack t s.bReg s.cReg s.cReg
          ∧ stack u s.aReg s.bReg s.cReg ∧ t.statusReg = s.aReg ∧ u.statusReg = s.aReg)
    ∧ (∃ t u, exec .testldd s = .next t ∧ exec .teststd t = .next u ∧ stack t s.dReg s.aReg s.bReg
        ∧ stack u s.aReg s.bReg s.bReg ∧ u.dReg = s.dReg)
    ∧ (∃ t u, exec .testlde s = .next t ∧ exec .testste t = .next u ∧ stack t s.eReg s.aReg s.bReg
        ∧ stack u s.aReg s.bReg s.bReg ∧ u.eReg = s.eReg)
    ∧ (∃ t u, exec .testlds s = .next t ∧ exec .teststs t = .next u ∧ stack t s.statusReg s.aReg s.bReg
        ∧ stack u s.aReg s.bReg s.bReg ∧ u.statusReg = s.statusReg)

/-! ### Auxiliary instructions -/

/-- R206, R207, with their encodings and the whole state after each. -/
def Obligations.ConstantsArePushed : Prop :=
  ∀ (d : Nibble) (s : State), inWord s.cfg.wordSize s.oreg = true →
    let pushed := fun v : Word => { s with
      cReg := s.bReg, bReg := s.aReg, aReg := v, iPtr := s.cfg.wordSize.trunc (s.iPtr + 1), oreg := 0 }
    decodeByte s.oreg (instrByte 0x4 d) = .ok (.ldc d)
    ∧ exec (.ldc d) s = .next (pushed (s.oreg ||| d.zeroExtend 32))
    ∧ decodeBytes s.cfg.wordSize 0 0 [0x24, 0xF2] = .ok (.mint, 0x40, 1, [])
    ∧ exec .mint s = .next (pushed s.cfg.wordSize.minInt)

/-- R208, with its encoding and the whole state after: AReg moves by operand words modulo 2^W, nothing else of the stack
and no memory changes. -/
def Obligations.LdnlpIndexesAReg : Prop :=
  ∀ (d : Nibble) (s : State), inWord s.cfg.wordSize s.oreg = true →
    decodeByte s.oreg (instrByte 0x5 d) = .ok (.ldnlp d)
    ∧ ∃ t, exec (.ldnlp d) s = .next t
      ∧ t = { s with aReg := t.aReg, iPtr := s.cfg.wordSize.trunc (s.iPtr + 1), oreg := 0 }
      ∧ t.aReg.toNat = (s.aReg.toNat + (s.oreg ||| d.zeroExtend 32).toNat * s.cfg.wordSize.bytes)
          % 2 ^ s.cfg.wordSize.bits

/-- `j` (R205) where it is no breakpoint, which takes a part that has EnableJ0BreakFlag (log 26): IPtr becomes NextInst plus
the operand modulo 2^W, both instruction buffers are Full with the window refilled (R78, what they hold is log 24's), and
nothing else changes. That the stack is kept is the spec's reading (D19, log 12). -/
def Obligations.JumpGoesToNextInstPlusOperand : Prop :=
  ∀ (d : Nibble) (s : State), inWord s.cfg.wordSize s.oreg = true →
    (s.oreg ||| d.zeroExtend 32 = 0 → s.cfg.hasJ0Break = true →
      s.statusReg &&& s.cfg.enableJ0BreakFlag ≠ s.cfg.enableJ0BreakFlag) →
    ∃ t, exec (.j d) s = .next t
      ∧ t = { s with iPtr := t.iPtr, oreg := 0, written := [], buffers := t.buffers }
      ∧ t.buffers.full0 = true ∧ t.buffers.full1 = true
      ∧ t.iPtr.toNat = (s.iPtr.toNat + 1 + (s.oreg ||| d.zeroExtend 32).toNat) % 2 ^ s.cfg.wordSize.bits

/-- R205 (a): `j 0` while EnableJ0BreakFlag is set, on a part that has it, is refused. -/
def Obligations.BreakpointJumpIsRefused : Prop :=
  ∀ (d : Nibble) (s : State), inWord s.cfg.wordSize s.oreg = true →
    s.oreg ||| d.zeroExtend 32 = 0 → s.cfg.hasJ0Break = true →
    s.statusReg &&& s.cfg.enableJ0BreakFlag = s.cfg.enableJ0BreakFlag → exec (.j d) s = .refused .breakpoint

/-- R126 and R28: the two-byte ROM entry `nfix x; j y`, whose last byte is the highest address, jumps to MinInt plus its
operand modulo 2^W, which lies in the top 256 bytes of the address space. -/
def Obligations.RomEntryJumpsIntoTheTopOfMemory : Prop :=
  ∀ (x y : Nibble) (s : State), s.cfg.resetCodePtr = s.cfg.wordSize.maxInt - 1 →
    s.iPtr = s.cfg.resetCodePtr → s.oreg = 0 →
    ∃ t u, exec (.nfix x) s = .next t ∧ t.iPtr = s.cfg.wordSize.maxInt ∧ exec (.j y) t = .next u
      ∧ (u.iPtr.toNat + 256) % 2 ^ s.cfg.wordSize.bits
          = (s.cfg.wordSize.minInt.toNat + (16 * (15 - x.toNat) + y.toNat)) % 2 ^ s.cfg.wordSize.bits
      ∧ s.cfg.wordSize.maxInt.toNat - 255 ≤ u.iPtr.toNat ∧ u.iPtr.toNat ≤ s.cfg.wordSize.maxInt.toNat

/-- `stl` (R209): the word goes to the address the meaning computes, byte by byte as R64 orders them, no other byte of
memory changes, the stack is popped, and no other register changes. That CReg keeps its value is a literal reading (D9,
log 12); the byte order is log 4's. -/
def Obligations.StlStoresAReg : Prop :=
  ∀ (d : Nibble) (s : State) (x : Word), s.mem.wf = true →
    alignedAddress s.cfg (index s.cfg.wordSize s.wPtr (s.operand d)) = .ok x →
    (∀ a ∈ addressSpan s.cfg.wordSize s.cfg.wordSize.bytes x, memKind s.cfg a = some .ram) →
    ∃ t, exec (.stl d) s = .next t
      ∧ t = { s with
          aReg := s.bReg, bReg := s.cReg, iPtr := s.cfg.wordSize.trunc (s.iPtr + 1), oreg := 0
          mem := t.mem, written := t.written }
      ∧ (addressSpan s.cfg.wordSize s.cfg.wordSize.bytes x).map (fun a => t.mem.read a.toNat)
          = bytesOf s.cfg.wordSize.bytes s.aReg
      ∧ ∀ addr, (∀ a ∈ addressSpan s.cfg.wordSize s.cfg.wordSize.bytes x, a.toNat ≠ addr) →
          t.mem.read addr = s.mem.read addr

/-- Where `stl` stops (R68 and log 28, R74 and log 25): a misaligned address under `refuse`, and a word any byte of which is
no RAM. -/
def Obligations.StlStopsOnMemoryThatCannotBeWritten : Prop :=
  ∀ (d : Nibble) (s : State),
    let a := index s.cfg.wordSize s.wPtr (s.operand d)
    (s.cfg.misaligned = .refuse → a.toNat % s.cfg.wordSize.bytes ≠ 0 →
      exec (.stl d) s = .refused (.misalignedWord a))
    ∧ (∀ x b, alignedAddress s.cfg a = .ok x → b ∈ addressSpan s.cfg.wordSize s.cfg.wordSize.bytes x →
        memKind s.cfg b ≠ some .ram → ∃ e ∈ addressSpan s.cfg.wordSize s.cfg.wordSize.bytes x,
          (memKind s.cfg e = none ∧ exec (.stl d) s = .refused (.emptyMemory e))
            ∨ (memKind s.cfg e = some .rom ∧ exec (.stl d) s = .refused (.romWrite e)))

/-- Which address a word access uses (R68, D7): the address itself where it is a multiple of BPW; else, under
`ignore_low_bits`, the multiple of BPW below it; else none. -/
def Obligations.WordAccessAddress : Prop :=
  ∀ (c : Cfg) (a : Word), inWord c.wordSize a = true →
    (a.toNat % c.wordSize.bytes = 0 → alignedAddress c a = .ok a)
    ∧ (a.toNat % c.wordSize.bytes ≠ 0 → c.misaligned = .refuse →
        alignedAddress c a = .error (.misalignedWord a))
    ∧ (a.toNat % c.wordSize.bytes ≠ 0 → c.misaligned = .ignoreLowBits →
        ∃ x, alignedAddress c a = .ok x ∧ x.toNat = a.toNat - a.toNat % c.wordSize.bytes)

/-- R79: a byte that `stl` writes in `IPtr .. IPtr + 3*BPW - 1` is noted, what was noted before stays noted, and reaching a
noted byte before a taken jump is refused; a taken jump forgets it (R78). -/
def Obligations.ByteWrittenAheadOfFetchIsRefused : Prop :=
  ∀ (d : Nibble) (s t : State) (x b : Word), exec (.stl d) s = .next t →
    (∀ a ∈ s.written, a ∈ t.written)
    ∧ (alignedAddress s.cfg (index s.cfg.wordSize s.wPtr (s.operand d)) = .ok x →
        b ∈ addressSpan s.cfg.wordSize s.cfg.wordSize.bytes x →
        (s.cfg.wordSize.trunc (b - t.iPtr)).toNat < 3 * s.cfg.wordSize.bytes →
        ∀ u : State, u.cfg = t.cfg → u.written = t.written → u.iPtr = b → u.turns = [] → u.control = .run →
          u.oneProcess = true → step u = .refused (.fetchOfWrittenByte b))
    ∧ ∀ (e : Nibble) (u : State), exec (.j e) t = .next u → u.written = []

/-! ### testhardchan -/

/-- R160, with its encoding: the channel whose Link word AReg addresses is shifted, AReg takes its old DBuffReg, BReg takes
CReg; every other channel, what waits on the Links, and all else is unchanged, CReg by a literal reading (D9, log 12). -/
def Obligations.TesthardchanPushesThroughTheChannel : Prop :=
  ∀ (s : State) (ch : ChannelId), s.aReg = linkWord s.cfg.wordSize ch → s.anyActive = false →
    decodeBytes s.cfg.wordSize 0 0 [0x22, 0xFD] = .ok (.testhardchan, 0x20, 1, [])
    ∧ ∃ t, exec .testhardchan s = .next t
      ∧ t.aReg = (s.channel ch).dbuff ∧ t.bReg = s.cReg
      ∧ (t.channel ch).dbuff = (s.channel ch).ptr ∧ (t.channel ch).ptr = (s.channel ch).count
      ∧ (t.channel ch).count = s.bReg ∧ (t.channel ch).active = false
      ∧ (∀ x, x ≠ ch → t.channel x = s.channel x)
      ∧ (∀ k, (t.link k).fromHost = (s.link k).fromHost ∧ (t.link k).toHost = (s.link k).toHost
          ∧ (t.link k).accepting = (s.link k).accepting)
      ∧ t = { s with
          aReg := t.aReg, bReg := t.bReg, links := t.links
          iPtr := s.cfg.wordSize.trunc (s.iPtr + 1), oreg := 0 }

/-- R162 (D12) and R163 (D13): no channel selected, or any channel active, is refused. -/
def Obligations.TesthardchanRefusals : Prop :=
  ∀ s : State,
    ((∀ ch, s.aReg ≠ linkWord s.cfg.wordSize ch) → exec .testhardchan s = .refused (.notALinkWord s.aReg))
    ∧ (∀ ch c, s.aReg = linkWord s.cfg.wordSize ch → (s.channel c).active = true →
        exec .testhardchan s = .refused .linkActive)

/-- R161: three executions on one channel give DBuffReg, PtrReg, CountReg in that order, and leave the first word pushed
in DBuffReg, the second in PtrReg, the third in CountReg. -/
def Obligations.ThreePushesReadOutTheChannel : Prop :=
  ∀ (s : State) (ch : ChannelId) (v1 v2 v3 : Word), s.anyActive = false →
    let ready := fun (t : State) (v : Word) => { t with aReg := linkWord s.cfg.wordSize ch, bReg := v }
    ∃ t1 t2 t3, exec .testhardchan (ready s v1) = .next t1 ∧ exec .testhardchan (ready t1 v2) = .next t2
      ∧ exec .testhardchan (ready t2 v3) = .next t3
      ∧ t1.aReg = (s.channel ch).dbuff ∧ t2.aReg = (s.channel ch).ptr ∧ t3.aReg = (s.channel ch).count
      ∧ (t3.channel ch).dbuff = v1 ∧ (t3.channel ch).ptr = v2 ∧ (t3.channel ch).count = v3

/-- R7, D5 (log 32) and R162: the Link words are the eight lowest words of memory, output words first, and each address of one
selects its own channel. -/
def Obligations.LinkWordsSelectTheirChannels : Prop :=
  ∀ (ws : WordSize) (k : Link) (a : Word) (ch : ChannelId),
    (linkOutWord ws k).toNat = ws.minInt.toNat + k.number * ws.bytes
    ∧ (linkInWord ws k).toNat = ws.minInt.toNat + (4 + k.number) * ws.bytes
    ∧ (channelOf ws a = some ch ↔ a = linkWord ws ch)

/-! ### start -/

/-- R120, R124, R127, the ROM branch: every field of the state after `start`. Wdesc is D28's (log 32), and Oreg 0 D15's. That the
instruction buffers are Full after it is the refill by its final jump (R78, log 24). -/
def Obligations.StartBootsFromRom : Prop :=
  ∀ s : State, s.anyActive = false → s.pins.bootFromRom = true →
    ∃ t, exec .start s = .next t
      ∧ t = { s with
          aReg := s.cfg.wordSize.trunc (s.iPtr + 1), bReg := s.wPtr ||| s.procPriority.toWord
          iPtr := s.cfg.resetCodePtr, wPtr := s.cfg.memStart, procPriority := .low
          statusReg := s.statusReg &&& preservedBits s.cfg, oreg := 0
          timerAlarmHigh := false, timerAlarmLow := false, timesliceCount := 0
          control := .run, written := [], buffers := t.buffers }
      ∧ t.buffers.full0 = true ∧ t.buffers.full1 = true

/-- PreservedBits (R7): ErrorFlag and HaltOnErrorFlag on every part, EnableJ0BreakFlag on the parts that have it; so `start`
keeps those bits and, among single bits, clears every other (R120). -/
def Obligations.PreservedBitsPerPart : Prop :=
  ∀ (p : Part) (regions : List Region) (status : Word),
    let c := Cfg.ofPart p regions
    let kept := status &&& preservedBits c
    kept &&& c.errorFlag = status &&& c.errorFlag ∧ kept &&& c.haltOnErrorFlag = status &&& c.haltOnErrorFlag
    ∧ kept &&& c.enableJ0BreakFlag
        = (if p = .t425 ∨ p = .t801 then status &&& c.enableJ0BreakFlag else 0)
    ∧ kept &&& ~~~(c.errorFlag ||| c.haltOnErrorFlag ||| c.enableJ0BreakFlag) = 0

/-- R123 (D38, log 34): `start` from memory while a channel is active is refused. -/
def Obligations.StartWhileALinkIsActiveIsRefused : Prop :=
  ∀ (s : State) (ch : ChannelId), (s.channel ch).active = true → exec .start s = .refused .startWhileLinkActive

/-- R124, R128, R141: with BootFromRom low and no byte on any Link, `start` switches the alarms off, clears the timeslice
and waits: the CPU's next step changes nothing. How it waits is the model's choice (log 13). -/
def Obligations.StartWaitsForTheHost : Prop :=
  ∀ s : State, s.anyActive = false → s.pins.bootFromRom = false → (∀ k, (s.link k).fromHost = []) → s.turns = [] →
    ∃ t b, exec .start s = .next t ∧ t.control = .boot b ∧ b.phase = .poll
      ∧ t = { s with
          iPtr := s.cfg.wordSize.trunc (s.iPtr + 1), timerAlarmHigh := false, timerAlarmLow := false
          timesliceCount := 0, control := t.control }
      ∧ step t = .next t

/-- R120, R128, R133 to R136, R138, the Link branch, with a whole boot message of `n` bytes on the one Link that holds bytes:
from the poll, also after peeks and pokes (R132), and from `start` itself. In the `n + 2` steps of the machine by itself (the
poll, a step of the channel for each byte, the end: log 13, log 42) it stores the bytes from MemStart on, changes no other
byte, and enters the boot code with the state R120 gives it. CountReg of the boot Link's input channel is as it was when
`start` began (R138, R53), also where bytes wait behind the message (log 15); its PtrReg and DBuffReg, and all registers of
the channels that peeks and pokes have used, are free values (R53, log 15), so nothing is said of them; every other channel
keeps its registers. Wdesc, the Link word and the byte order are those of log 32 and log 4. -/
def Obligations.StartBootsFromALink : Prop :=
  (∀ (u : State) (b : Boot) (k : Link) (n : Byte) (code rest : List Byte), u.Polls b → u.Hears k (n :: code ++ rest) →
    u.mem.wf = true → 2 ≤ n.toNat → code.length = n.toNat →
    let span := addressSpan u.cfg.wordSize n.toNat u.cfg.memStart
    (∀ a ∈ span, memKind u.cfg a = some .ram) →
    ∃ t : State, Host.Core.run Sys2Proof.core (n.toNat + 2) u = .next t
      ∧ span.map (fun a => t.mem.read a.toNat) = code
      ∧ (∀ addr, (∀ a ∈ span, a.toNat ≠ addr) → t.mem.read addr = u.mem.read addr)
      ∧ (t.link k).fromHost = rest ∧ (∀ j, j ≠ k → (t.link j).fromHost = [])
      ∧ (∀ j, (t.link j).toHost = (u.link j).toHost ∧ (t.link j).accepting = (u.link j).accepting)
      ∧ (t.channel ⟨k, .inp⟩).count = b.saved.get k
      ∧ (∀ ch, (t.channel ch).active = (u.channel ch).active)
      ∧ (∀ ch, ch ≠ ⟨k, .inp⟩ → (ch.dir = .inp → b.usedIn.get ch.link = false) →
          (ch.dir = .out → b.usedOut.get ch.link = false) → t.channel ch = u.channel ch)
      ∧ t = { u with
          aReg := u.iPtr, bReg := u.wPtr ||| u.procPriority.toWord, cReg := linkInWord u.cfg.wordSize k
          iPtr := u.cfg.memStart, wPtr := firstFreeWord u.cfg n.toNat, procPriority := .low
          statusReg := u.statusReg &&& preservedBits u.cfg, oreg := 0, control := .run, written := []
          buffers := t.buffers, mem := t.mem, links := t.links, draws := t.draws })
  ∧ ∀ (s : State) (k : Link) (n : Byte) (code rest : List Byte), s.mem.wf = true → s.anyActive = false →
    s.pins.bootFromRom = false → s.Hears k (n :: code ++ rest) → 2 ≤ n.toNat → code.length = n.toNat →
    let span := addressSpan s.cfg.wordSize n.toNat s.cfg.memStart
    (∀ a ∈ span, memKind s.cfg a = some .ram) →
    ∃ t0 t : State, exec .start s = .next t0 ∧ Host.Core.run Sys2Proof.core (n.toNat + 2) t0 = .next t
      ∧ span.map (fun a => t.mem.read a.toNat) = code
      ∧ (∀ addr, (∀ a ∈ span, a.toNat ≠ addr) → t.mem.read addr = s.mem.read addr)
      ∧ (t.link k).fromHost = rest ∧ (∀ j, j ≠ k → (t.link j).fromHost = [])
      ∧ (∀ j, (t.link j).toHost = (s.link j).toHost ∧ (t.link j).accepting = (s.link j).accepting)
      ∧ (t.channel ⟨k, .inp⟩).count = (s.channel ⟨k, .inp⟩).count
      ∧ t.anyActive = false ∧ (∀ ch, ch ≠ ⟨k, .inp⟩ → t.channel ch = s.channel ch)
      ∧ t = { s with
          aReg := s.cfg.wordSize.trunc (s.iPtr + 1), bReg := s.wPtr ||| s.procPriority.toWord
          cReg := linkInWord s.cfg.wordSize k
          iPtr := s.cfg.memStart, wPtr := firstFreeWord s.cfg n.toNat, procPriority := .low
          statusReg := s.statusReg &&& preservedBits s.cfg, oreg := 0
          timerAlarmHigh := false, timerAlarmLow := false, timesliceCount := 0
          control := .run, written := [], buffers := t.buffers, mem := t.mem, links := t.links, draws := t.draws }

/-- R130: a whole poke on the one Link that holds bytes, from the poll, also after other peeks and pokes (R132), and from
`start` itself. In the `2*BPW + 3` steps of the machine by itself (log 13, log 42) it writes its data word at its address,
sends nothing back, changes no other byte, and the poll goes on. The byte order is log 4's; that it does so whatever MemMap
says of the word at MemStart, the buffer of R85, is log 43's. The registers of that Link's input channel are free values once
the Link phase ends (R53, log 15), so nothing is said of them. -/
def Obligations.PokeWritesAWord : Prop :=
  (∀ (u : State) (b : Boot) (k : Link) (a v x : Word), u.Polls b →
    u.Hears k (0 :: bytesOf u.cfg.wordSize.bytes a ++ bytesOf u.cfg.wordSize.bytes v) → u.mem.wf = true →
    alignedAddress u.cfg a = .ok x →
    let span := addressSpan u.cfg.wordSize u.cfg.wordSize.bytes x
    (∀ c ∈ span, memKind u.cfg c = some .ram) →
    ∃ t : State, Host.Core.run Sys2Proof.core (2 * u.cfg.wordSize.bytes + 3) u = .next t
      ∧ t.Polls { b with usedIn := b.usedIn.set k true }
      ∧ t.mem.readWord u.cfg.wordSize x = u.cfg.wordSize.trunc v
      ∧ (∀ addr, (∀ c ∈ span, c.toNat ≠ addr) → t.mem.read addr = u.mem.read addr)
      ∧ (∀ j, (t.link j).fromHost = [] ∧ (t.link j).toHost = (u.link j).toHost
          ∧ (t.link j).accepting = (u.link j).accepting)
      ∧ (∀ ch, (t.channel ch).active = (u.channel ch).active) ∧ (∀ ch, ch ≠ ⟨k, .inp⟩ → t.channel ch = u.channel ch)
      ∧ t = { u with control := t.control, mem := t.mem, links := t.links, draws := t.draws })
  ∧ ∀ (s : State) (k : Link) (a v x : Word), s.mem.wf = true → s.anyActive = false → s.pins.bootFromRom = false →
    s.Hears k (0 :: bytesOf s.cfg.wordSize.bytes a ++ bytesOf s.cfg.wordSize.bytes v) → alignedAddress s.cfg a = .ok x →
    let span := addressSpan s.cfg.wordSize s.cfg.wordSize.bytes x
    (∀ c ∈ span, memKind s.cfg c = some .ram) →
    ∃ (t0 t : State) (b : Boot), exec .start s = .next t0
      ∧ Host.Core.run Sys2Proof.core (2 * s.cfg.wordSize.bytes + 3) t0 = .next t ∧ t.Polls b
      ∧ t.mem.readWord s.cfg.wordSize x = s.cfg.wordSize.trunc v
      ∧ (∀ addr, (∀ c ∈ span, c.toNat ≠ addr) → t.mem.read addr = s.mem.read addr)
      ∧ (∀ j, (t.link j).fromHost = [] ∧ (t.link j).toHost = (s.link j).toHost
          ∧ (t.link j).accepting = (s.link j).accepting)
      ∧ t.anyActive = false ∧ (∀ ch, ch ≠ ⟨k, .inp⟩ → t.channel ch = s.channel ch)
      ∧ t = { s with
          iPtr := s.cfg.wordSize.trunc (s.iPtr + 1), timerAlarmHigh := false, timerAlarmLow := false
          timesliceCount := 0, control := t.control, mem := t.mem, links := t.links, draws := t.draws }

/-- R131: a whole peek on the one Link that holds bytes, with the host accepting output, from the poll, also after other
peeks and pokes (R132), and from `start` itself. In the `2*BPW + 3` steps of the machine by itself (log 13, log 42) it sends
the word at its address, least significant byte first, on the same Link, changes no memory, and the poll goes on. That each
byte is acknowledged as it is sent is log 29's, the byte order is log 4's; that it does so whatever MemMap says of the word at
MemStart, the buffer of R85, is log 43's. The channel registers of that Link are free values once the Link phase ends (R53,
log 15), so nothing is said of them. -/
def Obligations.PeekSendsAWord : Prop :=
  (∀ (u : State) (b : Boot) (k : Link) (a x : Word), u.Polls b → u.Hears k (1 :: bytesOf u.cfg.wordSize.bytes a) →
    (u.channel ⟨k, .out⟩).pushed = false → (u.link k).accepting = true → alignedAddress u.cfg a = .ok x →
    let span := addressSpan u.cfg.wordSize u.cfg.wordSize.bytes x
    (∀ c ∈ span, memKind u.cfg c ≠ none) →
    ∃ t : State, Host.Core.run Sys2Proof.core (2 * u.cfg.wordSize.bytes + 3) u = .next t
      ∧ t.Polls { b with usedIn := b.usedIn.set k true, usedOut := b.usedOut.set k true }
      ∧ (t.link k).toHost = (u.link k).toHost ++ span.map (fun y => u.mem.read y.toNat)
      ∧ (∀ j, (t.link j).fromHost = [] ∧ (t.link j).accepting = (u.link j).accepting)
      ∧ (∀ j, j ≠ k → (t.link j).toHost = (u.link j).toHost)
      ∧ (∀ ch, (t.channel ch).active = (u.channel ch).active) ∧ (∀ ch, ch.link ≠ k → t.channel ch = u.channel ch)
      ∧ t = { u with control := t.control, links := t.links, draws := t.draws })
  ∧ ∀ (s : State) (k : Link) (a x : Word), s.anyActive = false → s.pins.bootFromRom = false →
    s.Hears k (1 :: bytesOf s.cfg.wordSize.bytes a) → (s.channel ⟨k, .out⟩).pushed = false →
    (s.link k).accepting = true → alignedAddress s.cfg a = .ok x →
    let span := addressSpan s.cfg.wordSize s.cfg.wordSize.bytes x
    (∀ c ∈ span, memKind s.cfg c ≠ none) →
    ∃ (t0 t : State) (b : Boot), exec .start s = .next t0
      ∧ Host.Core.run Sys2Proof.core (2 * s.cfg.wordSize.bytes + 3) t0 = .next t ∧ t.Polls b
      ∧ (t.link k).toHost = (s.link k).toHost ++ span.map (fun y => s.mem.read y.toNat)
      ∧ (∀ j, (t.link j).fromHost = [] ∧ (t.link j).accepting = (s.link j).accepting)
      ∧ (∀ j, j ≠ k → (t.link j).toHost = (s.link j).toHost)
      ∧ t.anyActive = false ∧ (∀ ch, ch.link ≠ k → t.channel ch = s.channel ch)
      ∧ t = { s with
          iPtr := s.cfg.wordSize.trunc (s.iPtr + 1), timerAlarmHigh := false, timerAlarmLow := false
          timesliceCount := 0, control := t.control, links := t.links, draws := t.draws }

/-- R131: while the host does not accept output, a peek waits with the rest of its word unsent (log 29). R241's conditions
let a step be taken. -/
def Obligations.PeekWaitsForTheHostToAccept : Prop :=
  ∀ (s : State) (b : Boot) (k : Link), s.oneProcess = true → s.control = .boot b → b.phase = .output k →
    (s.channel ⟨k, .out⟩).transfer ≠ .idle → (s.channel ⟨k, .out⟩).pushed = false →
    s.turns = [] → (s.link k).accepting = false → step s = .next s

/-- R128: the poll answers a Link that holds a byte, changes nothing but the count of free values, and finds none exactly
when no Link holds a byte. -/
def Obligations.PollFindsALinkWithAByte : Prop :=
  ∀ s : State,
    (∀ k t, s.pollLinkInputs = some (k, t) → (s.link k).fromHost ≠ [] ∧ t = { s with draws := t.draws })
    ∧ (s.pollLinkInputs = none ↔ ∀ k, (s.link k).fromHost = [])

/-- R135: First Free Word is MemStart plus BootLength rounded up to a multiple of BPW, modulo 2^W. -/
def Obligations.FirstFreeWordRoundsUp : Prop :=
  ∀ (c : Cfg) (n : Nat), n ≤ 255 → ∃ m, m % c.wordSize.bytes = 0 ∧ n ≤ m ∧ m < n + c.wordSize.bytes
    ∧ (firstFreeWord c n).toNat = (c.memStart.toNat + m) % 2 ^ c.wordSize.bits

/-! ### Reset, Analyse, and the Links as devices -/

/-- R270 and R51: the forced `start` at the end of a power-on Reset gives the reset state. The power-on values are the
model's (log 7). -/
def Obligations.ResetStateIsTheForcedStart : Prop :=
  step { State.powerOn with turns := [.host .resetLow] } = .next State.reset

/-- R270 to R274 and R51, both columns: Reset high sets both instruction buffers Full (R272) and makes every channel idle;
Reset low, with Analyse low, forces `start`, in the middle of a program or of the Link phase of an earlier `start`. With
BootFromRom high, AReg and BReg hold the IPtr and Wdesc before Reset and the machine is at `ResetCodePtr`; with it low, the
Link phase has begun, at the poll and with CountReg of each input channel saved (R138), and the CPU registers keep their
values for its end. CReg and every channel register are unchanged. That nothing changes before Reset takes hold and while it
is held is D24's (log 17), Wdesc is R25's (log 32), that the Link phase begins with no Link used and waits as a state is log
13's. DReg, EReg and memory are free values (R51, D25; log 18, 41), so nothing is said of them. The premise on the state is
R241's. -/
def Obligations.ResetForcesStart : Prop :=
  ∀ s : State, s.turns = [.host .resetHigh, .host .resetLow] → (s.control = .run ∨ ∃ b, s.control = .boot b) →
    s.oneProcess = true → s.pins.reset = false → s.pins.analyse = false →
    let kept := fun t : State => t.cfg = s.cfg ∧ t.cReg = s.cReg
      ∧ t.buffers.full0 = true ∧ t.buffers.full1 = true
      ∧ ∀ ch, (t.channel ch).count = (s.channel ch).count ∧ (t.channel ch).ptr = (s.channel ch).ptr
          ∧ (t.channel ch).dbuff = (s.channel ch).dbuff ∧ (t.channel ch).active = false
    let same := fun t : State => t.aReg = s.aReg ∧ t.bReg = s.bReg ∧ t.wPtr = s.wPtr
      ∧ t.procPriority = s.procPriority ∧ t.iPtr = s.iPtr ∧ t.oreg = s.oreg ∧ t.statusReg = s.statusReg
    (∃ h : State, Host.Core.run Sys2Proof.core 1 s = .next h ∧ h.control = .resetHeld false ∧ kept h ∧ same h)
    ∧ ∃ t : State, Host.Core.run Sys2Proof.core 2 s = .next t ∧ kept t ∧ t.pins = s.pins
      ∧ t.timerAlarmHigh = false ∧ t.timerAlarmLow = false ∧ t.timesliceCount = 0
      ∧ (s.pins.bootFromRom = true → t.control = .run
          ∧ t.aReg = s.iPtr ∧ t.bReg = s.wPtr ||| s.procPriority.toWord
          ∧ t.iPtr = s.cfg.resetCodePtr ∧ t.wPtr = s.cfg.memStart ∧ t.procPriority = .low
          ∧ t.statusReg = s.statusReg &&& preservedBits s.cfg ∧ t.oreg = 0)
      ∧ (s.pins.bootFromRom = false → same t ∧ ∃ b, t.Polls b
          ∧ ∀ k, b.saved.get k = (s.channel ⟨k, .inp⟩).count ∧ b.usedIn.get k = false ∧ b.usedOut.get k = false)

/-- R273 and R274: the pin sequence of an Analyse, begun in the middle of a program or of the Link phase of an earlier
`start`, forces `start` once, at the end, and keeps memory and every channel register (R164), whichever way BootFromRom
decides (R51, both columns). The instruction buffers are Full from Reset on (R272). That memory is kept is D25's (log 18),
that nothing runs on once Analyse is high is the model's choice (R271, log 17), Wdesc is log 32's, and that the Link phase
begins with no Link used is log 13's. The premise on the state is R241's. -/
def Obligations.AnalyseKeepsMemory : Prop :=
  ∀ s : State, s.turns = [.host .analyseHigh, .host .resetHigh, .host .resetLow, .host .analyseLow] →
    (s.control = .run ∨ ∃ b, s.control = .boot b) → s.oneProcess = true → s.pins.reset = false →
    s.pins.analyse = false →
    let kept := fun t : State => t.mem = s.mem ∧ t.cfg = s.cfg ∧ t.cReg = s.cReg
      ∧ t.buffers.full0 = true ∧ t.buffers.full1 = true
      ∧ ∀ ch, (t.channel ch).count = (s.channel ch).count ∧ (t.channel ch).ptr = (s.channel ch).ptr
          ∧ (t.channel ch).dbuff = (s.channel ch).dbuff ∧ (t.channel ch).active = false
    let same := fun t : State => t.aReg = s.aReg ∧ t.bReg = s.bReg ∧ t.wPtr = s.wPtr
      ∧ t.procPriority = s.procPriority ∧ t.iPtr = s.iPtr ∧ t.oreg = s.oreg ∧ t.statusReg = s.statusReg
    (∃ h : State, Host.Core.run Sys2Proof.core 3 s = .next h ∧ h.control = .analyseHeld ∧ kept h ∧ same h)
    ∧ ∃ t : State, Host.Core.run Sys2Proof.core 4 s = .next t ∧ kept t ∧ t.pins = s.pins
      ∧ t.timerAlarmHigh = false ∧ t.timerAlarmLow = false ∧ t.timesliceCount = 0
      ∧ (s.pins.bootFromRom = true → t.control = .run
          ∧ t.aReg = s.iPtr ∧ t.bReg = s.wPtr ||| s.procPriority.toWord
          ∧ t.iPtr = s.cfg.resetCodePtr ∧ t.wPtr = s.cfg.memStart ∧ t.procPriority = .low
          ∧ t.statusReg = s.statusReg &&& preservedBits s.cfg ∧ t.oreg = 0)
      ∧ (s.pins.bootFromRom = false → same t ∧ ∃ b, t.Polls b
          ∧ ∀ k, b.saved.get k = (s.channel ⟨k, .inp⟩).count ∧ b.usedIn.get k = false ∧ b.usedOut.get k = false)

/-- R271 with D24 (log 17): while the pins hold the processor the machine by itself changes nothing, under R241's conditions.
That this is so also from Analyse high to Reset high is the model's choice (log 17): R273 says that it is not in the
source. -/
def Obligations.HeldProcessorChangesNothing : Prop :=
  ∀ s : State, s.oneProcess = true → s.turns = [] →
    ((∃ a, s.control = .resetHeld a) ∨ s.control = .analyseHeld ∨ ∃ m, s.control = .analysing m) → step s = .next s

/-- R42, R48 and R242: the first bit of a byte makes its input channel active while the byte is shifted in; the byte, once
complete, waits, and with no message in progress makes CountReg 1. No CPU register, no memory, no other channel and nothing
else of a Link changes. That PtrReg and DBuffReg keep their values is an inference (log 20). That a byte which arrives during
a message leaves CountReg as it was, because the channel counts it when it takes it, is log 42's; that a byte after Analyse
high waits or is unsolicited as any other is log 17's. The premise on the state is R241's. -/
def Obligations.UnsolicitedByteSetsCountReg : Prop :=
  ∀ (s : State) (k : Link) (v : Byte) (rest : List Turn), s.oneProcess = true → s.pins.reset = false →
    (s.channel ⟨k, .inp⟩).pushed = false →
    (s.turns = .host (.linkShift k) :: rest →
      ∃ t, step s = .next t ∧ t = { s with turns := rest, links := t.links }
        ∧ t.channel ⟨k, .inp⟩ = { s.channel ⟨k, .inp⟩ with shifting := true } ∧ (t.channel ⟨k, .inp⟩).active = true
        ∧ (∀ ch, ch ≠ ⟨k, .inp⟩ → t.channel ch = s.channel ch)
        ∧ ∀ j, (t.link j).fromHost = (s.link j).fromHost ∧ (t.link j).toHost = (s.link j).toHost
            ∧ (t.link j).accepting = (s.link j).accepting)
    ∧ (s.turns = .host (.linkByte k v) :: rest →
      ∃ t, step s = .next t ∧ t = { s with turns := rest, links := t.links }
        ∧ t.channel ⟨k, .inp⟩ = { s.channel ⟨k, .inp⟩ with
            shifting := false
            count := if (s.channel ⟨k, .inp⟩).transfer = .idle then 1 else (s.channel ⟨k, .inp⟩).count }
        ∧ (t.link k).fromHost = (s.link k).fromHost ++ [v]
        ∧ (∀ ch, ch ≠ ⟨k, .inp⟩ → t.channel ch = s.channel ch)
        ∧ (∀ j, j ≠ k → (t.link j).fromHost = (s.link j).fromHost)
        ∧ ∀ j, (t.link j).toHost = (s.link j).toHost ∧ (t.link j).accepting = (s.link j).accepting)

/-- The step of an input channel with a message in progress (R42 to R45, R70 to R72; the byte lanes and the count of bytes in
DBuffReg are log 42's): it takes the oldest byte that waits into DBuffReg and counts it; where that completes the word or
the message, a message to memory writes those bytes at PtrReg and no others, PtrReg goes to the next word, and CountReg zero
ends the message; a byte that waits behind it is then unsolicited and makes CountReg 1 (log 20). The step of an output channel
sends the next byte of DBuffReg to a host that accepts, and counts it (log 29); a message from memory reads a whole word
first. A channel's control logic is otherwise as it was. What it says for a PtrReg that is no word address, a byte address
taken as it stands across word boundaries, is log 44's choice. The premise on the state is R241's. -/
def Obligations.ChannelMovesAByteOfItsMessage : Prop :=
  ∀ (s : State) (k : Link) (v : Byte) (bytes : List Byte) (rest : List Turn), s.mem.wf = true →
    s.control.released = true → s.oneProcess = true →
    let ws := s.cfg.wordSize
    (s.turns = .channel ⟨k, .inp⟩ :: rest → (s.link k).fromHost = v :: bytes →
      let c := s.channel ⟨k, .inp⟩
      let d := ws.trunc (withLane c.dbuff c.fill v)
      let last := ws.trunc (c.count + 1) = 0
      let full := last ∨ ws.bytes ≤ c.fill + 1
      c.transfer ≠ .idle → c.pushed = false →
      (full → c.transfer = .memory → ∀ a ∈ addressSpan ws (c.fill + 1) c.ptr, memKind s.cfg a = some .ram) →
      ∃ t, step s = .next t ∧ t = { s with turns := rest, links := t.links, mem := t.mem }
        ∧ (t.channel ⟨k, .inp⟩).dbuff = d
        ∧ ((last → bytes = []) → (t.channel ⟨k, .inp⟩).count = ws.trunc (c.count + 1))
        ∧ (last → bytes ≠ [] → (t.channel ⟨k, .inp⟩).count = 1)
        ∧ (last → (t.channel ⟨k, .inp⟩).transfer = .idle) ∧ (¬ last → (t.channel ⟨k, .inp⟩).transfer = c.transfer)
        ∧ (full → (t.channel ⟨k, .inp⟩).ptr = index ws c.ptr 1 ∧ (t.channel ⟨k, .inp⟩).fill = 0)
        ∧ (¬ full → (t.channel ⟨k, .inp⟩).ptr = c.ptr ∧ (t.channel ⟨k, .inp⟩).fill = c.fill + 1)
        ∧ (t.channel ⟨k, .inp⟩).shifting = c.shifting ∧ (t.channel ⟨k, .inp⟩).pushed = c.pushed
        ∧ (full → c.transfer = .memory → c.fill + 1 ≤ ws.bytes →
            (addressSpan ws (c.fill + 1) c.ptr).map (fun a => t.mem.read a.toNat) = bytesOf (c.fill + 1) d)
        ∧ (full → c.transfer = .memory → ∀ addr, (∀ a ∈ addressSpan ws (c.fill + 1) c.ptr, a.toNat ≠ addr) →
            t.mem.read addr = s.mem.read addr)
        ∧ ((full → c.transfer ≠ .memory) → t.mem = s.mem)
        ∧ (t.link k).fromHost = bytes ∧ (∀ j, j ≠ k → (t.link j).fromHost = (s.link j).fromHost)
        ∧ (∀ ch, ch ≠ ⟨k, .inp⟩ → t.channel ch = s.channel ch)
        ∧ ∀ j, (t.link j).toHost = (s.link j).toHost ∧ (t.link j).accepting = (s.link j).accepting)
    ∧ (s.turns = .channel ⟨k, .out⟩ :: rest → (s.link k).accepting = true →
      let c := s.channel ⟨k, .out⟩
      let reads := c.transfer = .memory ∧ c.fill = 0
      let d := if reads then s.mem.readWord ws c.ptr else c.dbuff
      let last := ws.trunc (c.count + 1) = 0
      c.transfer ≠ .idle → c.pushed = false →
      (reads → ∀ a ∈ addressSpan ws ws.bytes c.ptr, memKind s.cfg a ≠ none) →
      ∃ t, step s = .next t ∧ t = { s with turns := rest, links := t.links }
        ∧ (t.link k).toHost = (s.link k).toHost ++ [laneOf d c.fill]
        ∧ (t.channel ⟨k, .out⟩).dbuff = d ∧ (t.channel ⟨k, .out⟩).count = ws.trunc (c.count + 1)
        ∧ (t.channel ⟨k, .out⟩).ptr = (if reads then index ws c.ptr 1 else c.ptr)
        ∧ (t.channel ⟨k, .out⟩).fill = (if last ∨ ws.bytes ≤ c.fill + 1 then 0 else c.fill + 1)
        ∧ (t.channel ⟨k, .out⟩).shifting = c.shifting ∧ (t.channel ⟨k, .out⟩).pushed = c.pushed
        ∧ (last → (t.channel ⟨k, .out⟩).transfer = .idle) ∧ (¬ last → (t.channel ⟨k, .out⟩).transfer = c.transfer)
        ∧ (∀ j, j ≠ k → (t.link j).toHost = (s.link j).toHost)
        ∧ (∀ ch, ch ≠ ⟨k, .out⟩ → t.channel ch = s.channel ch)
        ∧ ∀ j, (t.link j).fromHost = (s.link j).fromHost ∧ (t.link j).accepting = (s.link j).accepting)

/-- R165 (D13, log 21): `testhardchan` notes its channel exactly where it leaves CountReg non-zero, and on a channel so noted
a byte that arrives, its first bit, `start`'s use of it for a first byte or for a peek's word, and a step of a message are
refused. The premise on the state is R241's. -/
def Obligations.TransferAfterPushIsRefused : Prop :=
  (∀ (s t : State) (ch : ChannelId), s.aReg = linkWord s.cfg.wordSize ch → exec .testhardchan s = .next t →
      ((t.channel ch).pushed = true ↔ s.bReg ≠ 0))
  ∧ ∀ (s : State) (k : Link) (v : Byte) (rest : List Turn), s.oneProcess = true →
      ((s.channel ⟨k, .inp⟩).pushed = true → s.pins.reset = false →
        s.turns = .host (.linkByte k v) :: rest ∨ s.turns = .host (.linkShift k) :: rest →
        step s = .refused (.transferAfterPush k))
      ∧ (∀ ch, ch.link = k → (s.channel ch).pushed = true → (s.channel ch).transfer ≠ .idle →
          s.control.released = true → s.turns = .channel ch :: rest → step s = .refused (.transferAfterPush k))
      ∧ (∀ b, s.control = .boot b → b.phase = .poll → s.turns = [] → (s.channel ⟨k, .inp⟩).pushed = true →
          (s.link k).fromHost ≠ [] → (∀ j, j ≠ k → (s.link j).fromHost = []) →
          step s = .refused (.transferAfterPush k))
      ∧ ∀ b w, s.control = .boot b → b.phase = .address k .peek → s.turns = [] →
          (s.channel ⟨k, .inp⟩).transfer = .idle → (s.channel ⟨k, .out⟩).pushed = true →
          s.loadWord (s.channel ⟨k, .inp⟩).dbuff = .ok w → step s = .refused (.transferAfterPush k)

/-! ### Memory -/

/-- R64: byte `i` of a word, counted from the least significant, is the byte at its address plus `i`, and a word has no
other bits (the byte order is D2's, log 4); a word written is read back, modulo 2^W. -/
def Obligations.WordsAreLittleEndian : Prop :=
  ∀ (ws : WordSize) (m : Memory) (a v : Word),
    inWord ws (m.readWord ws a) = true
    ∧ (∀ i < ws.bytes, (m.readWord ws a).extractLsb' (8 * i) 8 = m.read (ws.trunc (a + BitVec.ofNat 32 i)).toNat)
    ∧ (m.wf = true → (m.writeWord ws a v).readWord ws a = ws.trunc v)

/-! ### Whole-machine rules -/

/-- The reset state meets the invariant. -/
def Obligations.ResetStateMeetsTheInvariant : Prop := State.reset.Inv ∧ State.reset.Quiet

/-- From every state that meets it, every step, of the CPU, of a channel or of the host, keeps the invariant: registers, the
two instruction buffers' words among them (R38), are words of W bits, and memory stays in canonical form within the address space (R7, R61, R62). -/
def Obligations.StepKeepsTheInvariant : Prop :=
  ∀ s t : State, s.Inv → step s = .next t → t.Inv

/-- R74: no step, of the CPU or of a Link, changes a byte that stands in ROM, nor the configuration; nor does a step of the
pins, which R274 and D25 do not say of ROM after a plain Reset: that is the model's choice (log 18). -/
def Obligations.StepKeepsRom : Prop :=
  ∀ s t : State, s.mem.wf = true → step s = .next t →
    t.cfg = s.cfg ∧ ∀ a : Word, memKind s.cfg a = some .rom → inWord s.cfg.wordSize a = true →
      t.mem.read a.toNat = s.mem.read a.toNat

/-- R241: the conditions under which the processor is never interrupted are kept by every step, of the CPU, of a channel or of
the host; so a run from such a state never meets the refusal of a state outside them (log 22). -/
def Obligations.StepKeepsTheConditionsOfOneProcess : Prop :=
  ∀ s t : State, s.Quiet → step s = .next t → t.Quiet

/-- R94 to R97: the low digit of Oreg is clear after every step from a state where it is. -/
def Obligations.StepKeepsTheLowDigitOfOregClear : Prop :=
  ∀ s t : State, s.oreg &&& 0xF = 0 → step s = .next t → t.oreg &&& 0xF = 0

/-- R97: when an instruction that is no prefix has completed, Oreg is 0. `start` has completed when the processor runs
again: at once, or at the step that ends its Link phase. -/
def Obligations.CompletedInstructionClearsOreg : Prop :=
  (∀ (i : Instr) (s t : State), (∀ d, i ≠ .pfix d) → (∀ d, i ≠ .nfix d) → s.control = .run →
    exec i s = .next t → t.control = .run → t.oreg = 0)
  ∧ ∀ (s t : State) (b : Boot), s.control = .boot b → step s = .next t → t.control = .run → t.oreg = 0

/-- R95 and R27: an instruction that is neither `j` nor `start` leaves IPtr at the byte after its own. -/
def Obligations.InstructionAdvancesIPtrByOne : Prop :=
  ∀ (i : Instr) (s t : State), (∀ d, i ≠ .j d) → i ≠ .start →
    (∀ d, i = .opr d → (s.operand d).toNat ≠ 0x1FF) →
    exec i s = .next t → t.iPtr.toNat = (s.iPtr.toNat + 1) % 2 ^ s.cfg.wordSize.bits

/-- R33 and R231: no instruction but `teststs` changes ErrorFlag or HaltOnErrorFlag; `start` keeps both, and so does every
step of its Link phase. -/
def Obligations.OnlyTeststsChangesTheErrorFlag : Prop :=
  (∀ (i : Instr) (s t : State), i ≠ .teststs → (∀ d, i = .opr d → (s.operand d).toNat ≠ 0x26) →
    exec i s = .next t →
    t.statusReg &&& s.cfg.errorFlag = s.statusReg &&& s.cfg.errorFlag
    ∧ t.statusReg &&& s.cfg.haltOnErrorFlag = s.statusReg &&& s.cfg.haltOnErrorFlag)
  ∧ ∀ (s t : State) (b : Boot), s.control = .boot b → step s = .next t →
    t.statusReg &&& s.cfg.errorFlag = s.statusReg &&& s.cfg.errorFlag
    ∧ t.statusReg &&& s.cfg.haltOnErrorFlag = s.statusReg &&& s.cfg.haltOnErrorFlag

/-- R34: DReg is written by `teststd` only, EReg by `testste` only, StatusReg by `teststs` and `start` only; the Link phase
of `start` leaves DReg and EReg as they are. -/
def Obligations.WhoWritesTheHiddenRegisters : Prop :=
  (∀ (i : Instr) (s t : State), exec i s = .next t →
    (i ≠ .teststd → (∀ d, i = .opr d → (s.operand d).toNat ≠ 0x28) → t.dReg = s.dReg)
    ∧ (i ≠ .testste → (∀ d, i = .opr d → (s.operand d).toNat ≠ 0x27) → t.eReg = s.eReg)
    ∧ (i ≠ .teststs → i ≠ .start → (∀ d, i = .opr d → (s.operand d).toNat ≠ 0x26 ∧ (s.operand d).toNat ≠ 0x1FF) →
        t.statusReg = s.statusReg))
  ∧ ∀ (s t : State) (b : Boot), s.control = .boot b → ownStep s = .next t → t.dReg = s.dReg ∧ t.eReg = s.eReg

/-- R22 to R24, R36, R37: WPtr, ProcPriority, the timer alarms and the timeslice logic are written by `start` only, and no
instruction switches an alarm on. -/
def Obligations.OnlyStartWritesTheProcessState : Prop :=
  ∀ (i : Instr) (s t : State), exec i s = .next t →
    (i ≠ .start → (∀ d, i = .opr d → (s.operand d).toNat ≠ 0x1FF) →
      t.wPtr = s.wPtr ∧ t.procPriority = s.procPriority ∧ t.timesliceCount = s.timesliceCount
        ∧ t.timerAlarmHigh = s.timerAlarmHigh ∧ t.timerAlarmLow = s.timerAlarmLow)
    ∧ (t.timerAlarmHigh = true → s.timerAlarmHigh = true) ∧ (t.timerAlarmLow = true → s.timerAlarmLow = true)

/-- Memory is written by `stl` and `start` only, and the Links and channels by `testhardchan` and `start` only (R70, R160,
R209). -/
def Obligations.WhoWritesMemoryAndChannels : Prop :=
  ∀ (i : Instr) (s t : State), i ≠ .start → (∀ d, i = .opr d → (s.operand d).toNat ≠ 0x1FF) → exec i s = .next t →
    ((∀ d, i ≠ .stl d) → t.mem = s.mem)
    ∧ (i ≠ .testhardchan → (∀ d, i = .opr d → (s.operand d).toNat ≠ 0x2D) → t.links = s.links)
end

