-- ==== Sys2Proof/Laws/Memory.lean ====
section
/-! SUPPORT. Memory: reads after writes, and the canonical form kept by every operation. -/

namespace Sys2Proof.Machine

theorem Memory.wfFrom_mono {m : Memory} {low low' : Nat} (h : low' ≤ low) (hm : m.wfFrom low = true) :
    m.wfFrom low' = true := by
  cases m with
  | nil => rfl
  | cons c rest =>
    simp only [Memory.wfFrom, Bool.and_eq_true, decide_eq_true_eq] at hm ⊢
    exact ⟨⟨by omega, hm.1.2⟩, hm.2⟩

theorem Memory.read_of_lt {m : Memory} {low addr : Nat} (hm : m.wfFrom low = true) (h : addr < low) :
    m.read addr = Memory.unlisted := by
  induction m generalizing low with
  | nil => rfl
  | cons c rest ih =>
    simp only [Memory.wfFrom, Bool.and_eq_true, decide_eq_true_eq] at hm
    simp only [Memory.read]
    rw [if_neg (by omega)]
    exact ih hm.2 (by omega)

theorem Memory.read_cons (addr : Nat) (v : Byte) {m : Memory} (hm : m.wfFrom (addr + 1) = true) (b : Nat) :
    (Memory.cons addr v m).read b = if b = addr then v else m.read b := by
  unfold Memory.cons
  by_cases hv : v = Memory.unlisted
  · rw [if_pos hv]
    by_cases hb : b = addr
    · rw [if_pos hb, hb, hv, Memory.read_of_lt hm (by omega)]
    · rw [if_neg hb]
  · rw [if_neg hv]
    simp only [Memory.read, eq_comm]

theorem Memory.wfFrom_cons {addr low : Nat} (v : Byte) {m : Memory} (h : low ≤ addr)
    (hm : m.wfFrom (addr + 1) = true) : (Memory.cons addr v m).wfFrom low = true := by
  unfold Memory.cons
  by_cases hv : v = Memory.unlisted
  · rw [if_pos hv]
    exact Memory.wfFrom_mono (by omega) hm
  · rw [if_neg hv]
    simp [Memory.wfFrom, h, hv, hm]

theorem Memory.wfFrom_write {m : Memory} {low addr : Nat} (v : Byte) (h : low ≤ addr) (hm : m.wfFrom low = true) :
    (m.write addr v).wfFrom low = true := by
  induction m generalizing low with
  | nil => exact Memory.wfFrom_cons v h rfl
  | cons c rest ih =>
    obtain ⟨a, x⟩ := c
    simp only [Memory.wfFrom, Bool.and_eq_true, decide_eq_true_eq] at hm
    simp only [Memory.write]
    split
    · refine Memory.wfFrom_cons v h ?_
      simp only [Memory.wfFrom, Bool.and_eq_true, decide_eq_true_eq]
      exact ⟨⟨by omega, hm.1.2⟩, hm.2⟩
    · split
      · next heq => exact Memory.wfFrom_cons v h (heq ▸ hm.2)
      · simp only [Memory.wfFrom, Bool.and_eq_true, decide_eq_true_eq]
        exact ⟨hm.1, ih (by omega) hm.2⟩

/-- Writing a byte keeps the canonical form. -/
theorem Memory.wf_write {m : Memory} (addr : Nat) (v : Byte) (hm : m.wf = true) : (m.write addr v).wf = true :=
  Memory.wfFrom_write v (Nat.zero_le _) hm

theorem Memory.read_write_from {m : Memory} {low : Nat} (addr : Nat) (v : Byte) (hm : m.wfFrom low = true) (b : Nat) :
    (m.write addr v).read b = if b = addr then v else m.read b := by
  induction m generalizing low with
  | nil => exact Memory.read_cons addr v rfl b
  | cons c rest ih =>
    obtain ⟨a, x⟩ := c
    have hw := hm
    simp only [Memory.wfFrom, Bool.and_eq_true, decide_eq_true_eq] at hm
    simp only [Memory.write]
    split
    · refine Memory.read_cons addr v ?_ b
      simp only [Memory.wfFrom, Bool.and_eq_true, decide_eq_true_eq]
      exact ⟨⟨by omega, hm.1.2⟩, hm.2⟩
    · split
      · next heq =>
        rw [Memory.read_cons addr v (heq ▸ hm.2) b]
        simp only [Memory.read]
        by_cases hb : b = addr
        · rw [if_pos hb, if_pos hb]
        · rw [if_neg hb, if_neg hb, if_neg (by omega)]
      · simp only [Memory.read]
        by_cases ha : a = b
        · rw [if_pos ha, if_neg (by omega), if_pos ha]
        · rw [if_neg ha, if_neg ha, ih hm.2]

/-- A read after a write: the byte written at that address, the old byte elsewhere. -/
theorem Memory.read_write {m : Memory} (addr : Nat) (v : Byte) (hm : m.wf = true) (b : Nat) :
    (m.write addr v).read b = if b = addr then v else m.read b :=
  Memory.read_write_from addr v hm b

theorem Memory.below_cons {limit addr : Nat} (v : Byte) {m : Memory} (h : addr < limit)
    (hm : m.below limit = true) : (Memory.cons addr v m).below limit = true := by
  unfold Memory.cons
  split
  · exact hm
  · simp [Memory.below, h, hm]

/-- Writing a byte below a limit keeps every listed address below it. -/
theorem Memory.below_write {m : Memory} {limit addr : Nat} (v : Byte) (h : addr < limit) (hm : m.below limit = true) :
    (m.write addr v).below limit = true := by
  induction m with
  | nil => exact Memory.below_cons v h rfl
  | cons c rest ih =>
    obtain ⟨a, x⟩ := c
    simp only [Memory.below, Bool.and_eq_true, decide_eq_true_eq] at hm
    simp only [Memory.write]
    split
    · exact Memory.below_cons v h (by simp [Memory.below, hm])
    · split
      · exact Memory.below_cons v h hm.2
      · simp [Memory.below, hm.1, ih hm.2]

/-- Writing bytes keeps the canonical form. -/
theorem Memory.wf_writeBytes {m : Memory} (as : List Word) (bs : List Byte) (hm : m.wf = true) :
    (m.writeBytes as bs).wf = true := by
  induction as generalizing m bs with
  | nil => cases bs <;> exact hm
  | cons a as ih =>
    cases bs with
    | nil => exact hm
    | cons b bs => exact ih bs (Memory.wf_write _ _ hm)

/-- Writing bytes below a limit keeps every listed address below it. -/
theorem Memory.below_writeBytes {m : Memory} {limit : Nat} (as : List Word) (bs : List Byte)
    (h : ∀ a ∈ as, a.toNat < limit) (hm : m.below limit = true) : (m.writeBytes as bs).below limit = true := by
  induction as generalizing m bs with
  | nil => cases bs <;> exact hm
  | cons a as ih =>
    cases bs with
    | nil => exact hm
    | cons b bs =>
      exact ih bs (fun x hx => h x (List.mem_cons_of_mem _ hx))
        (Memory.below_write _ (h a List.mem_cons_self) hm)

/-- A byte at an address that is not among those written is unchanged. -/
theorem Memory.read_writeBytes_other {m : Memory} (as : List Word) (bs : List Byte) (hm : m.wf = true) (x : Nat)
    (hx : ∀ a ∈ as, a.toNat ≠ x) : (m.writeBytes as bs).read x = m.read x := by
  induction as generalizing m bs with
  | nil => cases bs <;> rfl
  | cons a as ih =>
    cases bs with
    | nil => rfl
    | cons b bs =>
      simp only [Memory.writeBytes]
      rw [ih bs (Memory.wf_write _ _ hm) (fun y hy => hx y (List.mem_cons_of_mem _ hy)),
        Memory.read_write _ _ hm, if_neg (fun h => hx a List.mem_cons_self h.symm)]

/-- The bytes written at pairwise different addresses are read back. -/
theorem Memory.read_writeBytes {m : Memory} (as : List Word) (bs : List Byte) (hm : m.wf = true)
    (hlen : as.length = bs.length) (hd : as.Pairwise fun a b => a.toNat ≠ b.toNat) :
    (as.map fun a => (m.writeBytes as bs).read a.toNat) = bs := by
  induction as generalizing m bs with
  | nil =>
    cases bs with
    | nil => rfl
    | cons b bs => simp at hlen
  | cons a as ih =>
    cases bs with
    | nil => simp at hlen
    | cons b bs =>
      rw [List.pairwise_cons] at hd
      have hw := Memory.wf_write a.toNat b hm
      simp only [List.map_cons, Memory.writeBytes, List.cons.injEq]
      refine ⟨?_, ih bs hw (by simpa using hlen) hd.2⟩
      rw [Memory.read_writeBytes_other as bs hw _ (fun x hx h => hd.1 x hx h.symm),
        Memory.read_write _ _ hm, if_pos rfl]

/-- Cutting to W bits gives a number below 2^W. -/
theorem WordSize.toNat_trunc_lt (ws : WordSize) (v : Word) : (ws.trunc v).toNat < 2 ^ ws.bits := by
  cases ws with
  | w16 =>
    simp only [WordSize.trunc, WordSize.mask, WordSize.bits, BitVec.toNat_and]
    exact Nat.lt_of_le_of_lt Nat.and_le_right (by decide)
  | w32 => exact (WordSize.w32.trunc v).isLt

/-- Cutting to W bits is reduction modulo 2^W (R62). -/
theorem WordSize.toNat_trunc (ws : WordSize) (v : Word) : (ws.trunc v).toNat = v.toNat % 2 ^ ws.bits := by
  cases ws with
  | w16 =>
    simp only [WordSize.trunc, WordSize.mask, WordSize.bits, BitVec.toNat_and]
    exact Nat.and_two_pow_sub_one_eq_mod v.toNat 16
  | w32 =>
    simp only [WordSize.trunc, WordSize.mask, WordSize.bits, BitVec.toNat_and]
    exact Nat.and_two_pow_sub_one_eq_mod v.toNat 32

@[simp] theorem WordSize.trunc_trunc (ws : WordSize) (v : Word) : ws.trunc (ws.trunc v) = ws.trunc v := by
  simp only [WordSize.trunc, BitVec.and_assoc, BitVec.and_self]

/-- On a 32-bit part every word has W bits. -/
@[simp] theorem WordSize.trunc_w32 (v : Word) : WordSize.w32.trunc v = v :=
  BitVec.and_allOnes

@[simp] theorem inWord_trunc (ws : WordSize) (v : Word) : inWord ws (ws.trunc v) = true := by
  simp [inWord]

/-- Every address of a span is a word of W bits. -/
theorem addressSpan_lt (ws : WordSize) (n : Nat) (a : Word) : ∀ x ∈ addressSpan ws n a, x.toNat < 2 ^ ws.bits := by
  induction n generalizing a with
  | zero => simp [addressSpan]
  | succ n ih =>
    intro x hx
    simp only [addressSpan, List.mem_cons] at hx
    rcases hx with rfl | hx
    · exact WordSize.toNat_trunc_lt _ _
    · exact ih _ x hx

@[simp] theorem addressSpan_length (ws : WordSize) (n : Nat) (a : Word) : (addressSpan ws n a).length = n := by
  induction n generalizing a with
  | zero => rfl
  | succ n ih => simp [addressSpan, ih]

@[simp] theorem bytesOf_length (n : Nat) (v : Word) : (bytesOf n v).length = n := by
  induction n generalizing v with
  | zero => rfl
  | succ n ih => simp [bytesOf, ih]

/-- Writing a word keeps the canonical form. -/
theorem Memory.wf_writeWord {m : Memory} (ws : WordSize) (a v : Word) (hm : m.wf = true) :
    (m.writeWord ws a v).wf = true := Memory.wf_writeBytes _ _ hm

/-- Writing a word keeps every listed address a word of W bits. -/
theorem Memory.below_writeWord {m : Memory} (ws : WordSize) (a v : Word) (hm : m.below (2 ^ ws.bits) = true) :
    (m.writeWord ws a v).below (2 ^ ws.bits) = true :=
  Memory.below_writeBytes _ _ (addressSpan_lt ws _ a) hm

theorem Memory.wfFrom_filter {m : Memory} {low : Nat} (p : Host.Cell → Bool) (hm : m.wfFrom low = true) :
    Memory.wfFrom low (m.filter p) = true := by
  induction m generalizing low with
  | nil => rfl
  | cons c rest ih =>
    simp only [Memory.wfFrom, Bool.and_eq_true, decide_eq_true_eq] at hm
    simp only [List.filter_cons]
    split
    · simp only [Memory.wfFrom, Bool.and_eq_true, decide_eq_true_eq]
      exact ⟨hm.1, ih hm.2⟩
    · exact Memory.wfFrom_mono (by omega) (ih hm.2)

theorem Memory.below_filter {m : Memory} {limit : Nat} (p : Host.Cell → Bool) (hm : m.below limit = true) :
    Memory.below limit (m.filter p) = true := by
  induction m with
  | nil => rfl
  | cons c rest ih =>
    simp only [Memory.below, Bool.and_eq_true, decide_eq_true_eq] at hm
    simp only [List.filter_cons]
    split
    · simp only [Memory.below, Bool.and_eq_true, decide_eq_true_eq]
      exact ⟨hm.1, ih hm.2⟩
    · exact ih hm.2

theorem wf_overwriteRam (c : Cfg) {m : Memory} (cells : List Host.Cell) (hm : m.wf = true) :
    Memory.wf (overwriteRam c m cells) = true := by
  induction cells generalizing m with
  | nil => exact hm
  | cons x rest ih =>
    simp only [overwriteRam]
    split
    · exact ih (Memory.wf_write _ _ hm)
    · exact ih hm

theorem below_overwriteRam (c : Cfg) {m : Memory} (cells : List Host.Cell)
    (hm : m.below (2 ^ c.wordSize.bits) = true) :
    Memory.below (2 ^ c.wordSize.bits) (overwriteRam c m cells) = true := by
  induction cells generalizing m with
  | nil => exact hm
  | cons x rest ih =>
    simp only [overwriteRam]
    split
    · exact ih (Memory.below_write _ (WordSize.toNat_trunc_lt _ _) hm)
    · exact ih hm

/-- The redraw of a plain Reset keeps the canonical form. -/
theorem wf_redrawn (c : Cfg) {m : Memory} (n : Nat) (hm : m.wf = true) : (redrawn c m n).wf = true :=
  wf_overwriteRam c _ (Memory.wfFrom_filter _ hm)

/-- The redraw of a plain Reset keeps every listed address a word of W bits. -/
theorem below_redrawn (c : Cfg) {m : Memory} (n : Nat) (hm : m.below (2 ^ c.wordSize.bits) = true) :
    Memory.below (2 ^ c.wordSize.bits) (redrawn c m n) = true :=
  below_overwriteRam c _ (Memory.below_filter _ hm)

end Sys2Proof.Machine
end

