-- ==== Sys2Proof/Laws/State.lean ====
section
/-! SUPPORT. One lemma per field per update of State. -/

namespace Sys2Proof.Machine

@[simp] theorem State.push_cfg (s : State) (v : Word) : (s.push v).cfg = s.cfg := rfl
@[simp] theorem State.push_aReg (s : State) (v : Word) : (s.push v).aReg = v := rfl
@[simp] theorem State.push_bReg (s : State) (v : Word) : (s.push v).bReg = s.aReg := rfl
@[simp] theorem State.push_cReg (s : State) (v : Word) : (s.push v).cReg = s.bReg := rfl
@[simp] theorem State.push_wPtr (s : State) (v : Word) : (s.push v).wPtr = s.wPtr := rfl
@[simp] theorem State.push_procPriority (s : State) (v : Word) : (s.push v).procPriority = s.procPriority := rfl
@[simp] theorem State.push_iPtr (s : State) (v : Word) : (s.push v).iPtr = s.iPtr := rfl
@[simp] theorem State.push_oreg (s : State) (v : Word) : (s.push v).oreg = s.oreg := rfl
@[simp] theorem State.push_dReg (s : State) (v : Word) : (s.push v).dReg = s.dReg := rfl
@[simp] theorem State.push_eReg (s : State) (v : Word) : (s.push v).eReg = s.eReg := rfl
@[simp] theorem State.push_statusReg (s : State) (v : Word) : (s.push v).statusReg = s.statusReg := rfl
@[simp] theorem State.push_timerAlarmHigh (s : State) (v : Word) : (s.push v).timerAlarmHigh = s.timerAlarmHigh := rfl
@[simp] theorem State.push_timerAlarmLow (s : State) (v : Word) : (s.push v).timerAlarmLow = s.timerAlarmLow := rfl
@[simp] theorem State.push_timesliceCount (s : State) (v : Word) : (s.push v).timesliceCount = s.timesliceCount := rfl
@[simp] theorem State.push_buffers (s : State) (v : Word) : (s.push v).buffers = s.buffers := rfl
@[simp] theorem State.push_written (s : State) (v : Word) : (s.push v).written = s.written := rfl
@[simp] theorem State.push_links (s : State) (v : Word) : (s.push v).links = s.links := rfl
@[simp] theorem State.push_mem (s : State) (v : Word) : (s.push v).mem = s.mem := rfl
@[simp] theorem State.push_pins (s : State) (v : Word) : (s.push v).pins = s.pins := rfl
@[simp] theorem State.push_control (s : State) (v : Word) : (s.push v).control = s.control := rfl
@[simp] theorem State.push_turns (s : State) (v : Word) : (s.push v).turns = s.turns := rfl
@[simp] theorem State.push_draws (s : State) (v : Word) : (s.push v).draws = s.draws := rfl

@[simp] theorem State.pop_cfg (s : State) : (s.pop).cfg = s.cfg := rfl
@[simp] theorem State.pop_aReg (s : State) : (s.pop).aReg = s.bReg := rfl
@[simp] theorem State.pop_bReg (s : State) : (s.pop).bReg = s.cReg := rfl
@[simp] theorem State.pop_cReg (s : State) : (s.pop).cReg = s.cReg := rfl
@[simp] theorem State.pop_wPtr (s : State) : (s.pop).wPtr = s.wPtr := rfl
@[simp] theorem State.pop_procPriority (s : State) : (s.pop).procPriority = s.procPriority := rfl
@[simp] theorem State.pop_iPtr (s : State) : (s.pop).iPtr = s.iPtr := rfl
@[simp] theorem State.pop_oreg (s : State) : (s.pop).oreg = s.oreg := rfl
@[simp] theorem State.pop_dReg (s : State) : (s.pop).dReg = s.dReg := rfl
@[simp] theorem State.pop_eReg (s : State) : (s.pop).eReg = s.eReg := rfl
@[simp] theorem State.pop_statusReg (s : State) : (s.pop).statusReg = s.statusReg := rfl
@[simp] theorem State.pop_timerAlarmHigh (s : State) : (s.pop).timerAlarmHigh = s.timerAlarmHigh := rfl
@[simp] theorem State.pop_timerAlarmLow (s : State) : (s.pop).timerAlarmLow = s.timerAlarmLow := rfl
@[simp] theorem State.pop_timesliceCount (s : State) : (s.pop).timesliceCount = s.timesliceCount := rfl
@[simp] theorem State.pop_buffers (s : State) : (s.pop).buffers = s.buffers := rfl
@[simp] theorem State.pop_written (s : State) : (s.pop).written = s.written := rfl
@[simp] theorem State.pop_links (s : State) : (s.pop).links = s.links := rfl
@[simp] theorem State.pop_mem (s : State) : (s.pop).mem = s.mem := rfl
@[simp] theorem State.pop_pins (s : State) : (s.pop).pins = s.pins := rfl
@[simp] theorem State.pop_control (s : State) : (s.pop).control = s.control := rfl
@[simp] theorem State.pop_turns (s : State) : (s.pop).turns = s.turns := rfl
@[simp] theorem State.pop_draws (s : State) : (s.pop).draws = s.draws := rfl

@[simp] theorem State.finish_cfg (s : State) : (s.finish).cfg = s.cfg := rfl
@[simp] theorem State.finish_aReg (s : State) : (s.finish).aReg = s.aReg := rfl
@[simp] theorem State.finish_bReg (s : State) : (s.finish).bReg = s.bReg := rfl
@[simp] theorem State.finish_cReg (s : State) : (s.finish).cReg = s.cReg := rfl
@[simp] theorem State.finish_wPtr (s : State) : (s.finish).wPtr = s.wPtr := rfl
@[simp] theorem State.finish_procPriority (s : State) : (s.finish).procPriority = s.procPriority := rfl
@[simp] theorem State.finish_iPtr (s : State) : (s.finish).iPtr = s.nextInst := rfl
@[simp] theorem State.finish_oreg (s : State) : (s.finish).oreg = 0 := rfl
@[simp] theorem State.finish_dReg (s : State) : (s.finish).dReg = s.dReg := rfl
@[simp] theorem State.finish_eReg (s : State) : (s.finish).eReg = s.eReg := rfl
@[simp] theorem State.finish_statusReg (s : State) : (s.finish).statusReg = s.statusReg := rfl
@[simp] theorem State.finish_timerAlarmHigh (s : State) : (s.finish).timerAlarmHigh = s.timerAlarmHigh := rfl
@[simp] theorem State.finish_timerAlarmLow (s : State) : (s.finish).timerAlarmLow = s.timerAlarmLow := rfl
@[simp] theorem State.finish_timesliceCount (s : State) : (s.finish).timesliceCount = s.timesliceCount := rfl
@[simp] theorem State.finish_buffers (s : State) : (s.finish).buffers = s.buffers := rfl
@[simp] theorem State.finish_written (s : State) : (s.finish).written = s.written := rfl
@[simp] theorem State.finish_links (s : State) : (s.finish).links = s.links := rfl
@[simp] theorem State.finish_mem (s : State) : (s.finish).mem = s.mem := rfl
@[simp] theorem State.finish_pins (s : State) : (s.finish).pins = s.pins := rfl
@[simp] theorem State.finish_control (s : State) : (s.finish).control = s.control := rfl
@[simp] theorem State.finish_turns (s : State) : (s.finish).turns = s.turns := rfl
@[simp] theorem State.finish_draws (s : State) : (s.finish).draws = s.draws := rfl

@[simp] theorem State.jumpTo_cfg (s : State) (target : Word) : (s.jumpTo target).cfg = s.cfg := rfl
@[simp] theorem State.jumpTo_aReg (s : State) (target : Word) : (s.jumpTo target).aReg = s.aReg := rfl
@[simp] theorem State.jumpTo_bReg (s : State) (target : Word) : (s.jumpTo target).bReg = s.bReg := rfl
@[simp] theorem State.jumpTo_cReg (s : State) (target : Word) : (s.jumpTo target).cReg = s.cReg := rfl
@[simp] theorem State.jumpTo_wPtr (s : State) (target : Word) : (s.jumpTo target).wPtr = s.wPtr := rfl
@[simp] theorem State.jumpTo_procPriority (s : State) (target : Word) : (s.jumpTo target).procPriority = s.procPriority := rfl
@[simp] theorem State.jumpTo_iPtr (s : State) (target : Word) : (s.jumpTo target).iPtr = target := rfl
@[simp] theorem State.jumpTo_oreg (s : State) (target : Word) : (s.jumpTo target).oreg = s.oreg := rfl
@[simp] theorem State.jumpTo_dReg (s : State) (target : Word) : (s.jumpTo target).dReg = s.dReg := rfl
@[simp] theorem State.jumpTo_eReg (s : State) (target : Word) : (s.jumpTo target).eReg = s.eReg := rfl
@[simp] theorem State.jumpTo_statusReg (s : State) (target : Word) : (s.jumpTo target).statusReg = s.statusReg := rfl
@[simp] theorem State.jumpTo_timerAlarmHigh (s : State) (target : Word) : (s.jumpTo target).timerAlarmHigh = s.timerAlarmHigh := rfl
@[simp] theorem State.jumpTo_timerAlarmLow (s : State) (target : Word) : (s.jumpTo target).timerAlarmLow = s.timerAlarmLow := rfl
@[simp] theorem State.jumpTo_timesliceCount (s : State) (target : Word) : (s.jumpTo target).timesliceCount = s.timesliceCount := rfl
@[simp] theorem State.jumpTo_written (s : State) (target : Word) : (s.jumpTo target).written = [] := rfl
@[simp] theorem State.jumpTo_links (s : State) (target : Word) : (s.jumpTo target).links = s.links := rfl
@[simp] theorem State.jumpTo_mem (s : State) (target : Word) : (s.jumpTo target).mem = s.mem := rfl
@[simp] theorem State.jumpTo_pins (s : State) (target : Word) : (s.jumpTo target).pins = s.pins := rfl
@[simp] theorem State.jumpTo_control (s : State) (target : Word) : (s.jumpTo target).control = s.control := rfl
@[simp] theorem State.jumpTo_turns (s : State) (target : Word) : (s.jumpTo target).turns = s.turns := rfl
@[simp] theorem State.jumpTo_draws (s : State) (target : Word) : (s.jumpTo target).draws = s.draws := rfl

@[simp] theorem State.setLink_cfg (s : State) (k : Link) (l : LinkState) : (s.setLink k l).cfg = s.cfg := rfl
@[simp] theorem State.setLink_aReg (s : State) (k : Link) (l : LinkState) : (s.setLink k l).aReg = s.aReg := rfl
@[simp] theorem State.setLink_bReg (s : State) (k : Link) (l : LinkState) : (s.setLink k l).bReg = s.bReg := rfl
@[simp] theorem State.setLink_cReg (s : State) (k : Link) (l : LinkState) : (s.setLink k l).cReg = s.cReg := rfl
@[simp] theorem State.setLink_wPtr (s : State) (k : Link) (l : LinkState) : (s.setLink k l).wPtr = s.wPtr := rfl
@[simp] theorem State.setLink_procPriority (s : State) (k : Link) (l : LinkState) : (s.setLink k l).procPriority = s.procPriority := rfl
@[simp] theorem State.setLink_iPtr (s : State) (k : Link) (l : LinkState) : (s.setLink k l).iPtr = s.iPtr := rfl
@[simp] theorem State.setLink_oreg (s : State) (k : Link) (l : LinkState) : (s.setLink k l).oreg = s.oreg := rfl
@[simp] theorem State.setLink_dReg (s : State) (k : Link) (l : LinkState) : (s.setLink k l).dReg = s.dReg := rfl
@[simp] theorem State.setLink_eReg (s : State) (k : Link) (l : LinkState) : (s.setLink k l).eReg = s.eReg := rfl
@[simp] theorem State.setLink_statusReg (s : State) (k : Link) (l : LinkState) : (s.setLink k l).statusReg = s.statusReg := rfl
@[simp] theorem State.setLink_timerAlarmHigh (s : State) (k : Link) (l : LinkState) : (s.setLink k l).timerAlarmHigh = s.timerAlarmHigh := rfl
@[simp] theorem State.setLink_timerAlarmLow (s : State) (k : Link) (l : LinkState) : (s.setLink k l).timerAlarmLow = s.timerAlarmLow := rfl
@[simp] theorem State.setLink_timesliceCount (s : State) (k : Link) (l : LinkState) : (s.setLink k l).timesliceCount = s.timesliceCount := rfl
@[simp] theorem State.setLink_buffers (s : State) (k : Link) (l : LinkState) : (s.setLink k l).buffers = s.buffers := rfl
@[simp] theorem State.setLink_written (s : State) (k : Link) (l : LinkState) : (s.setLink k l).written = s.written := rfl
@[simp] theorem State.setLink_links (s : State) (k : Link) (l : LinkState) : (s.setLink k l).links = s.links.set k l := rfl
@[simp] theorem State.setLink_mem (s : State) (k : Link) (l : LinkState) : (s.setLink k l).mem = s.mem := rfl
@[simp] theorem State.setLink_pins (s : State) (k : Link) (l : LinkState) : (s.setLink k l).pins = s.pins := rfl
@[simp] theorem State.setLink_control (s : State) (k : Link) (l : LinkState) : (s.setLink k l).control = s.control := rfl
@[simp] theorem State.setLink_turns (s : State) (k : Link) (l : LinkState) : (s.setLink k l).turns = s.turns := rfl
@[simp] theorem State.setLink_draws (s : State) (k : Link) (l : LinkState) : (s.setLink k l).draws = s.draws := rfl

@[simp] theorem State.setChannel_cfg (s : State) (ch : ChannelId) (c : Channel) : (s.setChannel ch c).cfg = s.cfg := rfl
@[simp] theorem State.setChannel_aReg (s : State) (ch : ChannelId) (c : Channel) : (s.setChannel ch c).aReg = s.aReg := rfl
@[simp] theorem State.setChannel_bReg (s : State) (ch : ChannelId) (c : Channel) : (s.setChannel ch c).bReg = s.bReg := rfl
@[simp] theorem State.setChannel_cReg (s : State) (ch : ChannelId) (c : Channel) : (s.setChannel ch c).cReg = s.cReg := rfl
@[simp] theorem State.setChannel_wPtr (s : State) (ch : ChannelId) (c : Channel) : (s.setChannel ch c).wPtr = s.wPtr := rfl
@[simp] theorem State.setChannel_procPriority (s : State) (ch : ChannelId) (c : Channel) : (s.setChannel ch c).procPriority = s.procPriority := rfl
@[simp] theorem State.setChannel_iPtr (s : State) (ch : ChannelId) (c : Channel) : (s.setChannel ch c).iPtr = s.iPtr := rfl
@[simp] theorem State.setChannel_oreg (s : State) (ch : ChannelId) (c : Channel) : (s.setChannel ch c).oreg = s.oreg := rfl
@[simp] theorem State.setChannel_dReg (s : State) (ch : ChannelId) (c : Channel) : (s.setChannel ch c).dReg = s.dReg := rfl
@[simp] theorem State.setChannel_eReg (s : State) (ch : ChannelId) (c : Channel) : (s.setChannel ch c).eReg = s.eReg := rfl
@[simp] theorem State.setChannel_statusReg (s : State) (ch : ChannelId) (c : Channel) : (s.setChannel ch c).statusReg = s.statusReg := rfl
@[simp] theorem State.setChannel_timerAlarmHigh (s : State) (ch : ChannelId) (c : Channel) : (s.setChannel ch c).timerAlarmHigh = s.timerAlarmHigh := rfl
@[simp] theorem State.setChannel_timerAlarmLow (s : State) (ch : ChannelId) (c : Channel) : (s.setChannel ch c).timerAlarmLow = s.timerAlarmLow := rfl
@[simp] theorem State.setChannel_timesliceCount (s : State) (ch : ChannelId) (c : Channel) : (s.setChannel ch c).timesliceCount = s.timesliceCount := rfl
@[simp] theorem State.setChannel_buffers (s : State) (ch : ChannelId) (c : Channel) : (s.setChannel ch c).buffers = s.buffers := rfl
@[simp] theorem State.setChannel_written (s : State) (ch : ChannelId) (c : Channel) : (s.setChannel ch c).written = s.written := rfl
@[simp] theorem State.setChannel_links (s : State) (ch : ChannelId) (c : Channel) : (s.setChannel ch c).links = s.links.set ch.link ((s.link ch.link).setChannel ch.dir c) := rfl
@[simp] theorem State.setChannel_mem (s : State) (ch : ChannelId) (c : Channel) : (s.setChannel ch c).mem = s.mem := rfl
@[simp] theorem State.setChannel_pins (s : State) (ch : ChannelId) (c : Channel) : (s.setChannel ch c).pins = s.pins := rfl
@[simp] theorem State.setChannel_control (s : State) (ch : ChannelId) (c : Channel) : (s.setChannel ch c).control = s.control := rfl
@[simp] theorem State.setChannel_turns (s : State) (ch : ChannelId) (c : Channel) : (s.setChannel ch c).turns = s.turns := rfl
@[simp] theorem State.setChannel_draws (s : State) (ch : ChannelId) (c : Channel) : (s.setChannel ch c).draws = s.draws := rfl

@[simp] theorem State.enterBootCode_cfg (s : State) (target : Word) (workspace : Word) : (s.enterBootCode target workspace).cfg = s.cfg := rfl
@[simp] theorem State.enterBootCode_aReg (s : State) (target : Word) (workspace : Word) : (s.enterBootCode target workspace).aReg = s.iPtr := rfl
@[simp] theorem State.enterBootCode_bReg (s : State) (target : Word) (workspace : Word) : (s.enterBootCode target workspace).bReg = s.wdesc := rfl
@[simp] theorem State.enterBootCode_cReg (s : State) (target : Word) (workspace : Word) : (s.enterBootCode target workspace).cReg = s.cReg := rfl
@[simp] theorem State.enterBootCode_wPtr (s : State) (target : Word) (workspace : Word) : (s.enterBootCode target workspace).wPtr = workspace := rfl
@[simp] theorem State.enterBootCode_procPriority (s : State) (target : Word) (workspace : Word) : (s.enterBootCode target workspace).procPriority = .low := rfl
@[simp] theorem State.enterBootCode_iPtr (s : State) (target : Word) (workspace : Word) : (s.enterBootCode target workspace).iPtr = target := rfl
@[simp] theorem State.enterBootCode_oreg (s : State) (target : Word) (workspace : Word) : (s.enterBootCode target workspace).oreg = 0 := rfl
@[simp] theorem State.enterBootCode_dReg (s : State) (target : Word) (workspace : Word) : (s.enterBootCode target workspace).dReg = s.dReg := rfl
@[simp] theorem State.enterBootCode_eReg (s : State) (target : Word) (workspace : Word) : (s.enterBootCode target workspace).eReg = s.eReg := rfl
@[simp] theorem State.enterBootCode_statusReg (s : State) (target : Word) (workspace : Word) : (s.enterBootCode target workspace).statusReg = s.statusReg &&& preservedBits s.cfg := rfl
@[simp] theorem State.enterBootCode_timerAlarmHigh (s : State) (target : Word) (workspace : Word) : (s.enterBootCode target workspace).timerAlarmHigh = s.timerAlarmHigh := rfl
@[simp] theorem State.enterBootCode_timerAlarmLow (s : State) (target : Word) (workspace : Word) : (s.enterBootCode target workspace).timerAlarmLow = s.timerAlarmLow := rfl
@[simp] theorem State.enterBootCode_timesliceCount (s : State) (target : Word) (workspace : Word) : (s.enterBootCode target workspace).timesliceCount = s.timesliceCount := rfl
@[simp] theorem State.enterBootCode_written (s : State) (target : Word) (workspace : Word) : (s.enterBootCode target workspace).written = [] := rfl
@[simp] theorem State.enterBootCode_links (s : State) (target : Word) (workspace : Word) : (s.enterBootCode target workspace).links = s.links := rfl
@[simp] theorem State.enterBootCode_mem (s : State) (target : Word) (workspace : Word) : (s.enterBootCode target workspace).mem = s.mem := rfl
@[simp] theorem State.enterBootCode_pins (s : State) (target : Word) (workspace : Word) : (s.enterBootCode target workspace).pins = s.pins := rfl
@[simp] theorem State.enterBootCode_control (s : State) (target : Word) (workspace : Word) : (s.enterBootCode target workspace).control = .run := rfl
@[simp] theorem State.enterBootCode_turns (s : State) (target : Word) (workspace : Word) : (s.enterBootCode target workspace).turns = s.turns := rfl
@[simp] theorem State.enterBootCode_draws (s : State) (target : Word) (workspace : Word) : (s.enterBootCode target workspace).draws = s.draws := rfl

@[simp] theorem State.bootAt_cfg (s : State) (b : Boot) (phase : BootPhase) : (s.bootAt b phase).cfg = s.cfg := rfl
@[simp] theorem State.bootAt_aReg (s : State) (b : Boot) (phase : BootPhase) : (s.bootAt b phase).aReg = s.aReg := rfl
@[simp] theorem State.bootAt_bReg (s : State) (b : Boot) (phase : BootPhase) : (s.bootAt b phase).bReg = s.bReg := rfl
@[simp] theorem State.bootAt_cReg (s : State) (b : Boot) (phase : BootPhase) : (s.bootAt b phase).cReg = s.cReg := rfl
@[simp] theorem State.bootAt_wPtr (s : State) (b : Boot) (phase : BootPhase) : (s.bootAt b phase).wPtr = s.wPtr := rfl
@[simp] theorem State.bootAt_procPriority (s : State) (b : Boot) (phase : BootPhase) : (s.bootAt b phase).procPriority = s.procPriority := rfl
@[simp] theorem State.bootAt_iPtr (s : State) (b : Boot) (phase : BootPhase) : (s.bootAt b phase).iPtr = s.iPtr := rfl
@[simp] theorem State.bootAt_oreg (s : State) (b : Boot) (phase : BootPhase) : (s.bootAt b phase).oreg = s.oreg := rfl
@[simp] theorem State.bootAt_dReg (s : State) (b : Boot) (phase : BootPhase) : (s.bootAt b phase).dReg = s.dReg := rfl
@[simp] theorem State.bootAt_eReg (s : State) (b : Boot) (phase : BootPhase) : (s.bootAt b phase).eReg = s.eReg := rfl
@[simp] theorem State.bootAt_statusReg (s : State) (b : Boot) (phase : BootPhase) : (s.bootAt b phase).statusReg = s.statusReg := rfl
@[simp] theorem State.bootAt_timerAlarmHigh (s : State) (b : Boot) (phase : BootPhase) : (s.bootAt b phase).timerAlarmHigh = s.timerAlarmHigh := rfl
@[simp] theorem State.bootAt_timerAlarmLow (s : State) (b : Boot) (phase : BootPhase) : (s.bootAt b phase).timerAlarmLow = s.timerAlarmLow := rfl
@[simp] theorem State.bootAt_timesliceCount (s : State) (b : Boot) (phase : BootPhase) : (s.bootAt b phase).timesliceCount = s.timesliceCount := rfl
@[simp] theorem State.bootAt_buffers (s : State) (b : Boot) (phase : BootPhase) : (s.bootAt b phase).buffers = s.buffers := rfl
@[simp] theorem State.bootAt_written (s : State) (b : Boot) (phase : BootPhase) : (s.bootAt b phase).written = s.written := rfl
@[simp] theorem State.bootAt_links (s : State) (b : Boot) (phase : BootPhase) : (s.bootAt b phase).links = s.links := rfl
@[simp] theorem State.bootAt_mem (s : State) (b : Boot) (phase : BootPhase) : (s.bootAt b phase).mem = s.mem := rfl
@[simp] theorem State.bootAt_pins (s : State) (b : Boot) (phase : BootPhase) : (s.bootAt b phase).pins = s.pins := rfl
@[simp] theorem State.bootAt_control (s : State) (b : Boot) (phase : BootPhase) : (s.bootAt b phase).control = .boot { b with phase := phase } := rfl
@[simp] theorem State.bootAt_turns (s : State) (b : Boot) (phase : BootPhase) : (s.bootAt b phase).turns = s.turns := rfl
@[simp] theorem State.bootAt_draws (s : State) (b : Boot) (phase : BootPhase) : (s.bootAt b phase).draws = s.draws := rfl

/-! ### A channel's own updates -/

@[simp] theorem Channel.enable_count (ws : WordSize) (c : Channel) (x : Transfer) (n : Nat) (a : Word) :
    (c.enable ws x n a).count = ws.trunc (0 - BitVec.ofNat 32 n) := rfl
@[simp] theorem Channel.enable_ptr (ws : WordSize) (c : Channel) (x : Transfer) (n : Nat) (a : Word) : (c.enable ws x n a).ptr = a := rfl
@[simp] theorem Channel.enable_dbuff (ws : WordSize) (c : Channel) (x : Transfer) (n : Nat) (a : Word) : (c.enable ws x n a).dbuff = c.dbuff := rfl
@[simp] theorem Channel.enable_transfer (ws : WordSize) (c : Channel) (x : Transfer) (n : Nat) (a : Word) : (c.enable ws x n a).transfer = x := rfl
@[simp] theorem Channel.enable_shifting (ws : WordSize) (c : Channel) (x : Transfer) (n : Nat) (a : Word) : (c.enable ws x n a).shifting = c.shifting := rfl
@[simp] theorem Channel.enable_fill (ws : WordSize) (c : Channel) (x : Transfer) (n : Nat) (a : Word) : (c.enable ws x n a).fill = 0 := rfl
@[simp] theorem Channel.enable_pushed (ws : WordSize) (c : Channel) (x : Transfer) (n : Nat) (a : Word) : (c.enable ws x n a).pushed = c.pushed := rfl
@[simp] theorem Channel.countByte_count (ws : WordSize) (c : Channel) : (c.countByte ws).count = ws.trunc (c.count + 1) := rfl
@[simp] theorem Channel.countByte_ptr (ws : WordSize) (c : Channel) : (c.countByte ws).ptr = c.ptr := rfl
@[simp] theorem Channel.countByte_dbuff (ws : WordSize) (c : Channel) : (c.countByte ws).dbuff = c.dbuff := rfl
@[simp] theorem Channel.countByte_transfer (ws : WordSize) (c : Channel) : (c.countByte ws).transfer = c.transfer := rfl
@[simp] theorem Channel.countByte_shifting (ws : WordSize) (c : Channel) : (c.countByte ws).shifting = c.shifting := rfl
@[simp] theorem Channel.countByte_fill (ws : WordSize) (c : Channel) : (c.countByte ws).fill = c.fill + 1 := rfl
@[simp] theorem Channel.countByte_pushed (ws : WordSize) (c : Channel) : (c.countByte ws).pushed = c.pushed := rfl
@[simp] theorem Channel.endWord_count (c : Channel) : c.endWord.count = c.count := rfl
@[simp] theorem Channel.endWord_ptr (c : Channel) : c.endWord.ptr = c.ptr := rfl
@[simp] theorem Channel.endWord_dbuff (c : Channel) : c.endWord.dbuff = c.dbuff := rfl
@[simp] theorem Channel.endWord_transfer (c : Channel) : c.endWord.transfer = if c.count = 0 then .idle else c.transfer := rfl
@[simp] theorem Channel.endWord_shifting (c : Channel) : c.endWord.shifting = c.shifting := rfl
@[simp] theorem Channel.endWord_fill (c : Channel) : c.endWord.fill = 0 := rfl
@[simp] theorem Channel.endWord_pushed (c : Channel) : c.endWord.pushed = c.pushed := rfl
@[simp] theorem Channel.nextWord_count (ws : WordSize) (c : Channel) : (c.nextWord ws).count = c.count := rfl
@[simp] theorem Channel.nextWord_ptr (ws : WordSize) (c : Channel) : (c.nextWord ws).ptr = index ws c.ptr 1 := rfl
@[simp] theorem Channel.nextWord_dbuff (ws : WordSize) (c : Channel) : (c.nextWord ws).dbuff = c.dbuff := rfl
@[simp] theorem Channel.nextWord_transfer (ws : WordSize) (c : Channel) : (c.nextWord ws).transfer = c.transfer := rfl
@[simp] theorem Channel.nextWord_shifting (ws : WordSize) (c : Channel) : (c.nextWord ws).shifting = c.shifting := rfl
@[simp] theorem Channel.nextWord_fill (ws : WordSize) (c : Channel) : (c.nextWord ws).fill = c.fill := rfl
@[simp] theorem Channel.nextWord_pushed (ws : WordSize) (c : Channel) : (c.nextWord ws).pushed = c.pushed := rfl

end Sys2Proof.Machine
end

