-- ==== Sys2Proof/Laws/Links.lean ====
section
/-! SUPPORT. Links and channels: reads after writes, the selection of a channel by its Link word, free values. -/

namespace Sys2Proof.Machine

@[simp] theorem PerLink.get_set_same {α : Type} (p : PerLink α) (k : Link) (v : α) : (p.set k v).get k = v := by
  cases k <;> rfl

theorem PerLink.get_set_other {α : Type} (p : PerLink α) {k j : Link} (v : α) (h : j ≠ k) :
    (p.set k v).get j = p.get j := by
  cases k <;> cases j <;> first | rfl | exact absurd rfl h

@[simp] theorem PerLink.get_map {α β : Type} (f : α → β) (p : PerLink α) (k : Link) : (p.map f).get k = f (p.get k) := by
  cases k <;> rfl

theorem PerLink.every_iff {α : Type} (f : α → Bool) (p : PerLink α) :
    p.every f = true ↔ ∀ k, f (p.get k) = true := by
  simp only [PerLink.every, Bool.and_eq_true]
  constructor
  · rintro ⟨⟨⟨h0, h1⟩, h2⟩, h3⟩ k
    cases k <;> assumption
  · intro h
    exact ⟨⟨⟨h .link0, h .link1⟩, h .link2⟩, h .link3⟩

@[simp] theorem State.link_setLink_same (s : State) (k : Link) (l : LinkState) : (s.setLink k l).link k = l :=
  PerLink.get_set_same _ _ _

theorem State.link_setLink_other (s : State) {k j : Link} (l : LinkState) (h : j ≠ k) :
    (s.setLink k l).link j = s.link j :=
  PerLink.get_set_other _ _ h

@[simp] theorem LinkState.channel_setChannel_same (l : LinkState) (d : Dir) (c : Channel) :
    (l.setChannel d c).channel d = c := by
  cases d <;> rfl

theorem LinkState.channel_setChannel_other (l : LinkState) {d e : Dir} (c : Channel) (h : e ≠ d) :
    (l.setChannel d c).channel e = l.channel e := by
  cases d <;> cases e <;> first | rfl | exact absurd rfl h

@[simp] theorem State.channel_setChannel_same (s : State) (ch : ChannelId) (c : Channel) :
    (s.setChannel ch c).channel ch = c := by
  simp [State.channel, State.setChannel]

theorem State.channel_setChannel_other (s : State) {ch x : ChannelId} (c : Channel) (h : x ≠ ch) :
    (s.setChannel ch c).channel x = s.channel x := by
  obtain ⟨k, d⟩ := ch
  obtain ⟨j, e⟩ := x
  simp only [State.channel, State.setChannel]
  by_cases hk : j = k
  · subst hk
    rw [State.link_setLink_same]
    exact LinkState.channel_setChannel_other _ _ (fun he => h (he ▸ rfl))
  · rw [State.link_setLink_other _ _ hk]

/-- A channel read after a channel write. -/
theorem State.channel_setChannel (s : State) (ch x : ChannelId) (c : Channel) :
    (s.setChannel ch c).channel x = if x = ch then c else s.channel x := by
  split
  · next h => rw [h, State.channel_setChannel_same]
  · next h => exact State.channel_setChannel_other _ _ h

/-- What waits on a Link is not changed by a write of one of its channels' registers. -/
@[simp] theorem State.fromHost_setChannel (s : State) (ch : ChannelId) (c : Channel) (k : Link) :
    ((s.setChannel ch c).link k).fromHost = (s.link k).fromHost := by
  obtain ⟨j, d⟩ := ch
  by_cases h : k = j
  · subst h
    cases d <;> simp [State.setChannel, LinkState.setChannel]
  · simp [State.setChannel, State.link_setLink_other _ _ h]

@[simp] theorem State.toHost_setChannel (s : State) (ch : ChannelId) (c : Channel) (k : Link) :
    ((s.setChannel ch c).link k).toHost = (s.link k).toHost := by
  obtain ⟨j, d⟩ := ch
  by_cases h : k = j
  · subst h
    cases d <;> simp [State.setChannel, LinkState.setChannel]
  · simp [State.setChannel, State.link_setLink_other _ _ h]

@[simp] theorem State.accepting_setChannel (s : State) (ch : ChannelId) (c : Channel) (k : Link) :
    ((s.setChannel ch c).link k).accepting = (s.link k).accepting := by
  obtain ⟨j, d⟩ := ch
  by_cases h : k = j
  · subst h
    cases d <;> simp [State.setChannel, LinkState.setChannel]
  · simp [State.setChannel, State.link_setLink_other _ _ h]

/-- The eight channels are all there are. -/
theorem mem_allChannels (ch : ChannelId) : ch ∈ allChannels := by
  obtain ⟨k, d⟩ := ch
  cases k <;> cases d <;> decide

theorem Channel.active_eq_false {c : Channel} : c.active = false ↔ c.transfer = .idle ∧ c.shifting = false := by
  simp [Channel.active]

theorem State.anyActive_eq_false {s : State} : s.anyActive = false ↔ ∀ ch, (s.channel ch).active = false := by
  simp only [State.anyActive, List.any_eq_false, Bool.not_eq_true]
  exact ⟨fun h ch => h ch (mem_allChannels ch), fun h ch _ => h ch⟩

/-- R241's conditions: no alarm, and no message but one of `start`'s own. -/
theorem State.oneProcess_iff {s : State} :
    s.oneProcess = true ↔ s.timerAlarmHigh = false ∧ s.timerAlarmLow = false
      ∧ ∀ ch, (s.channel ch).transfer ≠ .idle → s.control.ownChannel = some ch := by
  simp only [State.oneProcess, Bool.and_eq_true, Bool.not_eq_true', List.all_eq_true, Bool.or_eq_true, beq_iff_eq,
    and_assoc, ne_eq, ← or_iff_not_imp_left]
  refine and_congr_right fun _ => and_congr_right fun _ => ?_
  exact ⟨fun h ch => h ch (mem_allChannels ch), fun h ch _ => h ch⟩

/-- Where `start` has no message of its own, R241's conditions leave none at all. -/
theorem State.idle_of_oneProcess {s : State} (h : s.oneProcess = true) (hc : s.control.ownChannel = none)
    (ch : ChannelId) : (s.channel ch).transfer = .idle := by
  by_contra hx
  have := (State.oneProcess_iff.mp h).2.2 ch hx
  rw [hc] at this
  cases this

/-- R241's conditions where every channel is idle. -/
theorem State.oneProcess_of_idle {s : State} (hh : s.timerAlarmHigh = false) (hl : s.timerAlarmLow = false)
    (h : ∀ ch, (s.channel ch).transfer = .idle) : s.oneProcess = true :=
  State.oneProcess_iff.mpr ⟨hh, hl, fun ch hx => absurd (h ch) hx⟩

/-- R241's conditions kept by what touches no alarm, and no message but where `start` has its own. -/
theorem State.oneProcess_of_eq {s t : State} (h : s.oneProcess = true) (hh : t.timerAlarmHigh = s.timerAlarmHigh)
    (hl : t.timerAlarmLow = s.timerAlarmLow)
    (hx : ∀ ch, (t.channel ch).transfer ≠ .idle → t.control.ownChannel ≠ some ch →
      (s.channel ch).transfer ≠ .idle ∧ s.control.ownChannel ≠ some ch) : t.oneProcess = true := by
  obtain ⟨h1, h2, h3⟩ := State.oneProcess_iff.mp h
  refine State.oneProcess_iff.mpr ⟨hh.trans h1, hl.trans h2, fun ch hc => ?_⟩
  by_contra hn
  exact (hx ch hc hn).2 (h3 ch (hx ch hc hn).1)

/-- Under R241's conditions a step is what it guards (U12). -/
theorem State.guarded_of {s : State} (h : s.oneProcess = true) (o : Host.Outcome State Fault Refusal) :
    s.guarded o = o := if_pos h

theorem State.guarded_eq_next {s t : State} {o : Host.Outcome State Fault Refusal} :
    s.guarded o = .next t ↔ s.oneProcess = true ∧ o = .next t := by
  unfold State.guarded
  split <;> simp_all

/-- A channel is selected by its own Link word (R162). -/
@[simp] theorem channelOf_linkWord (ws : WordSize) (ch : ChannelId) : channelOf ws (linkWord ws ch) = some ch := by
  obtain ⟨k, d⟩ := ch
  cases ws <;> cases k <;> cases d <;> decide

/-- Only a Link word's address selects a channel (R162). -/
theorem linkWord_of_channelOf {ws : WordSize} {a : Word} {ch : ChannelId} (h : channelOf ws a = some ch) :
    a = linkWord ws ch := by
  have := List.find?_some h
  simp only [beq_iff_eq] at this
  exact this.symm

/-! ### Free values change nothing but the registers they go to -/

/-- What no free value and no channel write touches: all but `links` and `draws`. -/
structure State.SameButLinks (s t : State) : Prop where
  state  : t = { s with links := t.links, draws := t.draws }
  fromHost  : ∀ k, (t.link k).fromHost = (s.link k).fromHost
  toHost    : ∀ k, (t.link k).toHost = (s.link k).toHost
  accepting : ∀ k, (t.link k).accepting = (s.link k).accepting

theorem State.SameButLinks.refl (s : State) : s.SameButLinks s :=
  ⟨rfl, fun _ => rfl, fun _ => rfl, fun _ => rfl⟩

theorem State.SameButLinks.trans {s t u : State} (h : s.SameButLinks t) (g : t.SameButLinks u) : s.SameButLinks u := by
  refine ⟨?_, fun k => (g.fromHost k).trans (h.fromHost k), fun k => (g.toHost k).trans (h.toHost k),
    fun k => (g.accepting k).trans (h.accepting k)⟩
  have e := h.state
  have f := g.state
  rw [e] at f
  exact f

theorem State.sameButLinks_setChannel (s : State) (ch : ChannelId) (c : Channel) :
    s.SameButLinks (s.setChannel ch c) :=
  ⟨rfl, fun k => s.fromHost_setChannel ch c k, fun k => s.toHost_setChannel ch c k,
    fun k => s.accepting_setChannel ch c k⟩

theorem State.sameButLinks_draw (s : State) : s.SameButLinks s.draw.2 :=
  ⟨rfl, fun _ => rfl, fun _ => rfl, fun _ => rfl⟩

/-- What a Reset does to DReg, EReg and the count of free values. -/
theorem State.drawHidden_eq (s : State) :
    s.drawHidden = { s with
      dReg := s.cfg.wordSize.trunc (Config.freeWord s.draws)
      eReg := s.cfg.wordSize.trunc (Config.freeWord (s.draws + 1)), draws := s.draws + 2 } := rfl

theorem State.sameButLinks_drawPtrDBuff (s : State) (ch : ChannelId) : s.SameButLinks (s.drawPtrDBuff ch) :=
  ((s.sameButLinks_draw).trans (s.draw.2.sameButLinks_draw)).trans (State.sameButLinks_setChannel _ _ _)

theorem State.sameButLinks_drawChannel (s : State) (ch : ChannelId) : s.SameButLinks (s.drawChannel ch) :=
  ((s.sameButLinks_draw).trans (State.sameButLinks_setChannel _ _ _)).trans (State.sameButLinks_drawPtrDBuff _ _)

theorem State.sameButLinks_drawChannelIf (s : State) (used : Bool) (ch : ChannelId) :
    s.SameButLinks (s.drawChannelIf used ch) := by
  unfold State.drawChannelIf
  split
  · exact s.sameButLinks_drawChannel ch
  · exact .refl s

theorem State.sameButLinks_drawUsed (s : State) (used : PerLink Bool) (d : Dir) :
    s.SameButLinks (s.drawUsed used d) :=
  (((s.sameButLinks_drawChannelIf _ _).trans (State.sameButLinks_drawChannelIf _ _ _)).trans
    (State.sameButLinks_drawChannelIf _ _ _)).trans (State.sameButLinks_drawChannelIf _ _ _)

/-- Two channels with the same control logic: what a free value leaves of a channel. -/
def Channel.SameControl (c d : Channel) : Prop :=
  d.transfer = c.transfer ∧ d.shifting = c.shifting ∧ d.fill = c.fill ∧ d.pushed = c.pushed

theorem Channel.SameControl.refl (c : Channel) : c.SameControl c := ⟨rfl, rfl, rfl, rfl⟩

theorem Channel.SameControl.trans {c d e : Channel} (h : c.SameControl d) (g : d.SameControl e) : c.SameControl e :=
  ⟨g.1.trans h.1, g.2.1.trans h.2.1, g.2.2.1.trans h.2.2.1, g.2.2.2.trans h.2.2.2⟩

theorem Channel.SameControl.active_eq {c d : Channel} (h : c.SameControl d) : d.active = c.active := by
  rw [Channel.active, Channel.active, h.1, h.2.1]

/-- A channel write that keeps the control logic of the channel keeps that of every channel. -/
theorem State.sameControl_setChannel (s : State) (ch x : ChannelId) {c : Channel} (h : (s.channel ch).SameControl c) :
    (s.channel x).SameControl ((s.setChannel ch c).channel x) := by
  rw [State.channel_setChannel]
  split
  · next e => exact e ▸ h
  · exact .refl _

/-- What a free value leaves of a channel: its control logic everywhere, all of it where it is another channel. -/
theorem State.channel_drawPtrDBuff (s : State) (ch x : ChannelId) :
    (x ≠ ch → (s.drawPtrDBuff ch).channel x = s.channel x)
      ∧ ((s.drawPtrDBuff ch).channel ch).count = (s.channel ch).count
      ∧ (s.channel x).SameControl ((s.drawPtrDBuff ch).channel x) :=
  ⟨fun h => State.channel_setChannel_other _ _ h, by simp only [State.drawPtrDBuff, State.channel_setChannel_same]; rfl,
    State.sameControl_setChannel s.draw.2.draw.2 ch x ⟨rfl, rfl, rfl, rfl⟩⟩

theorem State.channel_drawChannel (s : State) (ch x : ChannelId) :
    (x ≠ ch → (s.drawChannel ch).channel x = s.channel x)
      ∧ (s.channel x).SameControl ((s.drawChannel ch).channel x) := by
  obtain ⟨h1, -, h3⟩ :=
    (s.draw.2.setChannel ch { s.draw.2.channel ch with count := s.draw.1 }).channel_drawPtrDBuff ch x
  exact ⟨fun h => (h1 h).trans (State.channel_setChannel_other _ _ h),
    (State.sameControl_setChannel (c := { s.draw.2.channel ch with count := s.draw.1 }) s.draw.2 ch x
      ⟨rfl, rfl, rfl, rfl⟩).trans h3⟩

theorem State.channel_drawChannelIf (s : State) (used : Bool) (ch x : ChannelId) :
    ((x ≠ ch ∨ used = false) → (s.drawChannelIf used ch).channel x = s.channel x)
      ∧ (s.channel x).SameControl ((s.drawChannelIf used ch).channel x) := by
  unfold State.drawChannelIf
  cases used with
  | false => exact ⟨fun _ => rfl, .refl _⟩
  | true =>
    obtain ⟨h1, h2⟩ := s.channel_drawChannel ch x
    exact ⟨fun h => h1 (h.resolve_right (by simp)), h2⟩

/-- `drawUsed` changes the registers of the used channels of one direction only. -/
theorem State.channel_drawUsed (s : State) (used : PerLink Bool) (d : Dir) (x : ChannelId) :
    ((x.dir ≠ d ∨ used.get x.link = false) → (s.drawUsed used d).channel x = s.channel x)
      ∧ (s.channel x).SameControl ((s.drawUsed used d).channel x) := by
  unfold State.drawUsed
  have a0 := s.channel_drawChannelIf used.l0 ⟨.link0, d⟩ x
  have a1 := (s.drawChannelIf used.l0 ⟨.link0, d⟩).channel_drawChannelIf used.l1 ⟨.link1, d⟩ x
  have a2 := ((s.drawChannelIf used.l0 ⟨.link0, d⟩).drawChannelIf used.l1 ⟨.link1, d⟩).channel_drawChannelIf
    used.l2 ⟨.link2, d⟩ x
  have a3 := (((s.drawChannelIf used.l0 ⟨.link0, d⟩).drawChannelIf used.l1 ⟨.link1, d⟩).drawChannelIf
    used.l2 ⟨.link2, d⟩).channel_drawChannelIf used.l3 ⟨.link3, d⟩ x
  refine ⟨fun h => ?_, ((a0.2.trans a1.2).trans a2.2).trans a3.2⟩
  obtain ⟨k, e⟩ := x
  have side : ∀ j, (⟨k, e⟩ : ChannelId) ≠ ⟨j, d⟩ ∨ used.get j = false := by
    intro j
    by_cases hj : (⟨k, e⟩ : ChannelId) = ⟨j, d⟩
    · injection hj with hk he
      subst hk he
      exact .inr (h.resolve_left (fun hne => hne rfl))
    · exact .inl hj
  rw [a3.1 (side .link3), a2.1 (side .link2), a1.1 (side .link1), a0.1 (side .link0)]

end Sys2Proof.Machine
end

