-- ==== Sys2Proof/Laws/Words.lean ====
section
/-! SUPPORT. Address spans, and words as bytes (R61, R62, R64). -/

namespace Sys2Proof.Machine

/-- Cutting after an addition sees only the summand modulo 2^W. -/
theorem WordSize.toNat_trunc_add_ofNat (ws : WordSize) (a : Word) (i : Nat) :
    (ws.trunc (a + BitVec.ofNat 32 i)).toNat = (a.toNat + i) % 2 ^ ws.bits := by
  rw [WordSize.toNat_trunc, BitVec.toNat_add, BitVec.toNat_ofNat, Nat.add_mod_mod]
  cases ws <;> simp only [WordSize.bits] <;> omega

/-- Addition, cut to W bits, is addition modulo 2^W (R62). -/
theorem WordSize.toNat_trunc_add (ws : WordSize) (a b : Word) :
    (ws.trunc (a + b)).toNat = (a.toNat + b.toNat) % 2 ^ ws.bits := by
  rw [WordSize.toNat_trunc, BitVec.toNat_add]
  cases ws <;> simp only [WordSize.bits] <;> omega

/-- NextInst is the next address modulo 2^W (R27, R28). -/
theorem State.toNat_nextInst (s : State) : s.nextInst.toNat = (s.iPtr.toNat + 1) % 2 ^ s.cfg.wordSize.bits :=
  WordSize.toNat_trunc_add _ _ _

/-- `Index` is `a + n * BPW` modulo 2^W (R62). -/
theorem toNat_index (ws : WordSize) (a n : Word) :
    (index ws a n).toNat = (a.toNat + n.toNat * ws.bytes) % 2 ^ ws.bits := by
  rw [index, WordSize.toNat_trunc_add, BitVec.toNat_mul, BitVec.toNat_ofNat]
  cases ws <;> simp only [WordSize.bytes, WordSize.bits] <;> omega

/-- The `i`-th address of a span is `a + i` modulo 2^W. -/
theorem addressSpan_getElem (ws : WordSize) (n : Nat) (a : Word) (i : Nat) (h : i < n) :
    (addressSpan ws n a)[i]? = some (ws.trunc (a + BitVec.ofNat 32 i)) := by
  induction n generalizing a i with
  | zero => omega
  | succ n ih =>
    cases i with
    | zero => simp [addressSpan]
    | succ i =>
      simp only [addressSpan, List.getElem?_cons_succ]
      rw [ih (a + 1) i (by omega)]
      congr 2
      rw [BitVec.add_assoc]
      congr 1
      apply BitVec.eq_of_toNat_eq
      simp [BitVec.toNat_add, BitVec.toNat_ofNat]
      omega

/-- A span, address by address (R61, R62). -/
theorem addressSpan_eq_map (ws : WordSize) (n : Nat) (a : Word) :
    addressSpan ws n a = (List.range n).map fun i => ws.trunc (a + BitVec.ofNat 32 i) := by
  apply List.ext_getElem?
  intro i
  by_cases h : i < n
  · rw [addressSpan_getElem ws n a i h]
    simp [h]
  · rw [List.getElem?_eq_none (by simp; omega), List.getElem?_eq_none (by simp; omega)]

theorem mem_addressSpan {ws : WordSize} {n : Nat} {a x : Word} :
    x ∈ addressSpan ws n a ↔ ∃ i < n, x = ws.trunc (a + BitVec.ofNat 32 i) := by
  constructor
  · intro hx
    obtain ⟨i, hi, rfl⟩ := List.getElem_of_mem hx
    have h := addressSpan_getElem ws n a i (by simpa using hi)
    rw [List.getElem?_eq_getElem hi, Option.some.injEq] at h
    exact ⟨i, by simpa using hi, h⟩
  · rintro ⟨i, hi, rfl⟩
    exact List.mem_of_getElem? (addressSpan_getElem ws n a i hi)

/-- The addresses of a span no longer than the address space are pairwise different. -/
theorem addressSpan_pairwise (ws : WordSize) (n : Nat) (a : Word) (h : n ≤ 2 ^ ws.bits) :
    (addressSpan ws n a).Pairwise fun x y => x.toNat ≠ y.toNat := by
  rw [List.pairwise_iff_getElem]
  intro i j hi hj hij
  have hi' : i < n := by simpa using hi
  have hj' : j < n := by simpa using hj
  have ei := addressSpan_getElem ws n a i hi'
  have ej := addressSpan_getElem ws n a j hj'
  rw [List.getElem?_eq_getElem hi, Option.some.injEq] at ei
  rw [List.getElem?_eq_getElem hj, Option.some.injEq] at ej
  rw [ei, ej, WordSize.toNat_trunc_add_ofNat, WordSize.toNat_trunc_add_ofNat]
  intro he
  have hm : i % 2 ^ ws.bits = j % 2 ^ ws.bits := Nat.ModEq.add_left_cancel' a.toNat he
  rw [Nat.mod_eq_of_lt (by omega), Nat.mod_eq_of_lt (by omega)] at hm
  omega

/-- The bytes of a word, put together, are its low bytes (R64). -/
theorem valueOf_bytesOf (ws : WordSize) (v : Word) : valueOf (bytesOf ws.bytes v) = ws.trunc v := by
  cases ws <;>
  · simp only [WordSize.bytes, bytesOf, valueOf, WordSize.trunc, WordSize.mask]
    ext i hi
    simp
    interval_cases i <;> simp

/-- `BPW` bytes put together are a word of W bits. -/
theorem inWord_valueOf (ws : WordSize) (bs : List Byte) (h : bs.length ≤ ws.bytes) : inWord ws (valueOf bs) = true := by
  cases ws with
  | w32 => simp [inWord]
  | w16 =>
    match bs, h with
    | [], _ => decide
    | [b], _ =>
      simp only [inWord, WordSize.trunc, WordSize.mask, valueOf, beq_iff_eq]
      ext i hi
      simp
      interval_cases i <;> simp
    | [b, c], _ =>
      simp only [inWord, WordSize.trunc, WordSize.mask, valueOf, beq_iff_eq]
      ext i hi
      simp
      interval_cases i <;> simp
    | _ :: _ :: _ :: _, h => simp [WordSize.bytes] at h

/-- One more byte, below the others (R64). -/
theorem toNat_valueOf_cons (b : Byte) (bs : List Byte) (h : (valueOf bs).toNat < 2 ^ 24) :
    (valueOf (b :: bs)).toNat = b.toNat + 256 * (valueOf bs).toNat := by
  have hb := b.isLt
  have h1 : (b.zeroExtend 32).toNat = b.toNat := by
    simp
    omega
  have h2 : (valueOf bs).toNat <<< 8 % 2 ^ 32 = 2 ^ 8 * (valueOf bs).toNat := by
    rw [Nat.shiftLeft_eq]
    omega
  simp only [valueOf, BitVec.toNat_or, BitVec.toNat_shiftLeft]
  rw [h1, h2, Nat.or_comm, ← Nat.two_pow_add_eq_or_of_lt hb]
  omega

/-- A word's worth of bytes is the bytes of its value (R64). -/
theorem bytesOf_valueOf (ws : WordSize) (bs : List Byte) (h : bs.length = ws.bytes) :
    bytesOf ws.bytes (valueOf bs) = bs := by
  have low : ∀ (b : Byte) (w : Word), (b.zeroExtend 32 ||| w <<< 8).extractLsb' 0 8 = b := by
    intro b w
    ext i hi
    simp
    interval_cases i <;> simp
  have shift : ∀ (b : Byte) (w : Word), (b.zeroExtend 32 ||| w <<< 8) >>> 8 = w &&& 0xFFFFFF := by
    intro b w
    ext i hi
    simp
    interval_cases i <;> simp
  cases ws with
  | w16 =>
    match bs, h with
    | [_, _], _ =>
      simp only [WordSize.bytes, bytesOf, valueOf, low, shift]
      congr 2
      ext i hi
      simp
      interval_cases i <;> simp
  | w32 =>
    match bs, h with
    | [_, _, _, _], _ =>
      simp only [WordSize.bytes, bytesOf, valueOf, low, shift]
      congr 2
      · ext i hi
        simp
        interval_cases i <;> simp
      · congr 1
        · ext i hi
          simp
          interval_cases i <;> simp
        · congr 1
          ext i hi
          simp
          interval_cases i <;> simp

/-- A word access sees its address modulo 2^W only (R62). -/
@[simp] theorem alignedAddress_trunc (c : Cfg) (a : Word) :
    alignedAddress c (c.wordSize.trunc a) = alignedAddress c a := by
  simp [alignedAddress]

/-- A word written is read back (R64). -/
theorem Memory.readWord_writeWord {m : Memory} (ws : WordSize) (a v : Word) (hm : m.wf = true) :
    (m.writeWord ws a v).readWord ws a = ws.trunc v := by
  unfold Memory.readWord Memory.writeWord
  rw [Memory.read_writeBytes _ _ hm (by simp)
    (addressSpan_pairwise ws _ a (by cases ws <;> simp [WordSize.bytes, WordSize.bits])), valueOf_bytesOf]

/-- A word read is a word of W bits. -/
theorem inWord_readWord (ws : WordSize) (m : Memory) (a : Word) : inWord ws (m.readWord ws a) = true :=
  inWord_valueOf ws _ (by simp)

end Sys2Proof.Machine
end

