-- ==== Sys2Proof/Laws/Ops.lean ====
section
/-! SUPPORT. What each shared operation can do: one lemma per operation. -/

namespace Sys2Proof.Machine

theorem firstStop_eq_none {f : Cfg → Word → Option Refusal} {c : Cfg} {as : List Word} :
    firstStop f c as = none ↔ ∀ a ∈ as, f c a = none := by
  induction as with
  | nil => simp [firstStop]
  | cons a as ih =>
    simp only [firstStop, List.mem_cons, forall_eq_or_imp]
    cases h : f c a with
    | none => simp [ih]
    | some e => simp

theorem firstStop_eq_some {f : Cfg → Word → Option Refusal} {c : Cfg} {as : List Word} {e : Refusal}
    (h : firstStop f c as = some e) : ∃ a ∈ as, f c a = some e := by
  induction as with
  | nil => simp [firstStop] at h
  | cons a as ih =>
    simp only [firstStop] at h
    split at h
    · next e' he => exact ⟨a, List.mem_cons_self, he.trans h⟩
    · obtain ⟨b, hb, hf⟩ := ih h
      exact ⟨b, List.mem_cons_of_mem _ hb, hf⟩

theorem writeStop_eq_none {c : Cfg} {a : Word} : writeStop c a = none ↔ memKind c a = some .ram := by
  unfold writeStop
  split <;> simp_all

theorem readStop_eq_none {c : Cfg} {a : Word} : readStop c a = none ↔ memKind c a ≠ none := by
  unfold readStop
  split <;> simp_all

/-- A word store answers exactly where its address is aligned and each of its bytes is RAM, and changes memory only. -/
theorem State.storeWord_eq_ok {s t : State} {a v : Word} :
    s.storeWord a v = .ok t ↔
      ∃ x, alignedAddress s.cfg a = .ok x
        ∧ (∀ b ∈ addressSpan s.cfg.wordSize s.cfg.wordSize.bytes x, memKind s.cfg b = some .ram)
        ∧ t = { s with mem := s.mem.writeWord s.cfg.wordSize x v } := by
  unfold State.storeWord
  cases ha : alignedAddress s.cfg a with
  | error e => simp
  | ok x =>
    dsimp only
    cases hf : firstStop writeStop s.cfg (addressSpan s.cfg.wordSize s.cfg.wordSize.bytes x) with
    | none =>
      rw [firstStop_eq_none] at hf
      simp only [writeStop_eq_none] at hf
      constructor
      · rintro ⟨⟩
        exact ⟨x, rfl, hf, rfl⟩
      · rintro ⟨y, hy, -, rfl⟩
        cases hy
        rfl
    | some e =>
      obtain ⟨b, hb, hs⟩ := firstStop_eq_some hf
      constructor
      · rintro ⟨⟩
      · rintro ⟨y, hy, h, -⟩
        cases hy
        rw [writeStop_eq_none.mpr (h b hb)] at hs
        cases hs

/-- A word load answers exactly where its address is aligned and each of its bytes exists. -/
theorem State.loadWord_eq_ok {s : State} {a v : Word} :
    s.loadWord a = .ok v ↔
      ∃ x, alignedAddress s.cfg a = .ok x
        ∧ (∀ b ∈ addressSpan s.cfg.wordSize s.cfg.wordSize.bytes x, memKind s.cfg b ≠ none)
        ∧ v = s.mem.readWord s.cfg.wordSize x := by
  unfold State.loadWord
  cases ha : alignedAddress s.cfg a with
  | error e => simp
  | ok x =>
    dsimp only
    cases hf : firstStop readStop s.cfg (addressSpan s.cfg.wordSize s.cfg.wordSize.bytes x) with
    | none =>
      rw [firstStop_eq_none] at hf
      simp only [readStop_eq_none] at hf
      constructor
      · rintro ⟨⟩
        exact ⟨x, rfl, hf, rfl⟩
      · rintro ⟨y, hy, -, rfl⟩
        cases hy
        rfl
    | some e =>
      obtain ⟨b, hb, hs⟩ := firstStop_eq_some hf
      constructor
      · rintro ⟨⟩
      · rintro ⟨y, hy, h, -⟩
        cases hy
        rw [readStop_eq_none.mpr (h b hb)] at hs
        cases hs

/-- A channel's write answers exactly where each of its bytes is RAM, and changes memory only (R45, R71). -/
theorem State.storePart_eq_ok {s t : State} {a v : Word} {n : Nat} :
    s.storePart a n v = .ok t ↔
      (∀ b ∈ addressSpan s.cfg.wordSize n a, memKind s.cfg b = some .ram)
        ∧ t = { s with mem := s.mem.writeBytes (addressSpan s.cfg.wordSize n a) (bytesOf n v) } := by
  unfold State.storePart
  cases hf : firstStop writeStop s.cfg (addressSpan s.cfg.wordSize n a) with
  | none =>
    rw [firstStop_eq_none] at hf
    simp only [writeStop_eq_none] at hf
    simp only [Except.ok.injEq]
    exact ⟨fun h => ⟨hf, h.symm⟩, fun h => h.2.symm⟩
  | some e =>
    obtain ⟨b, hb, hs⟩ := firstStop_eq_some hf
    constructor
    · rintro ⟨⟩
    · rintro ⟨h, -⟩
      rw [writeStop_eq_none.mpr (h b hb)] at hs
      cases hs

/-- An instruction's word store answers exactly where a word store does, and changes memory and the note of bytes written
ahead of fetch only (R79). -/
theorem State.storeNoted_eq_ok {s t : State} {a v : Word} :
    s.storeNoted a v = .ok t ↔
      ∃ x, alignedAddress s.cfg a = .ok x
        ∧ (∀ b ∈ addressSpan s.cfg.wordSize s.cfg.wordSize.bytes x, memKind s.cfg b = some .ram)
        ∧ t = { s with
            mem := s.mem.writeWord s.cfg.wordSize x v
            written := noteWritten s.cfg.wordSize s.nextInst s.written
              (addressSpan s.cfg.wordSize s.cfg.wordSize.bytes x) } := by
  unfold State.storeNoted
  cases hw : s.storeWord a v with
  | error e =>
    constructor
    · rintro ⟨⟩
    · rintro ⟨x, hx, hr, -⟩
      rw [State.storeWord_eq_ok.mpr ⟨x, hx, hr, rfl⟩] at hw
      cases hw
  | ok u =>
    obtain ⟨x, hx, hr, rfl⟩ := State.storeWord_eq_ok.mp hw
    simp only [storedSpan, hx, Except.ok.injEq]
    exact ⟨fun h => ⟨x, rfl, hr, h.symm⟩, fun ⟨y, hy, _, h⟩ => by cases hy; exact h.symm⟩

theorem mem_noteAddress {l : List Nat} {a b : Nat} : b ∈ noteAddress l a ↔ b ∈ l ∨ b = a := by
  unfold noteAddress
  split
  · next h =>
    rw [List.contains_iff_mem] at h
    constructor
    · exact .inl
    · rintro (h' | rfl)
      · exact h'
      · exact h
  · simp

/-- What is noted: what was, and the addresses that lie in the fetch window (R79). -/
theorem mem_noteWritten {ws : WordSize} {next : Word} {l : List Nat} {as : List Word} {b : Nat} :
    b ∈ noteWritten ws next l as ↔ b ∈ l ∨ ∃ a ∈ as, inFetchWindow ws next a = true ∧ b = a.toNat := by
  induction as generalizing l with
  | nil => simp [noteWritten]
  | cons a as ih =>
    simp only [noteWritten, ih, List.mem_cons, exists_eq_or_imp]
    split
    · next h => simp [mem_noteAddress, h, or_assoc]
    · next h => simp [h]

theorem outcome_eq_next {r : Except Refusal State} {t : State} : outcome r = .next t ↔ r = .ok t := by
  cases r <;> simp [outcome]

end Sys2Proof.Machine
end

