-- ==== Sys2Proof/Laws/Channels.lean ====
section
/-! SUPPORT. What a step of a Link channel can do, said once, and the byte lanes of DBuffReg. -/

namespace Sys2Proof.Machine

/-! ### Byte lanes -/

/-- The bytes of a word are its lanes, from the least significant (R66). -/
theorem bytesOf_eq_map (n : Nat) (v : Word) : bytesOf n v = (List.range n).map (laneOf v) := by
  induction n generalizing v with
  | zero => rfl
  | succ n ih =>
    rw [bytesOf, ih, List.range_succ_eq_map, List.map_cons, List.map_map]
    congr 1
    refine List.map_congr_left fun i _ => ?_
    simp only [laneOf, Function.comp]
    ext j hj
    simp only [BitVec.getElem_extractLsb', BitVec.getLsbD_ushiftRight]
    congr 1
    omega

theorem laneOf_withLane_same (d : Word) (i : Nat) (v : Byte) (h : i < 4) : laneOf (withLane d i v) i = v := by
  simp only [laneOf, withLane]
  ext j hj
  interval_cases i <;> interval_cases j <;> simp

theorem laneOf_withLane_other (d : Word) {i j : Nat} (v : Byte) (hi : i < 4) (h : j < i) :
    laneOf (withLane d i v) j = laneOf d j := by
  simp only [laneOf, withLane]
  ext b hb
  interval_cases i <;> interval_cases j <;> interval_cases b <;> simp

/-- The bytes of a word of which the next one has just been put in place: those before it, and it (R44, R66). -/
theorem bytesOf_withLane (d : Word) (i : Nat) (v : Byte) (h : i < 4) :
    bytesOf (i + 1) (withLane d i v) = bytesOf i d ++ [v] := by
  rw [bytesOf_eq_map, bytesOf_eq_map, List.range_succ, List.map_append, List.map_singleton,
    laneOf_withLane_same d i v h]
  congr 1
  exact List.map_congr_left fun j hj => laneOf_withLane_other d v h (List.mem_range.mp hj)

/-- The bytes of a word that fit into W bits. -/
theorem bytesOf_trunc (ws : WordSize) (n : Nat) (v : Word) (h : n ≤ ws.bytes) :
    bytesOf n (ws.trunc v) = bytesOf n v := by
  rw [bytesOf_eq_map, bytesOf_eq_map]
  refine List.map_congr_left fun j hj => ?_
  have hj := List.mem_range.mp hj
  cases ws with
  | w32 => rw [WordSize.trunc_w32]
  | w16 =>
    simp only [WordSize.bytes] at h
    simp only [laneOf, WordSize.trunc, WordSize.mask]
    ext b hb
    have : j < 2 := by omega
    interval_cases j <;> interval_cases b <;> simp

/-! ### Bytes that wait -/

/-- A byte of a Link taken. -/
def State.afterByte (s : State) (k : Link) (rest : List Byte) : State :=
  s.setLink k { s.link k with fromHost := rest }

theorem State.fromHost_afterByte (s : State) (k j : Link) (rest : List Byte) :
    ((s.afterByte k rest).link j).fromHost = if j = k then rest else (s.link j).fromHost := by
  by_cases h : j = k
  · subst h
    simp [State.afterByte]
  · simp [State.afterByte, State.link_setLink_other _ _ h, h]

@[simp] theorem State.toHost_afterByte (s : State) (k j : Link) (rest : List Byte) :
    ((s.afterByte k rest).link j).toHost = (s.link j).toHost := by
  by_cases h : j = k
  · subst h
    simp [State.afterByte]
  · simp [State.afterByte, State.link_setLink_other _ _ h]

@[simp] theorem State.accepting_afterByte (s : State) (k j : Link) (rest : List Byte) :
    ((s.afterByte k rest).link j).accepting = (s.link j).accepting := by
  by_cases h : j = k
  · subst h
    simp [State.afterByte]
  · simp [State.afterByte, State.link_setLink_other _ _ h]

/-- A Link replaced by one with the same channels has every channel as it was. -/
theorem State.channel_setLink (s : State) (k : Link) (l : LinkState) (hi : l.inp = (s.link k).inp)
    (ho : l.out = (s.link k).out) (ch : ChannelId) : (s.setLink k l).channel ch = s.channel ch := by
  obtain ⟨j, d⟩ := ch
  by_cases hj : j = k
  · subst hj
    cases d
    · simp [State.channel, LinkState.channel, hi]
    · simp [State.channel, LinkState.channel, ho]
  · simp [State.channel, State.link_setLink_other _ _ hj]

@[simp] theorem State.channel_afterByte (s : State) (k : Link) (rest : List Byte) (ch : ChannelId) :
    (s.afterByte k rest).channel ch = s.channel ch :=
  s.channel_setLink k { s.link k with fromHost := rest } rfl rfl ch

/-- CountReg after a byte may have been left waiting on its channel (R42). -/
def Channel.counted (c : Channel) (waiting : List Byte) : Channel :=
  if c.transfer = .idle ∧ waiting ≠ [] then { c with count := 1 } else c

theorem Channel.counted_of_busy {c : Channel} (waiting : List Byte) (h : c.transfer ≠ .idle) : c.counted waiting = c :=
  if_neg fun g => h g.1

@[simp] theorem Channel.counted_nil (c : Channel) : c.counted [] = c := if_neg fun g => g.2 rfl

theorem Channel.counted_cons {c : Channel} (v : Byte) (rest : List Byte) (h : c.transfer = .idle) :
    c.counted (v :: rest) = { c with count := 1 } := if_pos ⟨h, by simp⟩

theorem Channel.counted_sameControl (c : Channel) (waiting : List Byte) : c.SameControl (c.counted waiting) := by
  unfold Channel.counted
  split
  · exact ⟨rfl, rfl, rfl, rfl⟩
  · exact .refl c

theorem Channel.counted_inWords {ws : WordSize} {c : Channel} (waiting : List Byte) (h : c.inWords ws = true) :
    (c.counted waiting).inWords ws = true := by
  unfold Channel.counted
  split
  · simp only [Channel.inWords, Bool.and_eq_true] at h ⊢
    exact ⟨⟨by cases ws <;> decide, h.1.2⟩, h.2⟩
  · exact h

/-- `countWaiting` is a write of its channel. -/
theorem State.countWaiting_setChannel (s : State) (k : Link) (c : Channel) :
    (s.setChannel ⟨k, .inp⟩ c).countWaiting k = s.setChannel ⟨k, .inp⟩ (c.counted (s.link k).fromHost) := by
  simp only [State.countWaiting, State.channel_setChannel_same, State.fromHost_setChannel, Channel.counted]
  split
  · cases k <;> rfl
  · rfl

@[simp] theorem State.channel_queueByte (s : State) (k : Link) (v : Byte) (ch : ChannelId) :
    (s.queueByte k v).channel ch = s.channel ch :=
  s.channel_setLink k { s.link k with fromHost := (s.link k).fromHost ++ [v] } rfl rfl ch

/-- A byte that has been shifted in, as a write of its channel (R42, R242). -/
theorem State.byteLands_eq (s : State) (k : Link) (v : Byte) :
    s.byteLands k v = (s.queueByte k v).setChannel ⟨k, .inp⟩
      (({ s.channel ⟨k, .inp⟩ with shifting := false } : Channel).counted ((s.link k).fromHost ++ [v])) := by
  have h : ((s.queueByte k v).link k).fromHost = (s.link k).fromHost ++ [v] := by simp [State.queueByte]
  rw [State.byteLands, State.countWaiting_setChannel, State.channel_queueByte, h]

/-! ### A byte of a message -/

/-- The state after a move of an input channel: its registers, the bytes that still wait, and memory. -/
def State.received (s : State) (k : Link) (rest : List Byte) (c : Channel) (m : Memory) : State :=
  { s with links := s.links.set k { s.link k with inp := c, fromHost := rest }, mem := m }

theorem State.received_eq (s : State) (k : Link) (rest : List Byte) (c : Channel) (m : Memory) :
    (({ s with mem := m } : State).afterByte k rest).setChannel ⟨k, .inp⟩ c = s.received k rest c m := by
  cases k <;> rfl

/-- Of two moves of one input channel the second says all. -/
@[simp] theorem State.received_received (s : State) (k : Link) (r1 r2 : List Byte) (c d : Channel) (m n : Memory) :
    (s.received k r1 c m).received k r2 d n = s.received k r2 d n := by
  cases k <;> rfl

@[simp] theorem State.received_cfg (s : State) (k : Link) (rest : List Byte) (c : Channel) (m : Memory) :
    (s.received k rest c m).cfg = s.cfg := rfl
@[simp] theorem State.received_turns (s : State) (k : Link) (rest : List Byte) (c : Channel) (m : Memory) :
    (s.received k rest c m).turns = s.turns := rfl
@[simp] theorem State.received_control (s : State) (k : Link) (rest : List Byte) (c : Channel) (m : Memory) :
    (s.received k rest c m).control = s.control := rfl
@[simp] theorem State.received_mem (s : State) (k : Link) (rest : List Byte) (c : Channel) (m : Memory) :
    (s.received k rest c m).mem = m := rfl

@[simp] theorem State.channel_received_same (s : State) (k : Link) (rest : List Byte) (c : Channel) (m : Memory) :
    (s.received k rest c m).channel ⟨k, .inp⟩ = c := by
  rw [← State.received_eq, State.channel_setChannel_same]

theorem State.channel_received_other (s : State) (k : Link) (rest : List Byte) (c : Channel) (m : Memory) {x : ChannelId}
    (h : x ≠ ⟨k, .inp⟩) : (s.received k rest c m).channel x = s.channel x := by
  rw [← State.received_eq, State.channel_setChannel_other _ _ h, State.channel_afterByte]
  rfl

theorem State.fromHost_received (s : State) (k j : Link) (rest : List Byte) (c : Channel) (m : Memory) :
    ((s.received k rest c m).link j).fromHost = if j = k then rest else (s.link j).fromHost := by
  rw [← State.received_eq, State.fromHost_setChannel, State.fromHost_afterByte]
  rfl

@[simp] theorem State.toHost_received (s : State) (k j : Link) (rest : List Byte) (c : Channel) (m : Memory) :
    ((s.received k rest c m).link j).toHost = (s.link j).toHost := by
  rw [← State.received_eq, State.toHost_setChannel, State.toHost_afterByte]
  rfl

@[simp] theorem State.accepting_received (s : State) (k j : Link) (rest : List Byte) (c : Channel) (m : Memory) :
    ((s.received k rest c m).link j).accepting = (s.link j).accepting := by
  rw [← State.received_eq, State.accepting_setChannel, State.accepting_afterByte]
  rfl

/-- What the end of a word that an input channel has received makes of memory (R45, R71). -/
def Channel.WordWritten (cfg : Cfg) (c : Channel) (m n : Memory) : Prop :=
  if c.transfer = .memory then
    (∀ a ∈ addressSpan cfg.wordSize c.fill c.ptr, memKind cfg a = some .ram)
      ∧ n = m.writeBytes (addressSpan cfg.wordSize c.fill c.ptr) (bytesOf c.fill c.dbuff)
  else n = m

theorem State.writeWordReceived_eq_ok {s t : State} {c : Channel} :
    s.writeWordReceived c = .ok t ↔ ∃ m, c.WordWritten s.cfg s.mem m ∧ t = { s with mem := m } := by
  unfold State.writeWordReceived Channel.WordWritten
  split
  · next h => simp [h, State.storePart_eq_ok]
  · next h =>
    simp only [h, Except.ok.injEq, reduceCtorEq, if_false, exists_eq_left]
    exact eq_comm
  · next h =>
    simp only [h, Except.ok.injEq, reduceCtorEq, if_false, exists_eq_left]
    exact eq_comm

/-- An input channel to which no byte has come does nothing. -/
theorem State.receiveByte_none {s : State} {k : Link} (h : (s.link k).fromHost = []) : s.receiveByte k = .ok s := by
  simp [State.receiveByte, h]

/-- An input channel takes a byte that does not complete its word. -/
theorem State.receiveByte_more {s : State} {k : Link} {v : Byte} {rest : List Byte} (h : (s.link k).fromHost = v :: rest)
    (hd : ((s.channel ⟨k, .inp⟩).receive s.cfg.wordSize v).wordDone s.cfg.wordSize = false) :
    s.receiveByte k
      = .ok (s.received k rest ((s.channel ⟨k, .inp⟩).receive s.cfg.wordSize v) s.mem) := by
  rw [← State.received_eq]
  simp only [State.receiveByte, h, hd]
  rfl

/-- An input channel takes a byte that completes its word. -/
theorem State.receiveByte_word {s t : State} {k : Link} {v : Byte} {rest : List Byte}
    (h : (s.link k).fromHost = v :: rest)
    (hd : ((s.channel ⟨k, .inp⟩).receive s.cfg.wordSize v).wordDone s.cfg.wordSize = true) :
    s.receiveByte k = .ok t ↔
      ∃ m, ((s.channel ⟨k, .inp⟩).receive s.cfg.wordSize v).WordWritten s.cfg s.mem m
        ∧ t = s.received k rest
            ((((s.channel ⟨k, .inp⟩).receive s.cfg.wordSize v).nextWord s.cfg.wordSize).endWord.counted rest) m := by
  simp only [← State.received_eq]
  simp only [State.receiveByte, h, hd, if_true]
  have hm : ∀ m, (({ s.setLink k { s.link k with fromHost := rest } with mem := m } : State).link k).fromHost = rest := by
    intro m
    cases k <;> rfl
  cases hw : (s.setLink k { s.link k with fromHost := rest }).writeWordReceived
      ((s.channel ⟨k, .inp⟩).receive s.cfg.wordSize v) with
  | error e =>
    constructor
    · rintro ⟨⟩
    · rintro ⟨m, h1, -⟩
      exact absurd (hw.symm.trans (State.writeWordReceived_eq_ok.mpr ⟨m, h1, rfl⟩)) (by simp)
  | ok u =>
    obtain ⟨m, h1, rfl⟩ := State.writeWordReceived_eq_ok.mp hw
    simp only [State.countWaiting_setChannel, hm, Except.ok.injEq]
    have e : ({ s.setLink k { s.link k with fromHost := rest } with mem := m } : State)
        = ({ s with mem := m } : State).afterByte k rest := rfl
    constructor
    · rintro rfl
      exact ⟨m, h1, by rw [e]⟩
    · rintro ⟨n, h2, rfl⟩
      have : n = m := by
        simp only [Channel.WordWritten] at h1 h2
        split at h1
        · next hc =>
          rw [if_pos hc] at h2
          exact h2.2.trans h1.2.symm
        · next hc =>
          rw [if_neg hc] at h2
          exact h2.trans h1.symm
      rw [e, this]

/-- The word that an output channel sends next. -/
theorem State.wordToSend_eq_ok {s : State} {c d : Channel} :
    s.wordToSend c = .ok d ↔
      if c.transfer = .memory ∧ c.fill = 0 then
        (∀ a ∈ addressSpan s.cfg.wordSize s.cfg.wordSize.bytes c.ptr, memKind s.cfg a ≠ none)
          ∧ d = { c with dbuff := s.mem.readWord s.cfg.wordSize c.ptr }.nextWord s.cfg.wordSize
      else d = c := by
  unfold State.wordToSend
  dsimp only
  split
  · cases hf : firstStop readStop s.cfg (addressSpan s.cfg.wordSize s.cfg.wordSize.bytes c.ptr) with
    | none =>
      rw [firstStop_eq_none] at hf
      simp only [readStop_eq_none] at hf
      simp only [Except.ok.injEq]
      exact ⟨fun h => ⟨hf, h.symm⟩, fun h => h.2.symm⟩
    | some e =>
      obtain ⟨b, hb, hs⟩ := firstStop_eq_some hf
      constructor
      · rintro ⟨⟩
      · rintro ⟨h, -⟩
        rw [readStop_eq_none.mpr (h b hb)] at hs
        cases hs
  · simp [eq_comm]

/-- A channel after it has sent a byte. -/
def Channel.sent (ws : WordSize) (c : Channel) : Channel :=
  if (c.countByte ws).wordDone ws then (c.countByte ws).endWord else c.countByte ws

/-- The state after moves of an output channel: its registers, and the bytes it has sent. -/
def State.sentTo (s : State) (k : Link) (vs : List Byte) (c : Channel) : State :=
  { s with links := s.links.set k { s.link k with out := c, toHost := (s.link k).toHost ++ vs } }

/-- Moves of one output channel one after the other. -/
@[simp] theorem State.sentTo_sentTo (s : State) (k : Link) (vs ws : List Byte) (c d : Channel) :
    (s.sentTo k vs c).sentTo k ws d = s.sentTo k (vs ++ ws) d := by
  cases k <;> simp [State.sentTo, State.link, PerLink.set, PerLink.get]

@[simp] theorem State.sentTo_cfg (s : State) (k : Link) (vs : List Byte) (c : Channel) : (s.sentTo k vs c).cfg = s.cfg := rfl
@[simp] theorem State.sentTo_turns (s : State) (k : Link) (vs : List Byte) (c : Channel) :
    (s.sentTo k vs c).turns = s.turns := rfl
@[simp] theorem State.sentTo_control (s : State) (k : Link) (vs : List Byte) (c : Channel) :
    (s.sentTo k vs c).control = s.control := rfl
@[simp] theorem State.sentTo_mem (s : State) (k : Link) (vs : List Byte) (c : Channel) : (s.sentTo k vs c).mem = s.mem := rfl

@[simp] theorem State.channel_sentTo_same (s : State) (k : Link) (vs : List Byte) (c : Channel) :
    (s.sentTo k vs c).channel ⟨k, .out⟩ = c := by
  cases k <;> rfl

theorem State.channel_sentTo_other (s : State) (k : Link) (vs : List Byte) (c : Channel) {x : ChannelId}
    (h : x ≠ ⟨k, .out⟩) : (s.sentTo k vs c).channel x = s.channel x := by
  obtain ⟨j, d⟩ := x
  cases d <;> cases j <;> cases k <;> first | rfl | exact absurd rfl h

theorem State.toHost_sentTo (s : State) (k j : Link) (vs : List Byte) (c : Channel) :
    ((s.sentTo k vs c).link j).toHost = if j = k then (s.link j).toHost ++ vs else (s.link j).toHost := by
  cases j <;> cases k <;> rfl

@[simp] theorem State.fromHost_sentTo (s : State) (k j : Link) (vs : List Byte) (c : Channel) :
    ((s.sentTo k vs c).link j).fromHost = (s.link j).fromHost := by
  cases j <;> cases k <;> rfl

@[simp] theorem State.accepting_sentTo (s : State) (k j : Link) (vs : List Byte) (c : Channel) :
    ((s.sentTo k vs c).link j).accepting = (s.link j).accepting := by
  cases j <;> cases k <;> rfl

/-- An output channel sends a byte to a host that accepts. -/
theorem State.sendByte_eq_ok {s t : State} {k : Link} (ha : (s.link k).accepting = true) :
    s.sendByte k = .ok t ↔
      ∃ c, s.wordToSend (s.channel ⟨k, .out⟩) = .ok c
        ∧ t = s.sentTo k [laneOf c.dbuff c.fill] (c.sent s.cfg.wordSize) := by
  have e : ∀ (v : Byte) (c : Channel),
      (s.setLink k { s.link k with toHost := (s.link k).toHost ++ [v] }).setChannel ⟨k, .out⟩ c = s.sentTo k [v] c := by
    intro v c
    cases k <;> rfl
  simp only [State.sendByte, ha, if_true]
  split
  · next e he => simp [he]
  · next c hc =>
    rw [hc]
    simp only [Except.ok.injEq, exists_eq_left', Channel.sent, ← e, ha]
    exact eq_comm

/-! ### What any step of a channel does -/

/-- What a step of the channel `ch` does to the machine: to no other channel, to no register of the CPU, and to memory only
where all it writes is RAM. -/
structure ChannelMove (s : State) (ch : ChannelId) (t : State) : Prop where
  state     : t = { s with links := t.links, mem := t.mem }
  others    : ∀ x, x ≠ ch → t.channel x = s.channel x
  transfer  : (t.channel ch).transfer = .idle ∨ (t.channel ch).transfer = (s.channel ch).transfer
  shifting  : (t.channel ch).shifting = (s.channel ch).shifting
  pushed    : (t.channel ch).pushed = (s.channel ch).pushed
  accepting : ∀ j, (t.link j).accepting = (s.link j).accepting
  inWords   : (s.channel ch).inWords s.cfg.wordSize = true → (t.channel ch).inWords s.cfg.wordSize = true
  mem       : t.mem = s.mem ∨ ∃ n a v, (∀ b ∈ addressSpan s.cfg.wordSize n a, memKind s.cfg b = some .ram)
                ∧ t.mem = s.mem.writeBytes (addressSpan s.cfg.wordSize n a) (bytesOf n v)

theorem ChannelMove.refl (s : State) (ch : ChannelId) : ChannelMove s ch s :=
  ⟨rfl, fun _ _ => rfl, .inr rfl, rfl, rfl, fun _ => rfl, id, .inl rfl⟩

theorem Channel.inWords_iff (ws : WordSize) (c : Channel) :
    c.inWords ws = true ↔ inWord ws c.count = true ∧ inWord ws c.ptr = true ∧ inWord ws c.dbuff = true := by
  simp [Channel.inWords, and_assoc]

theorem Channel.receive_inWords {ws : WordSize} {c : Channel} (v : Byte) (h : c.inWords ws = true) :
    (c.receive ws v).inWords ws = true := by
  rw [Channel.inWords_iff] at h ⊢
  exact ⟨inWord_trunc _ _, h.2.1, inWord_trunc _ _⟩

theorem Channel.endWord_inWords {ws : WordSize} {c : Channel} (h : c.inWords ws = true) : c.endWord.inWords ws = true := h

theorem Channel.nextWord_inWords {ws : WordSize} {c : Channel} (h : c.inWords ws = true) :
    (c.nextWord ws).inWords ws = true := by
  rw [Channel.inWords_iff] at h ⊢
  exact ⟨h.1, inWord_trunc _ _, h.2.2⟩

theorem Channel.enable_inWords {ws : WordSize} {c : Channel} (x : Transfer) (n : Nat) {a : Word} (h : c.inWords ws = true)
    (ha : inWord ws a = true) : (c.enable ws x n a).inWords ws = true := by
  rw [Channel.inWords_iff] at h ⊢
  exact ⟨inWord_trunc _ _, ha, h.2.2⟩

theorem Channel.sent_inWords {ws : WordSize} {c : Channel} (h : c.inWords ws = true) : (c.sent ws).inWords ws = true := by
  have hc : (c.countByte ws).inWords ws = true := by
    rw [Channel.inWords_iff] at h ⊢
    exact ⟨inWord_trunc _ _, h.2⟩
  unfold Channel.sent
  split
  · exact hc
  · exact hc

theorem Channel.endWord_transfer_or (c : Channel) : c.endWord.transfer = .idle ∨ c.endWord.transfer = c.transfer := by
  rw [Channel.endWord_transfer]
  split
  · exact .inl rfl
  · exact .inr rfl

theorem State.receiveByte_move {s t : State} {k : Link} (h : s.receiveByte k = .ok t) : ChannelMove s ⟨k, .inp⟩ t := by
  cases hf : (s.link k).fromHost with
  | nil =>
    rw [State.receiveByte_none hf] at h
    cases h
    exact .refl s _
  | cons v rest =>
    cases hd : ((s.channel ⟨k, .inp⟩).receive s.cfg.wordSize v).wordDone s.cfg.wordSize with
    | false =>
      rw [State.receiveByte_more hf hd] at h
      cases h
      exact ⟨rfl, fun x hx => State.channel_received_other _ _ _ _ _ hx,
        .inr (by rw [State.channel_received_same]; rfl), by rw [State.channel_received_same]; rfl,
        by rw [State.channel_received_same]; rfl, fun j => by simp,
        fun hw => by rw [State.channel_received_same]; exact Channel.receive_inWords v hw, .inl rfl⟩
    | true =>
      obtain ⟨m, hm, rfl⟩ := (State.receiveByte_word hf hd).mp h
      have hc := Channel.counted_sameControl
        (((s.channel ⟨k, .inp⟩).receive s.cfg.wordSize v).nextWord s.cfg.wordSize).endWord rest
      refine ⟨rfl, fun x hx => State.channel_received_other _ _ _ _ _ hx, ?_, ?_, ?_, fun j => by simp, fun hw => ?_, ?_⟩
      · rw [State.channel_received_same, hc.1]
        exact Channel.endWord_transfer_or _
      · rw [State.channel_received_same, hc.2.1]
        rfl
      · rw [State.channel_received_same, hc.2.2.2]
        rfl
      · rw [State.channel_received_same]
        exact Channel.counted_inWords _ (Channel.endWord_inWords (Channel.nextWord_inWords (Channel.receive_inWords v hw)))
      · unfold Channel.WordWritten at hm
        split at hm
        · exact .inr ⟨_, _, _, hm⟩
        · exact .inl hm

theorem State.sendByte_move {s t : State} {k : Link} (h : s.sendByte k = .ok t) : ChannelMove s ⟨k, .out⟩ t := by
  cases ha : (s.link k).accepting with
  | false =>
    simp only [State.sendByte, ha] at h
    cases h
    exact .refl s _
  | true =>
    obtain ⟨c, hc, rfl⟩ := (State.sendByte_eq_ok ha).mp h
    rw [State.wordToSend_eq_ok] at hc
    have hs : (s.channel ⟨k, .out⟩).transfer = c.transfer ∧ (s.channel ⟨k, .out⟩).shifting = c.shifting
        ∧ (s.channel ⟨k, .out⟩).pushed = c.pushed
        ∧ ((s.channel ⟨k, .out⟩).inWords s.cfg.wordSize = true → c.inWords s.cfg.wordSize = true) := by
      split at hc
      · obtain ⟨-, rfl⟩ := hc
        refine ⟨rfl, rfl, rfl, fun hw => Channel.nextWord_inWords ?_⟩
        rw [Channel.inWords_iff] at hw ⊢
        exact ⟨hw.1, hw.2.1, inWord_readWord _ _ _⟩
      · subst hc
        exact ⟨rfl, rfl, rfl, id⟩
    have hsent : (c.sent s.cfg.wordSize).shifting = c.shifting ∧ (c.sent s.cfg.wordSize).pushed = c.pushed
        ∧ ((c.sent s.cfg.wordSize).transfer = .idle ∨ (c.sent s.cfg.wordSize).transfer = c.transfer) := by
      unfold Channel.sent
      split
      · exact ⟨rfl, rfl, Channel.endWord_transfer_or _⟩
      · exact ⟨rfl, rfl, .inr rfl⟩
    refine ⟨rfl, fun x hx => State.channel_sentTo_other _ _ _ _ hx, ?_, ?_, ?_, fun j => by simp, fun hw => ?_, .inl rfl⟩
    · rw [State.channel_sentTo_same, hs.1]
      exact hsent.2.2
    · rw [State.channel_sentTo_same, hs.2.1]
      exact hsent.1
    · rw [State.channel_sentTo_same, hs.2.2.1]
      exact hsent.2.1
    · rw [State.channel_sentTo_same]
      exact Channel.sent_inWords (hs.2.2.2 hw)

/-- Everything a channel's step can do. -/
theorem channelStep_move {s t : State} {ch : ChannelId} (h : channelStep ch s = .ok t) : ChannelMove s ch t := by
  unfold channelStep at h
  split at h
  · cases h
    exact .refl s _
  · split at h
    · cases h
    · obtain ⟨k, d⟩ := ch
      cases d
      · exact State.receiveByte_move h
      · exact State.sendByte_move h

/-- A channel with a message in progress, not pushed, moves it. -/
theorem channelStep_inp {s : State} {k : Link} (hr : s.control.released = true)
    (ht : (s.channel ⟨k, .inp⟩).transfer ≠ .idle) (hp : (s.channel ⟨k, .inp⟩).pushed = false) :
    channelStep ⟨k, .inp⟩ s = s.receiveByte k := by
  simp [channelStep, hr, ht, hp]

theorem channelStep_out {s : State} {k : Link} (hr : s.control.released = true)
    (ht : (s.channel ⟨k, .out⟩).transfer ≠ .idle) (hp : (s.channel ⟨k, .out⟩).pushed = false) :
    channelStep ⟨k, .out⟩ s = s.sendByte k := by
  simp [channelStep, hr, ht, hp]

end Sys2Proof.Machine
end

