-- ==== Sys2Proof/Laws/Start.lean ====
section
/-! SUPPORT. What the CPU can do in the Link phase of `start`, said once. -/

namespace Sys2Proof.Machine

theorem State.takeByte_eq_some {s t : State} {k : Link} {v : Byte} :
    s.takeByte k = some (v, t) ↔
      ∃ rest, (s.link k).fromHost = v :: rest ∧ t = s.setLink k { s.link k with fromHost := rest } := by
  unfold State.takeByte
  cases h : (s.link k).fromHost with
  | nil => simp
  | cons b rest =>
    simp only [Option.some.injEq, Prod.mk.injEq, List.cons.injEq]
    constructor
    · rintro ⟨rfl, rfl⟩
      exact ⟨rest, ⟨rfl, rfl⟩, rfl⟩
    · rintro ⟨r, ⟨rfl, rfl⟩, rfl⟩
      exact ⟨rfl, rfl⟩

theorem State.takeByte_eq_none {s : State} {k : Link} : s.takeByte k = none ↔ (s.link k).fromHost = [] := by
  unfold State.takeByte
  cases h : (s.link k).fromHost <;> simp

theorem State.mem_pendingLinks {s : State} {k : Link} : k ∈ s.pendingLinks ↔ (s.link k).fromHost ≠ [] := by
  simp only [State.pendingLinks, List.mem_filter, Bool.not_eq_true', List.isEmpty_eq_false_iff]
  exact ⟨fun h => h.2, fun h => ⟨by cases k <;> simp, h⟩⟩

/-- The poll answers a Link that holds a byte, and takes at most one free value (R128). -/
theorem State.pollLinkInputs_eq_some {s t : State} {k : Link} (h : s.pollLinkInputs = some (k, t)) :
    (s.link k).fromHost ≠ [] ∧ t = { s with draws := t.draws } := by
  unfold State.pollLinkInputs at h
  split at h
  · cases h
  · next j hj =>
    cases h
    exact ⟨State.mem_pendingLinks.mp (by rw [hj]; exact List.mem_singleton_self _), rfl⟩
  · next j rest _ hj =>
    simp only [Option.some.injEq, Prod.mk.injEq] at h
    obtain ⟨hk, rfl⟩ := h
    refine ⟨State.mem_pendingLinks.mp ?_, rfl⟩
    rw [hj, ← hk]
    have hlt : Config.freePoll s.draws % (j :: rest).length < (j :: rest).length := Nat.mod_lt _ (by simp)
    rw [List.getElem?_eq_getElem hlt]
    exact List.getElem_mem hlt

theorem State.pollLinkInputs_eq_none {s : State} : s.pollLinkInputs = none ↔ ∀ k, (s.link k).fromHost = [] := by
  have key : s.pollLinkInputs = none ↔ s.pendingLinks = [] := by
    unfold State.pollLinkInputs
    split <;> simp_all
  rw [key, List.eq_nil_iff_forall_not_mem]
  simp only [State.mem_pendingLinks, ne_eq, Decidable.not_not]

/-- With one Link holding bytes the poll answers that Link and takes no free value. -/
theorem State.pollLinkInputs_of_only {s : State} {k : Link} (h : (s.link k).fromHost ≠ [])
    (others : ∀ j, j ≠ k → (s.link j).fromHost = []) : s.pollLinkInputs = some (k, s) := by
  have hp : s.pendingLinks = [k] := by
    unfold State.pendingLinks
    cases k <;> simp [h, others]
  unfold State.pollLinkInputs
  rw [hp]

@[simp] theorem State.link_bootAt (s : State) (b : Boot) (phase : BootPhase) (j : Link) :
    (s.bootAt b phase).link j = s.link j := rfl

@[simp] theorem State.channel_bootAt (s : State) (b : Boot) (phase : BootPhase) (ch : ChannelId) :
    (s.bootAt b phase).channel ch = s.channel ch := rfl

/-! ### Waiting for a channel -/

/-- `start` waits for a channel exactly where its phase is about it and its message is in progress. -/
theorem State.waitingFor_eq_some {s : State} {ch : ChannelId} :
    s.waitingFor = some ch ↔
      ∃ b, s.control = .boot b ∧ b.phase.channel = some ch ∧ (s.channel ch).transfer ≠ .idle := by
  unfold State.waitingFor
  split
  · next b hb =>
    simp only [hb, Control.boot.injEq, exists_eq_left']
    split
    · next h => simp [h]
    · next c h =>
      split
      · next hi =>
        simp only [reduceCtorEq, h, Option.some.injEq, false_iff, not_and, ne_eq, Decidable.not_not]
        rintro rfl
        exact hi
      · next hi =>
        simp only [Option.some.injEq, h]
        exact ⟨fun e => ⟨e, e ▸ hi⟩, fun e => e.1⟩
  all_goals simp_all

theorem State.waitingFor_eq_none {s : State} :
    s.waitingFor = none ↔
      ∀ b, s.control = .boot b → ∀ ch, b.phase.channel = some ch → (s.channel ch).transfer = .idle := by
  rw [Option.eq_none_iff_forall_ne_some]
  simp only [ne_eq, State.waitingFor_eq_some, not_exists, not_and, Decidable.not_not]
  exact ⟨fun h b hb ch hc => h ch b hb hc, fun h ch b hb hc => h b hb ch hc⟩

/-! ### The CPU's part -/

/-- Every way in which the CPU moves the Link phase on. -/
inductive BootMove (s : State) (b : Boot) : State → Prop where
  | word (k : Link) (p : Protocol) (v : Byte) (rest : List Byte) (n : Nat) (phase : b.phase = .poll)
      (bytes : (s.link k).fromHost = v :: rest) (first : v = match p with | .poke => 0 | .peek => 1)
      (fresh : (s.channel ⟨k, .inp⟩).pushed = false) :
      BootMove s b (((({ s with draws := n } : State).afterByte k rest).enable ⟨k, .inp⟩ .buffered
        s.cfg.wordSize.bytes s.cfg.memStart).bootAt { b with usedIn := b.usedIn.set k true } (.address k p))
  | message (k : Link) (v : Byte) (rest : List Byte) (n : Nat) (phase : b.phase = .poll)
      (bytes : (s.link k).fromHost = v :: rest) (first : 2 ≤ v.toNat)
      (fresh : (s.channel ⟨k, .inp⟩).pushed = false) :
      BootMove s b (((({ s with draws := n } : State).afterByte k rest).enable ⟨k, .inp⟩ .memory v.toNat
        s.cfg.memStart).bootAt { b with usedIn := b.usedIn.set k true } (.code k v.toNat))
  | pokeAddress (k : Link) (phase : b.phase = .address k .poke) :
      BootMove s b ((s.draw.2.enable ⟨k, .inp⟩ .buffered s.cfg.wordSize.bytes s.draw.1).bootAt b
        (.data k (s.channel ⟨k, .inp⟩).dbuff))
  | peekAddress (k : Link) (w : Word) (phase : b.phase = .address k .peek)
      (load : s.loadWord (s.channel ⟨k, .inp⟩).dbuff = .ok w) (fresh : (s.channel ⟨k, .out⟩).pushed = false) :
      BootMove s b ((s.enableOutput k w).bootAt { b with usedOut := b.usedOut.set k true } (.output k))
  | pokeData (k : Link) (a : Word) (u : State) (phase : b.phase = .data k a)
      (store : s.storeWord a (s.channel ⟨k, .inp⟩).dbuff = .ok u) : BootMove s b (u.bootAt b .poll)
  | peekDone (k : Link) (phase : b.phase = .output k) : BootMove s b (s.bootAt b .poll)
  | booted (k : Link) (length : Nat) (phase : b.phase = .code k length) : BootMove s b (s.finishBoot b k length)

/-- The CPU waits, for a channel or for a byte. -/
theorem State.startStep_wait {s : State} {b : Boot}
    (h : s.waitingFor.isSome = true ∨ b.phase = .poll ∧ ∀ k, (s.link k).fromHost = []) : s.startStep b = .ok s := by
  unfold State.startStep
  rcases h with h | ⟨hp, hf⟩
  · rw [if_pos h]
  · split
    · rfl
    · rw [hp]
      simp [State.pollLinkInputs_eq_none.mpr hf]

/-- The first byte of a Link examined (R129). -/
theorem State.firstByte_eq_ok {s t : State} {b : Boot} {k : Link} {v : Byte} :
    s.firstByte b k v = .ok t ↔ (s.channel ⟨k, .inp⟩).pushed = false ∧
      ((∃ p, (v = match p with | Protocol.poke => 0 | .peek => 1)
          ∧ t = (s.enable ⟨k, .inp⟩ .buffered s.cfg.wordSize.bytes s.cfg.memStart).bootAt
              { b with usedIn := b.usedIn.set k true } (.address k p))
        ∨ 2 ≤ v.toNat ∧ t = (s.enable ⟨k, .inp⟩ .memory v.toNat s.cfg.memStart).bootAt
              { b with usedIn := b.usedIn.set k true } (.code k v.toNat)) := by
  unfold State.firstByte
  cases hp : (s.channel ⟨k, .inp⟩).pushed with
  | true => simp
  | false =>
    simp only [Bool.false_eq_true, if_false, true_and]
    split
    · next h0 =>
      subst h0
      constructor
      · rintro ⟨⟩
        exact .inl ⟨.poke, rfl, rfl⟩
      · rintro (⟨p, hv, rfl⟩ | ⟨hv, -⟩)
        · cases p
          · rfl
          · exact absurd hv (by decide)
        · exact absurd hv (by decide)
    · next h0 =>
      split
      · next h1 =>
        subst h1
        constructor
        · rintro ⟨⟩
          exact .inl ⟨.peek, rfl, rfl⟩
        · rintro (⟨p, hv, rfl⟩ | ⟨hv, -⟩)
          · cases p
            · exact absurd hv (by decide)
            · rfl
          · exact absurd hv (by decide)
      · next h1 =>
        have h2 : 2 ≤ v.toNat := by
          have n0 : v.toNat ≠ 0 := fun h => h0 (BitVec.eq_of_toNat_eq h)
          have n1 : v.toNat ≠ 1 := fun h => h1 (BitVec.eq_of_toNat_eq h)
          omega
        constructor
        · rintro ⟨⟩
          exact .inr ⟨h2, rfl⟩
        · rintro (⟨p, hv, rfl⟩ | ⟨-, rfl⟩)
          · cases p
            · exact absurd hv h0
            · exact absurd hv h1
          · rfl

/-- Everything the CPU can do in the Link phase: wait, or, with no message in progress that the phase waits for, one of the
moves. -/
theorem State.startStep_cases {s t : State} {b : Boot} (h : s.startStep b = .ok t) :
    t = s ∨ s.waitingFor = none ∧ BootMove s b t := by
  unfold State.startStep at h
  split at h
  · cases h
    exact .inl rfl
  · next hw =>
    rw [Bool.not_eq_true, Option.isSome_eq_false_iff, Option.isNone_iff_eq_none] at hw
    split at h
    · next hph =>
      split at h
      · cases h
        exact .inl rfl
      · next k s1 hp =>
        obtain ⟨-, hs1⟩ := State.pollLinkInputs_eq_some hp
        split at h
        · cases h
          obtain ⟨hne, -⟩ := State.pollLinkInputs_eq_some hp
          next hn => 
            rw [State.takeByte_eq_none, hs1] at hn
            exact absurd hn hne
        · next v s2 ht =>
          obtain ⟨rest, hb, rfl⟩ := State.takeByte_eq_some.mp ht
          obtain ⟨hf, hc⟩ := State.firstByte_eq_ok.mp h
          have e : s1.setLink k { s1.link k with fromHost := rest }
              = ({ s with draws := s1.draws } : State).afterByte k rest := by
            rw [hs1]
            rfl
          rw [e] at hf hc
          rw [hs1] at hb
          rw [State.channel_afterByte] at hf
          rcases hc with ⟨p, hv, rfl⟩ | ⟨hv, rfl⟩
          · exact .inr ⟨hw, .word k p v rest _ hph hb hv hf⟩
          · exact .inr ⟨hw, .message k v rest _ hph hb hv hf⟩
    · next k p hph =>
      cases p with
      | poke =>
        cases h
        exact .inr ⟨hw, .pokeAddress k hph⟩
      | peek =>
        simp only [State.addressReceived] at h
        split at h
        · cases h
        · next w hl =>
          split at h
          · cases h
          · next hf =>
            cases h
            exact .inr ⟨hw, .peekAddress k w hph hl (by simpa using hf)⟩
    · next k a hph =>
      simp only [State.dataReceived] at h
      split at h
      · cases h
      · next u hu =>
        cases h
        exact .inr ⟨hw, .pokeData k a u hph hu⟩
    · next k hph =>
      cases h
      exact .inr ⟨hw, .peekDone k hph⟩
    · next k length hph =>
      cases h
      exact .inr ⟨hw, .booted k length hph⟩

/-- The first effects of `start`: the boot from ROM, or the Link phase begun (R120, R124). -/
theorem State.beginStart_cases (s : State) :
    s.beginStart = { s with timerAlarmHigh := false, timerAlarmLow := false, timesliceCount := 0 }.bootFromRom
      ∨ s.beginStart = { s with
          timerAlarmHigh := false, timerAlarmLow := false, timesliceCount := 0
          control := .boot ⟨.poll, s.inputCounts, ⟨false, false, false, false⟩, ⟨false, false, false, false⟩⟩ } := by
  unfold State.beginStart
  dsimp only
  split
  · exact .inl rfl
  · exact .inr rfl

/-- Outside the Link phase of `start` the machine by itself does what the CPU does. -/
theorem ownStep_of_not_boot {s : State} (h : ∀ b, s.control ≠ .boot b) : ownStep s = cpuStep s := by
  have hw : s.waitingFor = none := State.waitingFor_eq_none.mpr fun b hb => absurd hb (h b)
  simp only [ownStep, hw]

/-- A CPU step executes the instruction that fetch finds (R95, R97). -/
theorem cpuStep_exec {s : State} {i : Instr} (hc : s.control = .run) (hf : s.fetch = .ok i) : cpuStep s = exec i s := by
  simp only [cpuStep, hc, State.runInstr, hf]

/-- With no turns left a step is the machine's by itself. -/
theorem step_own {s : State} (ho : s.oneProcess = true) (ht : s.turns = []) : step s = ownStep s := by
  rw [step, State.guarded_of ho, ht]

/-- A step of the agent whose turn is next. -/
theorem step_turn {s : State} {x : Turn} {rest : List Turn} (ho : s.oneProcess = true) (ht : s.turns = x :: rest) :
    step s = agentStep x { s with turns := rest } := by
  rw [step, State.guarded_of ho, ht]

/-- With no turns left and the processor running, a step is the CPU's. -/
theorem step_run {s : State} (ho : s.oneProcess = true) (ht : s.turns = []) (hc : s.control = .run) :
    step s = cpuStep s := by
  rw [step_own ho ht]
  exact ownStep_of_not_boot fun b hb => by rw [hc] at hb; cases hb

/-- Everything the machine by itself can do: a step of the channel that `start` waits for, or of the CPU. -/
theorem ownStep_cases {s t : State} (h : ownStep s = .next t) :
    (∃ ch, s.waitingFor = some ch ∧ channelStep ch s = .ok t) ∨ s.waitingFor = none ∧ cpuStep s = .next t := by
  unfold ownStep at h
  split at h
  · next ch hw => exact .inl ⟨ch, hw, outcome_eq_next.mp h⟩
  · next hw => exact .inr ⟨hw, h⟩

/-- Everything a CPU step can do: wait, execute the instruction at IPtr, or a step of the Link phase. -/
theorem cpuStep_cases {s t : State} (h : cpuStep s = .next t) :
    t = s
    ∨ (s.control = .run ∧ ∃ i, s.fetch = .ok i ∧ exec i s = .next t)
    ∨ ∃ b, s.control = .boot b ∧ s.waitingFor = none ∧ BootMove s b t := by
  unfold cpuStep at h
  split at h
  · next hc =>
    unfold State.runInstr at h
    split at h
    · next i hi => exact .inr (.inl ⟨hc, i, hi, h⟩)
    · next e he => cases h
  · next b hb =>
    rcases State.startStep_cases (outcome_eq_next.mp h) with rfl | ⟨hw, hm⟩
    · exact .inl rfl
    · exact .inr (.inr ⟨b, hb, hw, hm⟩)
  · cases h
    exact .inl rfl
  · cases h
    exact .inl rfl
  · cases h
    exact .inl rfl

/-- Everything a step can do, by whose turn it is, under R241's conditions. -/
theorem step_cases {s t : State} (h : step s = .next t) :
    s.oneProcess = true
    ∧ ((s.turns = [] ∧ ownStep s = .next t)
      ∨ (∃ rest, s.turns = .cpu :: rest ∧ cpuStep { s with turns := rest } = .next t)
      ∨ (∃ ch rest, s.turns = .channel ch :: rest ∧ channelStep ch { s with turns := rest } = .ok t)
      ∨ ∃ a rest, s.turns = .host a :: rest ∧ hostStep a { s with turns := rest } = .ok t) := by
  obtain ⟨ho, h⟩ := State.guarded_eq_next.mp h
  refine ⟨ho, ?_⟩
  split at h
  · next ht => exact .inl ⟨ht, h⟩
  · next x rest ht =>
    cases x with
    | cpu => exact .inr (.inl ⟨rest, ht, h⟩)
    | channel ch => exact .inr (.inr (.inl ⟨ch, rest, ht, outcome_eq_next.mp h⟩))
    | host a => exact .inr (.inr (.inr ⟨a, rest, ht, outcome_eq_next.mp h⟩))

end Sys2Proof.Machine
end

