-- ==== Sys2Proof/Laws/Boot.lean ====
section
/-! SUPPORT. Runs of the machine by itself in the Link phase of `start`: whole words and whole messages, byte by byte, and the
phase's end. -/

namespace Sys2Proof.Machine

/-! ### Bytes in memory -/

theorem addressSpan_append (ws : WordSize) (n m : Nat) (a : Word) :
    addressSpan ws (n + m) a = addressSpan ws n a ++ addressSpan ws m (a + BitVec.ofNat 32 n) := by
  induction n generalizing a with
  | zero => simp [addressSpan]
  | succ n ih =>
    rw [Nat.add_right_comm, addressSpan, ih, addressSpan, List.cons_append, BitVec.add_assoc]
    congr 4
    apply BitVec.eq_of_toNat_eq
    simp [BitVec.toNat_add, BitVec.toNat_ofNat, Nat.add_comm]

/-- A span sees its first address modulo 2^W only (R62). -/
@[simp] theorem addressSpan_trunc (ws : WordSize) (n : Nat) (a : Word) :
    addressSpan ws n (ws.trunc a) = addressSpan ws n a := by
  rw [addressSpan_eq_map, addressSpan_eq_map]
  refine List.map_congr_left fun i _ => ?_
  apply BitVec.eq_of_toNat_eq
  rw [WordSize.toNat_trunc_add_ofNat, WordSize.toNat_trunc_add_ofNat, WordSize.toNat_trunc]
  simp

theorem Memory.writeBytes_append (m : Memory) (as bs : List Word) (vs ws : List Byte) (h : as.length = vs.length) :
    m.writeBytes (as ++ bs) (vs ++ ws) = (m.writeBytes as vs).writeBytes bs ws := by
  induction as generalizing m vs with
  | nil =>
    cases vs with
    | nil => rfl
    | cons _ _ => simp at h
  | cons a as ih =>
    cases vs with
    | nil => simp at h
    | cons v vs => exact ih _ _ (by simpa using h)

/-! ### CountReg counts up to zero (R42) -/

theorem count_succ (ws : WordSize) (n : Nat) :
    ws.trunc (ws.trunc (0 - BitVec.ofNat 32 (n + 1)) + 1) = ws.trunc (0 - BitVec.ofNat 32 n) := by
  have h0 : (0 : Word).toNat = 0 := rfl
  have h1 : (1 : Word).toNat = 1 := rfl
  apply BitVec.eq_of_toNat_eq
  cases ws <;>
  · simp only [WordSize.toNat_trunc, BitVec.toNat_add, BitVec.toNat_sub, BitVec.toNat_ofNat, WordSize.bits, h0, h1]
    norm_num
    omega

theorem count_eq_zero {ws : WordSize} {n : Nat} (h : n < 2 ^ 16) : ws.trunc (0 - BitVec.ofNat 32 n) = 0 ↔ n = 0 := by
  constructor
  · intro e
    have := congrArg BitVec.toNat e
    cases ws <;>
    · simp only [WordSize.toNat_trunc, BitVec.toNat_sub, BitVec.toNat_ofNat, WordSize.bits] at this
      omega
  · rintro rfl
    cases ws <;> decide

/-! ### Steps of the machine by itself -/

theorem run_succ {n : Nat} {s t : State} (h : step s = .next t) :
    Host.Core.run Sys2Proof.core (n + 1) s = Host.Core.run Sys2Proof.core n t := by
  have h : Sys2Proof.core.step s = .next t := h
  simp only [Host.Core.run, h]

/-- With no turns left, the channel that `start` waits for moves. -/
theorem step_channel {s : State} {b : Boot} {ch : ChannelId} (ho : s.oneProcess = true) (ht : s.turns = [])
    (hc : s.control = .boot b) (hp : b.phase.channel = some ch) (hx : (s.channel ch).transfer ≠ .idle) :
    step s = outcome (channelStep ch s) := by
  simp only [step_own ho ht, ownStep, State.waitingFor_eq_some.mpr ⟨b, hc, hp, hx⟩]

/-- With no turns left and nothing to wait for, the CPU moves the Link phase on. -/
theorem step_boot {s : State} {b : Boot} (ho : s.oneProcess = true) (ht : s.turns = []) (hc : s.control = .boot b)
    (hw : s.waitingFor = none) : step s = outcome (s.startStep b) := by
  simp only [step_own ho ht, ownStep, hw, cpuStep, hc]

/-- Moves of the channel that `start` waits for keep R241's conditions. -/
theorem State.oneProcess_of_own {s t : State} {ch : ChannelId} (h : s.oneProcess = true)
    (ht : t = { s with control := t.control, links := t.links, mem := t.mem, draws := t.draws })
    (hc : t.control.ownChannel = some ch) (hx : ∀ x, x ≠ ch → (t.channel x).transfer = (s.channel x).transfer)
    (hs : ∀ x, x ≠ ch → s.control.ownChannel ≠ some x) : t.oneProcess = true := by
  refine State.oneProcess_of_eq h (by rw [ht]) (by rw [ht]) fun x hi hn => ?_
  have hne : x ≠ ch := fun e => hn (by rw [hc, e])
  exact ⟨hx x hne ▸ hi, hs x hne⟩

/-- The memory after the bytes of a message: those that a message to memory has written (R71). -/
def messageMemory (x : Transfer) (ws : WordSize) (m : Memory) (a : Word) (bs : List Byte) : Memory :=
  if x = .memory then m.writeBytes (addressSpan ws bs.length a) bs else m

/-- The rest of a message received, byte by byte (R42 to R45): `got` is what DBuffReg holds of the word at PtrReg, `bs` what
is to come. -/
theorem run_receives (k : Link) (rest : List Byte) :
    ∀ (bs got : List Byte) (n : Nat) (u : State) (b : Boot) (c : Channel), u.channel ⟨k, .inp⟩ = c →
      u.oneProcess = true → u.turns = [] →
      u.control = .boot b → b.phase.channel = some ⟨k, .inp⟩ → c.transfer ≠ .idle → c.pushed = false →
      c.count = u.cfg.wordSize.trunc (0 - BitVec.ofNat 32 bs.length) → bs ≠ [] → bs.length < 2 ^ 16 →
      c.fill = got.length → got.length < u.cfg.wordSize.bytes → bytesOf got.length c.dbuff = got →
      (u.link k).fromHost = bs ++ rest →
      (c.transfer = .memory → ∀ a ∈ addressSpan u.cfg.wordSize (got ++ bs).length c.ptr, memKind u.cfg a = some .ram) →
      ∃ d, Host.Core.run Sys2Proof.core (n + bs.length) u = Host.Core.run Sys2Proof.core n
          (u.received k rest d (messageMemory c.transfer u.cfg.wordSize u.mem c.ptr (got ++ bs)))
        ∧ d.transfer = .idle ∧ d.shifting = c.shifting ∧ d.pushed = false
        ∧ d.count = (if rest = [] then 0 else 1)
        ∧ ((got ++ bs).length = u.cfg.wordSize.bytes → d.dbuff = valueOf (got ++ bs)) := by
  intro bs
  induction bs with
  | nil => exact fun _ _ _ _ _ _ _ _ _ _ _ _ _ h => absurd rfl h
  | cons v bs ih =>
    intro got n u b c hu ho ht hc hp hx hpu hcount _ hlen hfill hgot hd hf hram
    have hws : u.cfg.wordSize.bytes ≤ 4 := by cases u.cfg.wordSize <;> decide
    have hrel : u.control.released = true := by rw [hc]; rfl
    have hrc : (c.receive u.cfg.wordSize v).count = u.cfg.wordSize.trunc (0 - BitVec.ofNat 32 bs.length) := by
      show u.cfg.wordSize.trunc (c.count + 1) = _
      rw [hcount, List.length_cons, count_succ]
    have hrd : bytesOf (got.length + 1) (c.receive u.cfg.wordSize v).dbuff = got ++ [v] := by
      show bytesOf (got.length + 1) (u.cfg.wordSize.trunc (withLane c.dbuff c.fill v)) = _
      rw [bytesOf_trunc _ _ _ (by omega), hfill, bytesOf_withLane _ _ _ (by omega), hd]
    have hrf : (c.receive u.cfg.wordSize v).fill = got.length + 1 := by rw [← hfill]; rfl
    have hstep : step u = outcome (u.receiveByte k) := by
      rw [step_channel ho ht hc hp (hu ▸ hx), channelStep_inp hrel (hu ▸ hx) (hu ▸ hpu)]
    have hkeep : ∀ r d m, (u.received k r d m).oneProcess = true := fun r d m =>
      State.oneProcess_of_own ho rfl (by show u.control.ownChannel = _; rw [hc]; exact hp)
        (fun x hx => by rw [State.channel_received_other _ _ _ _ _ hx])
        (fun x hx e => hx (Option.some.inj (by rw [← e, hc]; exact hp)))
    have hzero : (c.receive u.cfg.wordSize v).count = 0 ↔ bs = [] := by
      rw [hrc, count_eq_zero (by simp at hlen; omega), List.length_eq_zero_iff]
    have hram' : ∀ m, m ≤ (got ++ v :: bs).length → c.transfer = .memory →
        ∀ a ∈ addressSpan u.cfg.wordSize m c.ptr, memKind u.cfg a = some .ram := by
      intro m hm hxm a ha
      refine hram hxm a ?_
      obtain ⟨j, hj⟩ := Nat.exists_eq_add_of_le hm
      rw [hj, addressSpan_append]
      exact List.mem_append_left _ ha
    cases hdone : (c.receive u.cfg.wordSize v).wordDone u.cfg.wordSize with
    | false =>
      simp only [Channel.wordDone, Bool.or_eq_false_iff, beq_eq_false_iff_ne, ne_eq, hzero, decide_eq_false_iff_not,
        hrf] at hdone
      have hmore := State.receiveByte_more (v := v) (rest := bs ++ rest) hf (by
        simp only [hu, Channel.wordDone, Bool.or_eq_false_iff, beq_eq_false_iff_ne, ne_eq, hzero,
          decide_eq_false_iff_not, hrf]
        exact hdone)
      rw [hmore, hu] at hstep
      obtain ⟨d, hrun, h1, h2, h3, h4, h5⟩ := ih (got ++ [v]) n
        (u.received k (bs ++ rest) (c.receive u.cfg.wordSize v) u.mem) b (c.receive u.cfg.wordSize v)
        (State.channel_received_same _ _ _ _ _) (hkeep _ _ _) ht hc hp hx hpu hrc hdone.1 (by simp at hlen; omega) (by simp [hrf])
        (by simp; show got.length + 1 < u.cfg.wordSize.bytes; omega) (by simpa using hrd)
        (by rw [State.fromHost_received, if_pos rfl])
        (by
          intro hxm
          rw [List.append_assoc]
          exact hram hxm)
      refine ⟨d, ?_, h1, h2, h3, h4, by rw [List.append_assoc] at h5; exact h5⟩
      rw [List.length_cons, ← Nat.add_assoc, run_succ hstep, hrun, List.append_assoc, State.received_received]
      rfl
    | true =>
      have hm : (c.receive u.cfg.wordSize v).WordWritten u.cfg u.mem
          (messageMemory c.transfer u.cfg.wordSize u.mem c.ptr (got ++ [v])) := by
        unfold Channel.WordWritten messageMemory
        show if c.transfer = .memory then _ else _
        split
        · next hxm =>
          rw [hrf, hrd, List.length_append, List.length_singleton]
          exact ⟨hram' _ (by simp) hxm, rfl⟩
        · rfl
      have hword := (State.receiveByte_word (s := u) (v := v) (rest := bs ++ rest) hf (by rw [hu]; exact hdone)).mpr
        ⟨_, by rw [hu]; exact hm, rfl⟩
      rw [hword, hu] at hstep
      by_cases hbs : bs = []
      · subst hbs
        have hidle : ((c.receive u.cfg.wordSize v).nextWord u.cfg.wordSize).endWord.transfer = .idle := by
          exact if_pos (hzero.mpr rfl)
        have hsame := Channel.counted_sameControl ((c.receive u.cfg.wordSize v).nextWord u.cfg.wordSize).endWord rest
        refine ⟨_, (run_succ hstep), hsame.1.trans hidle, hsame.2.1, hsame.2.2.2.trans hpu, ?_, ?_⟩
        · cases rest with
          | nil =>
            rw [List.append_nil, Channel.counted_nil, if_pos rfl]
            exact hzero.mpr rfl
          | cons w rest =>
            rw [List.nil_append, Channel.counted_cons _ _ hidle, if_neg (by simp)]
        · intro hl
          have e : (((c.receive u.cfg.wordSize v).nextWord u.cfg.wordSize).endWord.counted ([] ++ rest)).dbuff
              = (c.receive u.cfg.wordSize v).dbuff := by
            unfold Channel.counted
            split <;> rfl
          have hl : got.length + 1 = u.cfg.wordSize.bytes := by simpa using hl
          have ht : u.cfg.wordSize.trunc (c.receive u.cfg.wordSize v).dbuff = (c.receive u.cfg.wordSize v).dbuff :=
            WordSize.trunc_trunc _ _
          rw [e, ← hrd, hl, valueOf_bytesOf, ht]
      · have hfull : got.length + 1 = u.cfg.wordSize.bytes := by
          simp only [Channel.wordDone, Bool.or_eq_true, beq_iff_eq, hzero, hbs, false_or, decide_eq_true_eq, hrf] at hdone
          omega
        have hn0 : (c.receive u.cfg.wordSize v).count ≠ 0 := fun h => hbs (hzero.mp h)
        have hx1 : ((c.receive u.cfg.wordSize v).nextWord u.cfg.wordSize).endWord.transfer = c.transfer := by
          exact if_neg hn0
        rw [Channel.counted_of_busy _ (hx1 ▸ hx)] at hstep
        have hptr : ((c.receive u.cfg.wordSize v).nextWord u.cfg.wordSize).endWord.ptr
            = u.cfg.wordSize.trunc (c.ptr + BitVec.ofNat 32 (got.length + 1)) := by
          show u.cfg.wordSize.trunc (c.ptr + 1 * BitVec.ofNat 32 u.cfg.wordSize.bytes) = _
          rw [show (1 : Word) * BitVec.ofNat 32 u.cfg.wordSize.bytes = _ from BitVec.one_mul _, hfull]
        have hsplit : ∀ l : List Byte, addressSpan u.cfg.wordSize (got ++ v :: l).length c.ptr
            = addressSpan u.cfg.wordSize (got ++ [v]).length c.ptr
              ++ addressSpan u.cfg.wordSize l.length
                ((c.receive u.cfg.wordSize v).nextWord u.cfg.wordSize).endWord.ptr := by
          intro l
          rw [hptr, addressSpan_trunc]
          have : (got ++ v :: l).length = (got ++ [v]).length + l.length := by simp; omega
          rw [this, addressSpan_append]
          simp
        obtain ⟨d, hrun, h1, h2, h3, h4, h5⟩ := ih [] n
          (u.received k (bs ++ rest) ((c.receive u.cfg.wordSize v).nextWord u.cfg.wordSize).endWord
            (messageMemory c.transfer u.cfg.wordSize u.mem c.ptr (got ++ [v]))) b
          ((c.receive u.cfg.wordSize v).nextWord u.cfg.wordSize).endWord
          (State.channel_received_same _ _ _ _ _) (hkeep _ _ _) ht hc hp (hx1 ▸ hx) hpu hrc hbs (by simp at hlen; omega) rfl
          (by show 0 < u.cfg.wordSize.bytes; omega) rfl
          (by rw [State.fromHost_received, if_pos rfl])
          (by
            rw [hx1]
            intro hxm a ha
            refine hram hxm a ?_
            rw [hsplit]
            exact List.mem_append_right _ ha)
        refine ⟨d, ?_, h1, h2, h3, h4, ?_⟩
        · rw [List.length_cons, ← Nat.add_assoc, run_succ hstep, hrun, hx1, State.received_received]
          have hmem : messageMemory c.transfer u.cfg.wordSize
              (messageMemory c.transfer u.cfg.wordSize u.mem c.ptr (got ++ [v]))
              ((c.receive u.cfg.wordSize v).nextWord u.cfg.wordSize).endWord.ptr ([] ++ bs)
              = messageMemory c.transfer u.cfg.wordSize u.mem c.ptr (got ++ v :: bs) := by
            unfold messageMemory
            split
            · rw [hsplit bs, List.append_cons got v bs, Memory.writeBytes_append _ _ _ _ _ (by simp), List.nil_append]
            · rfl
          rw [← hmem]
          rfl
        · intro hl
          have : bs.length ≠ 0 := fun h => hbs (List.length_eq_zero_iff.mp h)
          simp at hl
          omega

/-- The rest of a word of `start`'s own sent, byte by byte (R42, R66): `m` bytes of DBuffReg are to go, from byte `f` on. -/
theorem run_sends (k : Link) :
    ∀ (m f n : Nat) (u : State) (b : Boot) (c : Channel), u.channel ⟨k, .out⟩ = c → u.oneProcess = true → u.turns = [] →
      u.control = .boot b → b.phase.channel = some ⟨k, .out⟩ → c.transfer = .buffered → c.pushed = false →
      c.count = u.cfg.wordSize.trunc (0 - BitVec.ofNat 32 m) → m ≠ 0 → c.fill = f → f + m = u.cfg.wordSize.bytes →
      (u.link k).accepting = true →
      ∃ d, Host.Core.run Sys2Proof.core (n + m) u = Host.Core.run Sys2Proof.core n
          (u.sentTo k ((List.range' f m).map (laneOf c.dbuff)) d)
        ∧ d.transfer = .idle ∧ d.shifting = c.shifting ∧ d.pushed = false := by
  intro m
  induction m with
  | zero => exact fun _ _ _ _ _ _ _ _ _ _ _ _ _ h => absurd rfl h
  | succ m ih =>
    intro f n u b c hu ho ht hc hp hx hpu hcount _ hfill hl ha
    have hws : u.cfg.wordSize.bytes ≤ 4 := by cases u.cfg.wordSize <;> decide
    have hrel : u.control.released = true := by rw [hc]; rfl
    have hne : c.transfer ≠ .idle := by simp [hx]
    have hcc : (c.countByte u.cfg.wordSize).count = u.cfg.wordSize.trunc (0 - BitVec.ofNat 32 m) := by
      rw [Channel.countByte_count, hcount, count_succ]
    have hzero : (c.countByte u.cfg.wordSize).count = 0 ↔ m = 0 := by rw [hcc, count_eq_zero (by omega)]
    have hdone : (c.countByte u.cfg.wordSize).wordDone u.cfg.wordSize = true ↔ m = 0 := by
      simp only [Channel.wordDone, Bool.or_eq_true, beq_iff_eq, hzero, decide_eq_true_eq, Channel.countByte_fill, hfill]
      omega
    have hstep : step u = .next (u.sentTo k [laneOf c.dbuff f] (c.sent u.cfg.wordSize)) := by
      rw [step_channel ho ht hc hp (hu ▸ hne), channelStep_out hrel (hu ▸ hne) (hu ▸ hpu), outcome_eq_next,
        State.sendByte_eq_ok ha]
      exact ⟨c, by rw [hu, State.wordToSend_eq_ok, if_neg (by simp [hx])], by rw [hfill]⟩
    cases m with
    | zero =>
      refine ⟨c.sent u.cfg.wordSize, run_succ hstep, ?_, ?_, ?_⟩ <;> rw [Channel.sent, if_pos (hdone.mpr rfl)]
      · exact if_pos (hzero.mpr rfl)
      · rfl
      · exact hpu
    | succ m =>
      have hsent : c.sent u.cfg.wordSize = c.countByte u.cfg.wordSize :=
        if_neg (fun h => absurd (hdone.mp h) (by simp))
      rw [hsent] at hstep
      obtain ⟨d, hrun, h1, h2, h3⟩ := ih (f + 1) n (u.sentTo k [laneOf c.dbuff f] (c.countByte u.cfg.wordSize)) b
        (c.countByte u.cfg.wordSize) (State.channel_sentTo_same _ _ _ _)
        (State.oneProcess_of_own ho rfl (by show u.control.ownChannel = _; rw [hc]; exact hp)
          (fun x hx => by rw [State.channel_sentTo_other _ _ _ _ hx])
          (fun x hx e => hx (Option.some.inj (by rw [← e, hc]; exact hp)))) ht hc hp hx hpu hcc (by simp)
        (by rw [Channel.countByte_fill, hfill]) (by rw [State.sentTo_cfg]; omega) (by rw [State.accepting_sentTo, ha])
      refine ⟨d, ?_, h1, h2, h3⟩
      rw [← Nat.add_assoc, run_succ hstep, hrun, State.sentTo_sentTo]
      rfl

/-! ### The CPU's steps -/

/-- At the poll every channel is idle. -/
theorem State.Polls.idle {s : State} {b : Boot} (h : s.Polls b) (ch : ChannelId) : (s.channel ch).transfer = .idle :=
  State.idle_of_oneProcess h.oneProcess (by rw [h.control]; show b.phase.channel = none; rw [h.phase]; rfl) ch

theorem State.Polls.waitingFor {s : State} {b : Boot} (h : s.Polls b) : s.waitingFor = none :=
  State.waitingFor_eq_none.mpr fun _ _ ch _ => h.idle ch

/-- The poll finds the one Link that holds bytes and examines its first (R128, R129). -/
theorem step_poll {s t : State} {b : Boot} {k : Link} {v : Byte} {rest : List Byte} (hp : s.Polls b)
    (hh : s.Hears k (v :: rest)) (h : (s.afterByte k rest).firstByte b k v = .ok t) : step s = .next t := by
  rw [step_boot hp.oneProcess hh.turns hp.control hp.waitingFor, outcome_eq_next]
  have hb : s.takeByte k = some (v, s.afterByte k rest) := State.takeByte_eq_some.mpr ⟨rest, hh.bytes, rfl⟩
  simp only [State.startStep, hp.waitingFor, hp.phase,
    State.pollLinkInputs_of_only (by rw [hh.bytes]; simp) hh.others, hb, h]
  rfl

/-- The Link phase waits at the poll while no Link holds a byte (R128, R141). -/
theorem step_poll_wait {s : State} {b : Boot} (hp : s.Polls b) (ht : s.turns = [])
    (hf : ∀ k, (s.link k).fromHost = []) : step s = .next s := by
  rw [step_boot hp.oneProcess ht hp.control hp.waitingFor, State.startStep_wait (.inr ⟨hp.phase, hf⟩)]
  rfl

/-- With its message complete, the phase about a channel is over. -/
theorem waitingFor_of_idle {s : State} {b : Boot} {ch : ChannelId} (hc : s.control = .boot b)
    (hp : b.phase.channel = some ch) (hx : (s.channel ch).transfer = .idle) : s.waitingFor = none :=
  State.waitingFor_eq_none.mpr fun b' hb' c hch => by
    cases hc.symm.trans hb'
    cases hp.symm.trans hch
    exact hx

/-- The state after `start` has begun its Link phase (R120, R124). -/
def State.linkBegun (s : State) : State :=
  { s with
    iPtr := s.nextInst, timerAlarmHigh := false, timerAlarmLow := false, timesliceCount := 0
    control := .boot ⟨.poll, s.inputCounts, ⟨false, false, false, false⟩, ⟨false, false, false, false⟩⟩ }

theorem execStart_link {s : State} (ha : s.anyActive = false) (hp : s.pins.bootFromRom = false) :
    execStart s = .next s.linkBegun := by
  unfold execStart
  rw [if_neg (by simp [ha])]
  simp only [State.beginStart, hp, State.linkBegun, State.nextInst]
  rfl

theorem State.linkBegun_polls {s : State} (ha : s.anyActive = false) :
    s.linkBegun.Polls ⟨.poll, s.inputCounts, ⟨false, false, false, false⟩, ⟨false, false, false, false⟩⟩ :=
  ⟨rfl, rfl, State.oneProcess_of_idle rfl rfl fun ch =>
    (Channel.active_eq_false.mp (State.anyActive_eq_false.mp ha ch)).1⟩

/-- The first byte of a protocol taken, and a message enabled on its input channel: what the poll makes of it. -/
def State.polled (s : State) (b : Boot) (k : Link) (rest : List Byte) (x : Transfer) (n : Nat) (phase : BootPhase) : State :=
  ((s.afterByte k rest).enable ⟨k, .inp⟩ x n s.cfg.memStart).bootAt { b with usedIn := b.usedIn.set k true } phase

@[simp] theorem State.channel_polled_same (s : State) (b : Boot) (k : Link) (rest : List Byte) (x : Transfer) (n : Nat)
    (phase : BootPhase) : (s.polled b k rest x n phase).channel ⟨k, .inp⟩
      = (s.channel ⟨k, .inp⟩).enable s.cfg.wordSize x n s.cfg.memStart := by
  show (State.enable _ _ _ _ _).channel _ = _
  rw [State.enable, State.channel_setChannel_same, State.channel_afterByte]
  rfl

theorem State.channel_polled_other (s : State) (b : Boot) (k : Link) (rest : List Byte) (x : Transfer) (n : Nat)
    (phase : BootPhase) {ch : ChannelId} (h : ch ≠ ⟨k, .inp⟩) :
    (s.polled b k rest x n phase).channel ch = s.channel ch := by
  show (State.enable _ _ _ _ _).channel _ = _
  rw [State.enable, State.channel_setChannel_other _ _ h, State.channel_afterByte]

theorem State.fromHost_polled (s : State) (b : Boot) (k j : Link) (rest : List Byte) (x : Transfer) (n : Nat)
    (phase : BootPhase) :
    ((s.polled b k rest x n phase).link j).fromHost = if j = k then rest else (s.link j).fromHost := by
  show ((State.enable _ _ _ _ _).link j).fromHost = _
  rw [State.enable, State.fromHost_setChannel, State.fromHost_afterByte]

@[simp] theorem State.toHost_polled (s : State) (b : Boot) (k j : Link) (rest : List Byte) (x : Transfer) (n : Nat)
    (phase : BootPhase) : ((s.polled b k rest x n phase).link j).toHost = (s.link j).toHost := by
  show ((State.enable _ _ _ _ _).link j).toHost = _
  rw [State.enable, State.toHost_setChannel, State.toHost_afterByte]

@[simp] theorem State.accepting_polled (s : State) (b : Boot) (k j : Link) (rest : List Byte) (x : Transfer) (n : Nat)
    (phase : BootPhase) : ((s.polled b k rest x n phase).link j).accepting = (s.link j).accepting := by
  show ((State.enable _ _ _ _ _).link j).accepting = _
  rw [State.enable, State.accepting_setChannel, State.accepting_afterByte]

/-- What the Link phase's own channel does leaves R241's conditions as they were at the poll. -/
theorem State.Polls.oneProcess_of {s t : State} {b : Boot} {ch : ChannelId} (h : s.Polls b)
    (ht : t = { s with control := t.control, links := t.links, mem := t.mem, draws := t.draws })
    (hc : t.control.ownChannel = some ch) (hx : ∀ x, x ≠ ch → (t.channel x).transfer = (s.channel x).transfer) :
    t.oneProcess = true :=
  State.oneProcess_of_own h.oneProcess ht hc hx fun x _ e => by
    rw [h.control] at e
    have : b.phase.channel = some x := e
    rw [h.phase] at this
    cases this

/-- The first byte of a poke or a peek and its address word, from the poll: a step for the poll and one for each byte of the
word (R128 to R131). -/
theorem run_address {s : State} {b : Boot} {k : Link} {p : Protocol} {v : Byte} {a : Word} {rest : List Byte} (n : Nat)
    (hv : v = match p with | .poke => 0 | .peek => 1) (hp : s.Polls b)
    (hh : s.Hears k (v :: bytesOf s.cfg.wordSize.bytes a ++ rest)) :
    ∃ t : State,
      Host.Core.run Sys2Proof.core (n + s.cfg.wordSize.bytes + 1) s = Host.Core.run Sys2Proof.core n t
      ∧ t.control = .boot { b with phase := .address k p, usedIn := b.usedIn.set k true } ∧ t.oneProcess = true
      ∧ (t.channel ⟨k, .inp⟩).dbuff = s.cfg.wordSize.trunc a ∧ (t.channel ⟨k, .inp⟩).transfer = .idle
      ∧ (t.channel ⟨k, .inp⟩).shifting = (s.channel ⟨k, .inp⟩).shifting
      ∧ (t.channel ⟨k, .inp⟩).pushed = false ∧ (∀ ch, ch ≠ ⟨k, .inp⟩ → t.channel ch = s.channel ch)
      ∧ (∀ j, (t.link j).fromHost = (if j = k then rest else []) ∧ (t.link j).toHost = (s.link j).toHost
          ∧ (t.link j).accepting = (s.link j).accepting)
      ∧ t = { s with control := t.control, links := t.links } := by
  let s1 : State := s.polled b k (bytesOf s.cfg.wordSize.bytes a ++ rest) .buffered s.cfg.wordSize.bytes (.address k p)
  have h1 : step s = .next s1 :=
    step_poll hp hh (State.firstByte_eq_ok.mpr ⟨by rw [State.channel_afterByte]; exact hh.fresh, .inl ⟨p, hv, rfl⟩⟩)
  have hc1 : s1.channel ⟨k, .inp⟩
      = (s.channel ⟨k, .inp⟩).enable s.cfg.wordSize .buffered s.cfg.wordSize.bytes s.cfg.memStart :=
    State.channel_polled_same _ _ _ _ _ _ _
  have ho1 : s1.oneProcess = true :=
    hp.oneProcess_of (ch := ⟨k, .inp⟩) rfl rfl fun x hx => by rw [State.channel_polled_other _ _ _ _ _ _ _ hx]
  have hb : 0 < s.cfg.wordSize.bytes ∧ s.cfg.wordSize.bytes ≤ 4 := by cases s.cfg.wordSize <;> decide
  obtain ⟨d, hrun, d1, d2, d3, -, d5⟩ := run_receives k rest (bytesOf s.cfg.wordSize.bytes a) [] n s1 _
    (s1.channel ⟨k, .inp⟩) rfl ho1 hh.turns rfl rfl (by rw [hc1]; simp) (by rw [hc1]; exact hh.fresh)
    (by rw [hc1, bytesOf_length]; rfl)
    (fun h => by have := congrArg List.length h; simp at this; omega) (by simp; omega) (by rw [hc1]; rfl) hb.1 rfl
    (by rw [State.fromHost_polled, if_pos rfl])
    (fun h => by rw [hc1] at h; cases h)
  have hm : messageMemory (s1.channel ⟨k, .inp⟩).transfer s1.cfg.wordSize s1.mem (s1.channel ⟨k, .inp⟩).ptr
      ([] ++ bytesOf s.cfg.wordSize.bytes a) = s.mem := by
    rw [hc1]
    rfl
  rw [hm] at hrun
  refine ⟨s1.received k rest d s.mem, ?_, rfl, ?_, ?_, ?_, ?_, ?_, fun ch hch => ?_, fun j => ⟨?_, ?_, ?_⟩, rfl⟩
  · rw [run_succ h1]
    rw [bytesOf_length] at hrun
    exact hrun
  · exact hp.oneProcess_of (ch := ⟨k, .inp⟩) rfl rfl fun x hx => by
      rw [State.channel_received_other _ _ _ _ _ hx, State.channel_polled_other _ _ _ _ _ _ _ hx]
  · rw [State.channel_received_same, d5 (by simp; rfl), List.nil_append, valueOf_bytesOf]
  · rw [State.channel_received_same, d1]
  · rw [State.channel_received_same, d2, hc1]
    rfl
  · rw [State.channel_received_same, d3]
  · rw [State.channel_received_other _ _ _ _ _ hch, State.channel_polled_other _ _ _ _ _ _ _ hch]
  · rw [State.fromHost_received, State.fromHost_polled]
    split
    · rfl
    · next hj => exact hh.others j hj
  · rw [State.toHost_received, State.toHost_polled]
  · rw [State.accepting_received, State.accepting_polled]

/-- What the end of a boot from a Link does (R120, R136, R138, R53). -/
theorem State.finishBoot_spec (s : State) (b : Boot) (k : Link) (len : Nat) :
    let t := s.finishBoot b k len
    t = { s with
      aReg := s.iPtr, bReg := s.wdesc, cReg := linkInWord s.cfg.wordSize k, iPtr := s.cfg.memStart
      wPtr := firstFreeWord s.cfg len, procPriority := .low, statusReg := s.statusReg &&& preservedBits s.cfg
      oreg := 0, control := .run, written := [], buffers := t.buffers, links := t.links, draws := t.draws }
    ∧ (∀ j, (t.link j).fromHost = (s.link j).fromHost ∧ (t.link j).toHost = (s.link j).toHost
        ∧ (t.link j).accepting = (s.link j).accepting)
    ∧ (t.channel ⟨k, .inp⟩).count = b.saved.get k
    ∧ (∀ ch, (s.channel ch).SameControl (t.channel ch))
    ∧ (∀ ch, ch ≠ ⟨k, .inp⟩ → (ch.dir = .inp → b.usedIn.get ch.link = false) →
        (ch.dir = .out → b.usedOut.get ch.link = false) → t.channel ch = s.channel ch) := by
  intro t
  have h1 := s.sameButLinks_drawUsed (b.usedIn.set k false) .inp
  have h2 := h1.trans (State.sameButLinks_drawUsed _ b.usedOut .out)
  have h3 := h2.trans (State.sameButLinks_drawPtrDBuff _ ⟨k, .inp⟩)
  have h4 := h3.trans (State.sameButLinks_setChannel _ ⟨k, .inp⟩
    { (((s.drawUsed (b.usedIn.set k false) .inp).drawUsed b.usedOut .out).drawPtrDBuff ⟨k, .inp⟩).channel ⟨k, .inp⟩ with
      count := b.saved.get k })
  generalize hw : State.setChannel _ _ _ = w at h4
  have ht : t = { w with cReg := linkInWord w.cfg.wordSize k }.enterBootCode w.cfg.memStart
      (firstFreeWord w.cfg len) := by
    rw [← hw]
    rfl
  have hch : ∀ ch, t.channel ch = w.channel ch := fun _ => by
    rw [ht]
    rfl
  have hln : ∀ j, t.link j = w.link j := fun _ => by
    rw [ht]
    rfl
  refine ⟨?_, fun j => hln j ▸ ⟨h4.fromHost j, h4.toHost j, h4.accepting j⟩, ?_, ?_, ?_⟩
  · have hl : t.links = w.links := by
      rw [ht]
      rfl
    have hd : t.draws = w.draws := by
      rw [ht]
      rfl
    have hs := h4.state
    rw [hl, hd]
    have e : t = { w with
        aReg := w.iPtr, bReg := w.wdesc, cReg := linkInWord w.cfg.wordSize k, iPtr := w.cfg.memStart
        wPtr := firstFreeWord w.cfg len, procPriority := .low, statusReg := w.statusReg &&& preservedBits w.cfg
        oreg := 0, control := .run, written := [], buffers := t.buffers } := by
      rw [ht]
      rfl
    generalize t.buffers = B at e ⊢
    rw [e, hs]
    rfl
  · rw [hch, ← hw]
    simp
  · intro ch
    rw [hch, ← hw]
    exact (((State.channel_drawUsed _ _ _ _).2.trans (State.channel_drawUsed _ _ _ _).2).trans
      (State.channel_drawPtrDBuff _ _ _).2.2).trans (State.sameControl_setChannel _ _ _ ⟨rfl, rfl, rfl, rfl⟩)
  · intro ch hne hi ho
    rw [hch, ← hw, State.channel_setChannel_other _ _ hne, (State.channel_drawPtrDBuff _ _ _).1 hne]
    obtain ⟨j, d⟩ := ch
    rw [(State.channel_drawUsed _ _ _ _).1, (State.channel_drawUsed _ _ _ _).1]
    · cases d
      · have : j ≠ k := fun h => hne (by rw [h])
        exact .inr ((PerLink.get_set_other _ _ this).trans (hi rfl))
      · exact .inl (by simp)
    · cases d
      · exact .inl (by simp)
      · exact .inr (ho rfl)

end Sys2Proof.Machine
end

