-- ==== Sys2Proof/Laws/Decode.lean ====
section
/-! SUPPORT. The fields of an instruction byte, the operations by their codes, and what `opr` executes. -/

namespace Sys2Proof

@[simp] theorem functionOf_instrByte (f d : Nibble) : functionOf (instrByte f d) = f := by
  revert f d
  decide

@[simp] theorem dataOf_instrByte (f d : Nibble) : dataOf (instrByte f d) = d := by
  revert f d
  decide

@[simp] theorem instrByte_fields (b : Byte) : instrByte (functionOf b) (dataOf b) = b := by
  revert b
  decide

/-- The operation of a code is the one that has this code (R99, R100). -/
theorem operationOf_eq_some {n : Nat} {i : Instr} : operationOf n = some i ↔ i.operationCode = some n := by
  constructor
  · intro h
    unfold operationOf at h
    split at h <;> cases h <;> rfl
  · intro h
    cases i <;> simp only [Instr.operationCode, Option.some.injEq] at h <;> first | (subst h; rfl) | cases h

theorem operationOf_eq_none {n : Nat} (h : n ∉ operationCodes) : operationOf n = none := by
  unfold operationOf
  split <;> first | rfl | exact absurd (by decide) h

end Sys2Proof

namespace Sys2Proof.Machine

theorem trunc_of_inWord {ws : WordSize} {v : Word} (h : inWord ws v = true) : ws.trunc v = v := by
  simpa [inWord] using h

/-- With Oreg a word of W bits the operand is Oreg OR data (R97). -/
theorem State.operand_eq {s : State} (d : Nibble) (h : inWord s.cfg.wordSize s.oreg = true) :
    s.operand d = s.oreg ||| d.zeroExtend 32 := by
  simp [State.operand, operandOf, trunc_of_inWord h]

/-- `opr` is the operation its operand selects, or a refusal (R98, R103). -/
theorem exec_opr (d : Nibble) (s : State) :
    exec (.opr d) s
      = match operationOf (s.operand d).toNat with
        | some i => exec i s
        | none => .refused (.operationNotSpecified (s.operand d).toNat (namedOnly (s.operand d).toNat)) := by
  simp only [exec, execOpr]
  generalize (s.operand d).toNat = n
  unfold operationOf
  split <;> simp_all

/-- `j` where it is no breakpoint (R205). -/
theorem exec_j {d : Nibble} {s : State} (h : ¬ (s.operand d = 0 ∧ j0Breaks s.cfg s.statusReg = true)) :
    exec (.j d) s = .next ({ s with oreg := 0 }.jumpTo (s.cfg.wordSize.trunc (s.nextInst + s.operand d))) := by
  simp only [exec, execJ, if_neg h]

end Sys2Proof.Machine
end

