-- ==== Sys2Proof/Laws/Invariant.lean ====
section
/-! SUPPORT. The invariant in parts, and which single updates keep it. -/

namespace Sys2Proof.Machine

/-- The CPU registers hold words of W bits. -/
structure CpuInWords (ws : WordSize) (s : State) : Prop where
  aReg      : inWord ws s.aReg = true
  bReg      : inWord ws s.bReg = true
  cReg      : inWord ws s.cReg = true
  wPtr      : inWord ws s.wPtr = true
  iPtr      : inWord ws s.iPtr = true
  oreg      : inWord ws s.oreg = true
  dReg      : inWord ws s.dReg = true
  eReg      : inWord ws s.eReg = true
  statusReg : inWord ws s.statusReg = true
  buffer0   : inWord ws s.buffers.word0 = true
  buffer1   : inWord ws s.buffers.word1 = true

/-- The channel registers hold words of W bits. -/
def ChannelsInWords (ws : WordSize) (s : State) : Prop := ∀ ch, (s.channel ch).inWords ws = true

theorem channelsInWords_iff (ws : WordSize) (s : State) :
    s.links.every (LinkState.inWords ws) = true ↔ ChannelsInWords ws s := by
  rw [PerLink.every_iff]
  simp only [LinkState.inWords, Bool.and_eq_true]
  constructor
  · rintro h ⟨k, d⟩
    cases d
    · exact (h k).1
    · exact (h k).2
  · exact fun h k => ⟨h ⟨k, .inp⟩, h ⟨k, .out⟩⟩

theorem State.inWords_iff (s : State) :
    s.inWords = true ↔ CpuInWords s.cfg.wordSize s ∧ ChannelsInWords s.cfg.wordSize s
      ∧ s.control.inWords s.cfg.wordSize = true := by
  simp only [State.inWords, Bool.and_eq_true, channelsInWords_iff]
  constructor
  · rintro ⟨⟨⟨⟨⟨⟨⟨⟨⟨⟨⟨⟨a, b⟩, c⟩, d⟩, e⟩, f⟩, g⟩, h⟩, i⟩, l⟩, m⟩, j⟩, k⟩
    exact ⟨⟨a, b, c, d, e, f, g, h, i, l, m⟩, j, k⟩
  · rintro ⟨⟨a, b, c, d, e, f, g, h, i, l, m⟩, j, k⟩
    exact ⟨⟨⟨⟨⟨⟨⟨⟨⟨⟨⟨⟨a, b⟩, c⟩, d⟩, e⟩, f⟩, g⟩, h⟩, i⟩, l⟩, m⟩, j⟩, k⟩

/-- The invariant in parts. -/
structure InvParts (s : State) : Prop where
  cfg      : s.cfg.wellFormed = true
  cpu      : CpuInWords s.cfg.wordSize s
  channels : ChannelsInWords s.cfg.wordSize s
  control  : s.control.inWords s.cfg.wordSize = true
  wf       : s.mem.wf = true
  below    : s.mem.below (2 ^ s.cfg.wordSize.bits) = true

theorem State.inv_iff (s : State) : s.Inv ↔ InvParts s := by
  constructor
  · rintro ⟨a, b, c, d⟩
    rw [State.inWords_iff] at b
    exact ⟨a, b.1, b.2.1, b.2.2, c, d⟩
  · rintro ⟨a, b, c, d, e, f⟩
    exact ⟨a, (State.inWords_iff s).mpr ⟨b, c, d⟩, e, f⟩

theorem inWord_and {ws : WordSize} {a : Word} (b : Word) (h : inWord ws a = true) : inWord ws (a &&& b) = true := by
  simp only [inWord, WordSize.trunc, beq_iff_eq] at *
  rw [BitVec.and_assoc, BitVec.and_comm b, ← BitVec.and_assoc, h]

theorem inWord_or {ws : WordSize} {a b : Word} (h : inWord ws a = true) (h' : inWord ws b = true) :
    inWord ws (a ||| b) = true := by
  simp only [inWord, WordSize.trunc, beq_iff_eq] at *
  rw [← h, ← h']
  ext i hi
  simp
  rintro (⟨_, h⟩ | ⟨_, h⟩) <;> exact h

theorem inWord_operand (s : State) (d : Nibble) : inWord s.cfg.wordSize (s.operand d) = true := by
  refine inWord_or (inWord_trunc _ _) ?_
  cases s.cfg.wordSize <;> revert d <;> decide

theorem inWord_wdesc {s : State} (h : inWord s.cfg.wordSize s.wPtr = true) : inWord s.cfg.wordSize s.wdesc = true :=
  inWord_or h (by cases s.cfg.wordSize <;> cases s.procPriority <;> decide)

/-- MemStart and ResetCodePtr of an admitted configuration are words of W bits (R7). -/
theorem Cfg.inWord_of_wellFormed {c : Cfg} (h : c.wellFormed = true) :
    inWord c.wordSize c.memStart = true ∧ inWord c.wordSize c.resetCodePtr = true := by
  simp only [Cfg.wellFormed, Bool.and_eq_true] at h
  exact ⟨h.1.1.1.1.1.1.1.1.1.1.1.1, h.1.1.1.1.1.1.1.1.1.1.1.2⟩

theorem InvParts.setChannel {s : State} (h : InvParts s) (ch : ChannelId) (c : Channel)
    (hc : c.inWords s.cfg.wordSize = true) : InvParts (s.setChannel ch c) := by
  refine ⟨h.cfg, ⟨h.cpu.1, h.cpu.2, h.cpu.3, h.cpu.4, h.cpu.5, h.cpu.6, h.cpu.7, h.cpu.8, h.cpu.9,
    h.cpu.10, h.cpu.11⟩, ?_, h.control, h.wf,
    h.below⟩
  intro x
  rw [State.channel_setChannel]
  split
  · exact hc
  · exact h.channels x

theorem InvParts.enable {s : State} (h : InvParts s) (ch : ChannelId) (x : Transfer) (n : Nat) {a : Word}
    (ha : inWord s.cfg.wordSize a = true) : InvParts (s.enable ch x n a) :=
  h.setChannel _ _ (Channel.enable_inWords x n (h.channels ch) ha)

/-- What a step of a channel keeps. -/
theorem InvParts.channelMove {s t : State} {ch : ChannelId} (h : InvParts s) (m : ChannelMove s ch t) : InvParts t := by
  have hc : t.cfg = s.cfg := by rw [m.state]
  have hcpu : CpuInWords s.cfg.wordSize t := by
    rw [m.state]
    exact ⟨h.cpu.1, h.cpu.2, h.cpu.3, h.cpu.4, h.cpu.5, h.cpu.6, h.cpu.7, h.cpu.8, h.cpu.9,
    h.cpu.10, h.cpu.11⟩
  have hctl : t.control = s.control := by rw [m.state]
  have hmem : t.mem.wf = true ∧ t.mem.below (2 ^ s.cfg.wordSize.bits) = true := by
    rcases m.mem with e | ⟨n, a, v, -, e⟩
    · rw [e]
      exact ⟨h.wf, h.below⟩
    · rw [e]
      exact ⟨Memory.wf_writeBytes _ _ h.wf, Memory.below_writeBytes _ _ (addressSpan_lt _ _ _) h.below⟩
  refine ⟨hc ▸ h.cfg, by rw [hc]; exact hcpu, fun x => ?_, by rw [hc, hctl]; exact h.control, hmem.1, by rw [hc]; exact hmem.2⟩
  rw [hc]
  by_cases hx : x = ch
  · rw [hx]
    exact m.inWords (h.channels ch)
  · rw [m.others x hx]
    exact h.channels x

theorem InvParts.draw {s : State} (h : InvParts s) : InvParts s.draw.2 :=
  ⟨h.cfg, ⟨h.cpu.1, h.cpu.2, h.cpu.3, h.cpu.4, h.cpu.5, h.cpu.6, h.cpu.7, h.cpu.8, h.cpu.9,
    h.cpu.10, h.cpu.11⟩, h.channels, h.control, h.wf,
    h.below⟩

theorem InvParts.drawHidden {s : State} (h : InvParts s) : InvParts s.drawHidden :=
  ⟨h.cfg, ⟨h.cpu.1, h.cpu.2, h.cpu.3, h.cpu.4, h.cpu.5, h.cpu.6, inWord_trunc _ _, inWord_trunc _ _, h.cpu.9, h.cpu.10,
    h.cpu.11⟩,
    h.channels, h.control, h.wf, h.below⟩

theorem InvParts.drawPtrDBuff {s : State} (h : InvParts s) (ch : ChannelId) : InvParts (s.drawPtrDBuff ch) := by
  refine h.draw.draw.setChannel _ _ ?_
  rw [Channel.inWords_iff]
  exact ⟨((Channel.inWords_iff _ _).mp (h.channels ch)).1, inWord_trunc _ _, inWord_trunc _ _⟩

theorem InvParts.drawChannelIf {s : State} (h : InvParts s) (used : Bool) (ch : ChannelId) :
    InvParts (s.drawChannelIf used ch) := by
  unfold State.drawChannelIf
  split
  · refine (h.draw.setChannel _ _ ?_).drawPtrDBuff _
    rw [Channel.inWords_iff]
    exact ⟨inWord_trunc _ _, ((Channel.inWords_iff _ _).mp (h.channels ch)).2⟩
  · exact h

theorem InvParts.drawUsed {s : State} (h : InvParts s) (used : PerLink Bool) (d : Dir) :
    InvParts (s.drawUsed used d) :=
  (((h.drawChannelIf _ _).drawChannelIf _ _).drawChannelIf _ _).drawChannelIf _ _

/-- A Link replaced by one with the same channels. -/
theorem InvParts.setLink {s : State} (h : InvParts s) (k : Link) (l : LinkState) (hi : l.inp = (s.link k).inp)
    (ho : l.out = (s.link k).out) : InvParts (s.setLink k l) := by
  refine ⟨h.cfg, ⟨h.cpu.1, h.cpu.2, h.cpu.3, h.cpu.4, h.cpu.5, h.cpu.6, h.cpu.7, h.cpu.8, h.cpu.9,
    h.cpu.10, h.cpu.11⟩, ?_, h.control, h.wf,
    h.below⟩
  rintro ⟨j, d⟩
  have : (s.setLink k l).channel ⟨j, d⟩ = s.channel ⟨j, d⟩ := by
    by_cases hj : j = k
    · subst hj
      cases d
      · simp [State.channel, LinkState.channel, hi]
      · simp [State.channel, LinkState.channel, ho]
    · simp [State.channel, State.link_setLink_other _ _ hj]
  rw [this]
  exact h.channels _

theorem InvParts.bootAt {s : State} (h : InvParts s) (b : Boot) (phase : BootPhase)
    (hb : b.saved.every (inWord s.cfg.wordSize) = true) : InvParts (s.bootAt b phase) :=
  ⟨h.cfg, ⟨h.cpu.1, h.cpu.2, h.cpu.3, h.cpu.4, h.cpu.5, h.cpu.6, h.cpu.7, h.cpu.8, h.cpu.9,
    h.cpu.10, h.cpu.11⟩, h.channels, hb, h.wf,
    h.below⟩

theorem InvParts.setMem {s : State} (h : InvParts s) (m : Memory) (hw : m.wf = true)
    (hb : m.below (2 ^ s.cfg.wordSize.bits) = true) : InvParts { s with mem := m } :=
  ⟨h.cfg, ⟨h.cpu.1, h.cpu.2, h.cpu.3, h.cpu.4, h.cpu.5, h.cpu.6, h.cpu.7, h.cpu.8, h.cpu.9,
    h.cpu.10, h.cpu.11⟩, h.channels, h.control, hw,
    hb⟩

theorem InvParts.enterBootCode {s : State} (h : InvParts s) (target workspace : Word)
    (ht : inWord s.cfg.wordSize target = true) (hw : inWord s.cfg.wordSize workspace = true) :
    InvParts (s.enterBootCode target workspace) :=
  ⟨h.cfg, ⟨h.cpu.iPtr, inWord_wdesc h.cpu.wPtr, h.cpu.cReg, hw, ht,
    by show inWord s.cfg.wordSize 0 = true; cases s.cfg.wordSize <;> decide, h.cpu.dReg, h.cpu.eReg,
    inWord_and _ h.cpu.statusReg, inWord_readWord _ _ _, inWord_readWord _ _ _⟩, h.channels, rfl, h.wf, h.below⟩

theorem InvParts.finish {s : State} (h : InvParts s) : InvParts s.finish :=
  ⟨h.cfg, ⟨h.cpu.aReg, h.cpu.bReg, h.cpu.cReg, h.cpu.wPtr, inWord_trunc _ _,
    by show inWord s.cfg.wordSize 0 = true; cases s.cfg.wordSize <;> decide, h.cpu.dReg, h.cpu.eReg, h.cpu.statusReg,
    h.cpu.10, h.cpu.11⟩,
    h.channels, h.control, h.wf, h.below⟩

theorem InvParts.push {s : State} (h : InvParts s) (v : Word) (hv : inWord s.cfg.wordSize v = true) :
    InvParts (s.push v) :=
  ⟨h.cfg, ⟨hv, h.cpu.aReg, h.cpu.bReg, h.cpu.wPtr, h.cpu.iPtr, h.cpu.oreg, h.cpu.dReg, h.cpu.eReg, h.cpu.statusReg,
    h.cpu.10, h.cpu.11⟩,
    h.channels, h.control, h.wf, h.below⟩

theorem InvParts.pop {s : State} (h : InvParts s) : InvParts s.pop :=
  ⟨h.cfg, ⟨h.cpu.bReg, h.cpu.cReg, h.cpu.cReg, h.cpu.wPtr, h.cpu.iPtr, h.cpu.oreg, h.cpu.dReg, h.cpu.eReg,
    h.cpu.statusReg, h.cpu.10, h.cpu.11⟩, h.channels, h.control, h.wf, h.below⟩

end Sys2Proof.Machine
end

