-- ==== Sys2Proof/Laws/PerInstr.lean ====
section
/-! SUPPORT. Per instruction: what its memory code leaves for the machine (R93, R94, R96, R97, R99, R100). -/

namespace Sys2Proof.Laws.F

/-- A memory code executed from Oreg 0 leaves its final byte's function with its operand: the operation code for an
operation, the data field for a function. A prefix byte, from any Oreg, leaves the Oreg that R94 or R96 gives. -/
def Statement : Instr → Prop
  | .pfix d => ∀ (ws : WordSize) (oreg : Word) (rest : List Byte),
      assemble ws oreg (encode (.pfix d) ++ rest) = assemble ws (pfixOreg ws oreg d) rest
  | .nfix d => ∀ (ws : WordSize) (oreg : Word) (rest : List Byte),
      assemble ws oreg (encode (.nfix d) ++ rest) = assemble ws (nfixOreg ws oreg d) rest
  | i => ∀ (ws : WordSize) (rest : List Byte),
      assemble ws 0 (encode i ++ rest)
        = some (functionOf (finalByte i), BitVec.ofNat 32 (i.operationCode.getD (dataOf (finalByte i)).toNat), rest)

theorem start : Statement .start := fun ws _ => by cases ws <;> rfl

theorem testhardchan : Statement .testhardchan := fun ws _ => by cases ws <;> rfl

theorem testldd : Statement .testldd := fun ws _ => by cases ws <;> rfl

theorem teststd : Statement .teststd := fun ws _ => by cases ws <;> rfl

theorem testlde : Statement .testlde := fun ws _ => by cases ws <;> rfl

theorem testste : Statement .testste := fun ws _ => by cases ws <;> rfl

theorem testlds : Statement .testlds := fun ws _ => by cases ws <;> rfl

theorem teststs : Statement .teststs := fun ws _ => by cases ws <;> rfl

theorem mint : Statement .mint := fun ws _ => by cases ws <;> rfl

theorem pfix (d : Nibble) : Statement (.pfix d) := fun ws oreg rest => by
  simp [encode, leadingBytes, finalByte, assemble]

theorem opr (d : Nibble) : Statement (.opr d) := fun ws rest => by
  simp [encode, leadingBytes, finalByte, assemble, operandOf, Instr.operationCode]

theorem nfix (d : Nibble) : Statement (.nfix d) := fun ws oreg rest => by
  simp [encode, leadingBytes, finalByte, assemble]

theorem j (d : Nibble) : Statement (.j d) := fun ws rest => by
  simp [encode, leadingBytes, finalByte, assemble, operandOf, Instr.operationCode]

theorem ldc (d : Nibble) : Statement (.ldc d) := fun ws rest => by
  simp [encode, leadingBytes, finalByte, assemble, operandOf, Instr.operationCode]

theorem ldnlp (d : Nibble) : Statement (.ldnlp d) := fun ws rest => by
  simp [encode, leadingBytes, finalByte, assemble, operandOf, Instr.operationCode]

theorem stl (d : Nibble) : Statement (.stl d) := fun ws rest => by
  simp [encode, leadingBytes, finalByte, assemble, operandOf, Instr.operationCode]

end Sys2Proof.Laws.F
end

