-- ==== Sys2Proof/Tests/Slice0.lean ====
section
/-! SUPPORT. The model's own tests: well-formedness, decoding of words written out from the spec, one or two steps per
instruction with results of spec/95_test_vectors.md (cited as T-...), and a witness for the hypotheses of every statement
that has hypotheses. -/

namespace Tests.Slice0

open Sys2Proof Sys2Proof.Machine

/-! ### Machines -/

/-- The memory map of 95_test_vectors.md: RAM from MinInt to MinInt + #FFF, ROM in the top 256 bytes. -/
def mapOf (ws : WordSize) : List Region :=
  [⟨ws.minInt, 0x1000, .ram⟩, ⟨ws.maxInt - 0xFF, 0x100, .rom⟩]

/-- A T414. -/
def cfgA : Cfg := Cfg.ofPart .t414 (mapOf .w32)

/-- A T212; #9000 is RAM, as T-ST6 and T-ME2 take it to be. -/
def cfgB : Cfg := Cfg.ofPart .t212 [⟨0x8000, 0x2000, .ram⟩, ⟨0x7F00, 0x100, .rom⟩]

/-- A T425. -/
def cfgJ : Cfg := Cfg.ofPart .t425 (mapOf .w32)

/-- A T414 that ignores the low bits of a misaligned address. -/
def cfgI : Cfg := { cfgA with misaligned := .ignoreLowBits }

/-- A machine at `a` with a stack. -/
def machineAt (c : Cfg) (a x y z : Word) : State :=
  { State.reset with cfg := c, iPtr := a, wPtr := c.memStart, aReg := x, bReg := y, cReg := z }

/-- A machine with the bytes of a program at IPtr. -/
def holding (c : Cfg) (a : Word) (bytes : List Byte) : State := (machineAt c a 1 2 3).placeBytes a bytes

/-- A machine about to execute `start` with BootFromRom low and bytes from the host on one Link. -/
def hearing (c : Cfg) (k : Link) (bytes : List Byte) : State :=
  let s := { machineAt c 0x9000 1 2 3 with pins := ⟨false, false, false⟩, wPtr := 0x9100 }
  s.setLink k { s.link k with fromHost := bytes }

theorem hears_hearing (c : Cfg) (k : Link) (bytes : List Byte) : (hearing c k bytes).Hears k bytes :=
  ⟨rfl, by cases k <;> rfl, fun j h => by cases j <;> cases k <;> first | rfl | exact absurd rfl h, by cases k <;> rfl⟩

/-- A machine at the poll after a peek on Link 0, with bytes from the host on one Link. -/
def afterPeek : Boot := ⟨.poll, ⟨1, 2, 3, 4⟩, ⟨true, false, false, false⟩, ⟨true, false, false, false⟩⟩

@[inherit_doc afterPeek] def polling (c : Cfg) (k : Link) (bytes : List Byte) : State :=
  { hearing c k bytes with control := .boot afterPeek }

theorem polls_polling (c : Cfg) (k : Link) (bytes : List Byte) : (polling c k bytes).Polls afterPeek :=
  ⟨rfl, rfl, by cases k <;> rfl⟩

theorem hears_polling (c : Cfg) (k : Link) (bytes : List Byte) : (polling c k bytes).Hears k bytes :=
  have h := hears_hearing c k bytes
  ⟨h.turns, h.bytes, h.others, h.fresh⟩

/-- A machine with a channel's registers set. -/
def withChannel (s : State) (ch : ChannelId) (c p d : Word) : State :=
  s.setChannel ch ⟨c, p, d, .idle, false, 0, false⟩

/-- A machine with a byte being shifted in on a channel. -/
def busy (s : State) (ch : ChannelId) : State := s.setChannel ch { s.channel ch with shifting := true }

/-- A machine in the Link phase of `start`, at a phase, with a channel in a state. -/
def booting (c : Cfg) (k : Link) (bytes : List Byte) (phase : BootPhase) (ch : ChannelId) (x : Channel) : State :=
  { (hearing c k bytes).setChannel ch x with
    control := .boot ⟨phase, ⟨0, 0, 0, 0⟩, ⟨false, false, false, false⟩, ⟨false, false, false, false⟩⟩ }

/-- A machine `n` steps after it has executed `start`. -/
def afterStart (n : Nat) (s : State) : Host.Outcome State Fault Refusal :=
  match exec .start s with
  | .next t => Host.Core.run Sys2Proof.core n t
  | o => o

/-- Something read from the next state. -/
def seen {α : Type} (f : State → α) : Host.Outcome State Fault Refusal → Option α
  | .next t => some (f t)
  | .fault _ => none
  | .refused _ => none

/-- The reason of a refusal. -/
def refusal : Host.Outcome State Fault Refusal → Option Refusal
  | .refused r => some r
  | .next _ => none
  | .fault _ => none

/-- The stack. -/
def stack (s : State) : Word × Word × Word := (s.aReg, s.bReg, s.cReg)

/-- A span of which one thing stands at every address. -/
theorem all_of_span {c : Cfg} {x : Option MemKind} {as : List Word} (h : (as.all fun a => memKind c a == x) = true) :
    ∀ a ∈ as, memKind c a = x := by
  simpa using h

/-! ### Well-formedness -/

/-- An operation under an Oreg that does not select it, and `opr` where its operand selects an operation, are refused. -/
theorem test_wellFormed_instr :
    Instr.wellFormedAt 0 .start = false ∧ Instr.wellFormedAt 0x1F0 .start = true
    ∧ Instr.wellFormedAt 0x10 .mint = false ∧ Instr.wellFormedAt 0x20 (.opr 0xD) = false
    ∧ Instr.wellFormedAt 0 (.opr 0xD) = true ∧ Instr.wellFormedAt 0x20 (.stl 0xF) = true := by decide

/-- The example configurations are admitted (R7). -/
theorem test_wellFormed_cfg :
    cfgA.wellFormed = true ∧ cfgB.wellFormed = true ∧ cfgJ.wellFormed = true ∧ cfgI.wellFormed = true := by decide

/-- Fields that are no words of W bits are refused. -/
theorem test_illFormed_width :
    { cfgB with memStart := 0x80008024 }.wellFormed = false ∧ { cfgB with resetCodePtr := 0x7FFFFFFE }.wellFormed = false
    ∧ { cfgB with errorFlag := 0x10000 }.wellFormed = false ∧ { cfgB with haltOnErrorFlag := 0x10000 }.wellFormed = false
    ∧ { cfgB with enableJ0BreakFlag := 0x10000 }.wellFormed = false := by decide

/-- A MemStart that is no multiple of BPW or lies among the Link words is refused; #80000020 is the first that is not. -/
theorem test_illFormed_memStart :
    { cfgA with memStart := 0x8000004A }.wellFormed = false ∧ { cfgA with memStart := 0x8000001C }.wellFormed = false
    ∧ { cfgA with memStart := 0x80000020 }.wellFormed = true := by decide

/-- A mask that is not one bit, or that is another's bit, is refused. -/
theorem test_illFormed_masks :
    { cfgA with errorFlag := 0 }.wellFormed = false ∧ { cfgA with haltOnErrorFlag := 6 }.wellFormed = false
    ∧ { cfgA with enableJ0BreakFlag := 0 }.wellFormed = false ∧ { cfgA with errorFlag := 2 }.wellFormed = false
    ∧ { cfgA with errorFlag := 4 }.wellFormed = false ∧ { cfgA with haltOnErrorFlag := 4 }.wellFormed = false := by
  decide

/-! ### Decoding -/

/-- The nine operations, from R99 and R100. -/
theorem test_decode_operations :
    decodeBytes .w32 0 0 [0x21, 0x2F, 0xFF] = .ok (.start, 0x1F0, 2, [])
    ∧ decodeBytes .w32 0 0 [0x22, 0xFD] = .ok (.testhardchan, 0x20, 1, [])
    ∧ decodeBytes .w32 0 0 [0x22, 0xF5] = .ok (.testldd, 0x20, 1, [])
    ∧ decodeBytes .w32 0 0 [0x22, 0xF8] = .ok (.teststd, 0x20, 1, [])
    ∧ decodeBytes .w32 0 0 [0x22, 0xF4] = .ok (.testlde, 0x20, 1, [])
    ∧ decodeBytes .w32 0 0 [0x22, 0xF7] = .ok (.testste, 0x20, 1, [])
    ∧ decodeBytes .w32 0 0 [0x22, 0xF3] = .ok (.testlds, 0x20, 1, [])
    ∧ decodeBytes .w32 0 0 [0x22, 0xF6] = .ok (.teststs, 0x20, 1, [])
    ∧ decodeBytes .w32 0 0 [0x24, 0xF2] = .ok (.mint, 0x40, 1, []) :=
  ⟨rfl, rfl, rfl, rfl, rfl, rfl, rfl, rfl, rfl⟩

/-- Functions, with their data field (T-EN6 to T-EN8, T-EN12, T-EN13, T-EN16, T-EN17). -/
theorem test_decode_functions :
    decodeBytes .w32 0 0 [0x4F] = .ok (.ldc 0xF, 0, 0, []) ∧ decodeBytes .w32 0 0 [0x21, 0x40] = .ok (.ldc 0, 0x10, 1, [])
    ∧ decodeBytes .w32 0 0 [0x21, 0x60, 0x4F] = .ok (.ldc 0xF, 0xFFFFFEF0, 2, [])
    ∧ decodeBytes .w32 0 0 [0x6F, 0x00] = .ok (.j 0, 0xFFFFFF00, 1, [])
    ∧ decodeBytes .w16 0 0 [0x6F, 0x00] = .ok (.j 0, 0xFF00, 1, [])
    ∧ decodeBytes .w32 0 0 [0x54] = .ok (.ldnlp 4, 0, 0, []) ∧ decodeBytes .w32 0 0 [0xD1] = .ok (.stl 1, 0, 0, [])
    ∧ decodeBytes .w32 0 0 [0x2F] = .ok (.pfix 0xF, 0, 0, []) ∧ decodeBytes .w32 0 0 [0x60] = .ok (.nfix 0, 0, 0, [])
    ∧ decodeBytes .w32 0 0 [0x21, 0xFF] = .ok (.opr 0xF, 0x10, 1, []) :=
  ⟨rfl, rfl, rfl, rfl, rfl, rfl, rfl, rfl, rfl, rfl⟩

/-- Redundant prefixes (T-EN3, T-EN4) and what follows an instruction. -/
theorem test_decode_longer_forms :
    decodeBytes .w32 0 0 [0x20, 0x22, 0xFD] = .ok (.testhardchan, 0x20, 2, [])
    ∧ decodeBytes .w32 0 0 [0x20, 0x20, 0x21, 0x2F, 0xFF] = .ok (.start, 0x1F0, 4, [])
    ∧ decodeBytes .w32 0 0 [0x40, 0x24, 0xF2] = .ok (.ldc 0, 0, 0, [0x24, 0xF2]) :=
  ⟨rfl, rfl, rfl⟩

/-- Functions the spec does not specify are refused by name (T-EN18), and so is the empty list. -/
theorem test_decode_refused :
    [0x10, 0x30, 0x70, 0x80, 0x90, 0xA0, 0xB0, 0xC0, 0xE0].map (fun b : Byte => decodeByte 0 b)
      = [1, 3, 7, 8, 9, 0xA, 0xB, 0xC, 0xE].map (fun f : Nibble => .error (.functionNotSpecified f))
    ∧ decodeBytes .w32 0 0 [] = .error .noByte := by decide

/-- The encoder's words (R99, R100). -/
theorem test_encode :
    encode .start = [0x21, 0x2F, 0xFF] ∧ encode .testhardchan = [0x22, 0xFD] ∧ encode .testldd = [0x22, 0xF5]
    ∧ encode .teststd = [0x22, 0xF8] ∧ encode .testlde = [0x22, 0xF4] ∧ encode .testste = [0x22, 0xF7]
    ∧ encode .testlds = [0x22, 0xF3] ∧ encode .teststs = [0x22, 0xF6] ∧ encode .mint = [0x24, 0xF2]
    ∧ encode (.pfix 1) = [0x21] ∧ encode (.opr 0xF) = [0xFF] ∧ encode (.nfix 0xF) = [0x6F] ∧ encode (.j 5) = [0x05]
    ∧ encode (.ldc 0xF) = [0x4F] ∧ encode (.ldnlp 4) = [0x54] ∧ encode (.stl 1) = [0xD1] := by decide

/-- The canonical codes that section 2.1 of 95_test_vectors.md lists. -/
theorem test_canonical :
    canonicalCode .w32 4 16 = [0x21, 0x40] ∧ canonicalCode .w32 4 255 = [0x2F, 0x4F]
    ∧ canonicalCode .w32 4 256 = [0x21, 0x20, 0x40] ∧ canonicalCode .w32 4 0xFFFFFFFF = [0x60, 0x4F]
    ∧ canonicalCode .w16 4 0xFFF0 = [0x60, 0x40] ∧ canonicalCode .w16 4 0xFFEF = [0x61, 0x4F]
    ∧ canonicalCode .w32 4 0xFFFFFF00 = [0x6F, 0x40] ∧ canonicalCode .w32 4 0xFFFFFEFF = [0x21, 0x60, 0x4F]
    ∧ canonicalCode .w32 0xF 0x1FF = [0x21, 0x2F, 0xFF] ∧ canonicalCode .w16 0xF 0x42 = [0x24, 0xF2] := by decide

/-! ### Steps -/

/-- T-ST12. -/
theorem test_start_rom :
    seen (fun t => (stack t, t.iPtr, t.wPtr, t.procPriority))
        (exec .start { machineAt cfgA 0x80000202 1 2 3 with wPtr := 0x80000F00, procPriority := .high, oreg := 0x1F0 })
      = some ((0x80000203, 0x80000F00, 3), 0x7FFFFFFE, 0x80000048, .low) := by decide

/-- T-ST5: a boot, one step for the poll, for each byte and for the end. -/
theorem test_start_link :
    seen (fun t => (t.mem, t.bReg, t.cReg, t.iPtr, t.wPtr)) (afterStart 5 (hearing cfgB .link3 [3, 0x40, 0x41, 0x42]))
      = some ([(0x8024, 0x40), (0x8025, 0x41), (0x8026, 0x42)], 0x9101, 0x800E, 0x8024, 0x8028) := by decide

/-- T-ST6, T-ST7: a poke and a peek. -/
theorem test_start_poke_peek :
    seen (fun t => t.mem) (afterStart 7 (hearing cfgB .link0 [0, 0x00, 0x90, 0xEF, 0xBE]))
        = some [(0x9000, 0xEF), (0x9001, 0xBE)]
    ∧ seen (fun t => t.links.l2.toHost)
        (afterStart 7 ((hearing cfgB .link2 [1, 0x00, 0x90]).placeBytes 0x9000 [0xEF, 0xBE])) = some [0xEF, 0xBE] := by
  decide

/-- R42, R43, R45: within a boot message CountReg is minus the bytes to come, and a word is written when it is complete. -/
theorem test_channel_counts :
    [1, 2, 3].map (fun n => seen (fun t => ((t.channel ⟨.link3, .inp⟩).count, (t.channel ⟨.link3, .inp⟩).ptr, t.mem))
        (afterStart n (hearing cfgB .link3 [3, 0x40, 0x41])))
      = [some (0xFFFD, 0x8024, []), some (0xFFFE, 0x8024, []), some (0xFFFF, 0x8026, [(0x8024, 0x40), (0x8025, 0x41)])] := by
  decide

/-- R164 with R42: an Analyse that cuts a message leaves CountReg at minus the bytes that were to come. -/
theorem test_analyse_keeps_CountReg :
    let cut := { booting cfgB .link3 [] (.code .link3 3) ⟨.link3, .inp⟩ ⟨0xFFFE, 0x8024, 0x40, .memory, false, 1, false⟩ with
      turns := [.host .analyseHigh, .host .resetHigh, .host .resetLow, .host .analyseLow] }
    seen (fun t => (t.channel ⟨.link3, .inp⟩).count) (Host.Core.run Sys2Proof.core 4 cut) = some 0xFFFE := by decide

/-- R138, D32: CountReg of the boot Link's input channel is as `start` saved it, also with a byte behind the message. -/
theorem test_boot_restores_CountReg :
    seen (fun t => ((t.channel ⟨.link3, .inp⟩).count, t.links.l3.fromHost))
        (Host.Core.run Sys2Proof.core 4 (polling cfgB .link3 [2, 0x40, 0x41, 9])) = some (4, [9]) := by decide

/-- R241, U12: a message that is not `start`'s own stops the machine, whose turn it may be; in the Link phase too. -/
theorem test_process_message_refused :
    let c : Channel := ⟨0xFFFD, 0x8024, 0, .memory, false, 0, false⟩
    let s := (machineAt cfgB 0x8100 1 2 3).setChannel ⟨.link1, .inp⟩ c
    let b := (polling cfgB .link3 [2, 0x40, 0x41]).setChannel ⟨.link1, .inp⟩ c
    [[], [.cpu], [.channel ⟨.link1, .inp⟩], [.host .resetHigh]].map (fun l => refusal (step { s with turns := l }))
      = [some .notOneProcess, some .notOneProcess, some .notOneProcess, some .notOneProcess]
    ∧ refusal (step b) = some .notOneProcess := by decide

/-- R48, R242: a byte whose first bit comes during a message keeps its channel active after it. -/
theorem test_shifting_outlasts_message :
    let s := { booting cfgB .link3 [0x41] (.code .link3 3) ⟨.link3, .inp⟩ ⟨0xFFFF, 0x8026, 0, .memory, false, 0, false⟩ with
      turns := [.host (.linkShift .link3)] }
    seen (fun t => (t.control, t.anyActive, t.iPtr)) (Host.Core.run Sys2Proof.core 3 s) = some (.run, true, 0x8024) := by
  decide

/-- T-HC2. -/
theorem test_testhardchan :
    seen (fun t => (stack t, t.channel ⟨.link3, .out⟩))
        (exec .testhardchan (withChannel (machineAt cfgB 0x8100 0x8006 0xFFFF 1) ⟨.link3, .out⟩ 0xFFFD 0x9000 0x1234))
      = some ((0x1234, 1, 1), ⟨0xFFFF, 0xFFFD, 0x9000, .idle, false, 0, true⟩) := by decide

/-- T-HC6: all three operands equal. -/
theorem test_testhardchan_equal :
    seen (fun t => (stack t, t.channel ⟨.link0, .inp⟩))
        (exec .testhardchan
          (withChannel (machineAt cfgA 0x80000100 0x80000010 0x80000010 0x80000010) ⟨.link0, .inp⟩ 1 2 3))
      = some ((3, 0x80000010, 0x80000010), ⟨0x80000010, 1, 2, .idle, false, 0, true⟩) := by decide

/-- T-RT1. -/
theorem test_testldd :
    seen stack (exec .testldd { machineAt cfgB 0x8100 1 2 3 with dReg := 0xDD00 }) = some (0xDD00, 1, 2) := by decide

/-- T-RT2. -/
theorem test_teststd :
    seen (fun t => (stack t, t.dReg)) (exec .teststd (machineAt cfgB 0x8100 0xD0D0 2 3)) = some ((2, 3, 3), 0xD0D0) := by decide

/-- T-RT3. -/
theorem test_testlde :
    seen stack (exec .testlde { machineAt cfgB 0x8100 1 2 3 with eReg := 0xEE00 }) = some (0xEE00, 1, 2) := by decide

/-- T-RT4. -/
theorem test_testste :
    seen (fun t => (stack t, t.eReg)) (exec .testste (machineAt cfgB 0x8100 0xE0E0 2 3)) = some ((2, 3, 3), 0xE0E0) := by decide

/-- T-RT5. -/
theorem test_testlds :
    seen stack (exec .testlds { machineAt cfgB 0x8100 1 2 3 with statusReg := 3 }) = some (3, 1, 2) := by decide

/-- T-RT6. -/
theorem test_teststs_clears :
    seen (fun t => (stack t, t.statusReg)) (exec .teststs { machineAt cfgB 0x8100 0 2 3 with statusReg := 3 })
      = some ((2, 3, 3), 0) := by decide

/-- T-RT10: every bit is stored. -/
theorem test_teststs_whole_word :
    seen (fun t => t.statusReg) (exec .teststs (machineAt cfgA 0x80000100 0xFFFFFFFD 2 3)) = some 0xFFFFFFFD := by decide

/-- T-AX9. -/
theorem test_mint : seen stack (exec .mint (machineAt cfgB 0x8100 1 2 3)) = some (0x8000, 1, 2) := by decide

/-- T-EN12, its first byte. -/
theorem test_pfix :
    seen (fun t => (t.oreg, t.iPtr, stack t)) (exec (.pfix 1) (machineAt cfgA 0x80000100 1 2 3))
      = some (0x10, 0x80000101, (1, 2, 3)) := by decide

/-- T-EN12, its second byte, and T-EN11. -/
theorem test_nfix :
    seen (fun t => t.oreg) (exec (.nfix 0) { machineAt cfgA 0x80000101 1 2 3 with oreg := 0x10 }) = some 0xFFFFFEF0
    ∧ seen (fun t => t.oreg) (exec (.nfix 0) (machineAt cfgB 0x8100 1 2 3)) = some 0xFFF0 := by decide

/-- `FD` under Oreg #20 is `testhardchan` (R98). -/
theorem test_opr :
    seen stack (exec (.opr 0xD) { machineAt cfgA 0x80000101 0x80000010 7 8 with oreg := 0x20 }) = some (0, 8, 8) := by decide

/-- T-EN19, T-EN21. -/
theorem test_opr_refused :
    refusal (exec (.opr 7) (machineAt cfgA 0x80000100 1 2 3)) = some (.operationNotSpecified 7 "in")
    ∧ refusal (exec (.opr 0xF) { machineAt cfgA 0x80000101 1 2 3 with oreg := 0x10 }) = some (.operationNotSpecified 0x1F "") := by
  decide

/-- T-AX2, T-AX3: backwards, and past the top of memory. -/
theorem test_j :
    seen (fun t => (t.iPtr, stack t)) (exec (.j 0xD) { machineAt cfgA 0x80000101 1 2 3 with oreg := 0xFFFFFFF0 })
        = some (0x800000FF, (1, 2, 3))
    ∧ seen (fun t => t.iPtr) (exec (.j 1) (machineAt cfgA 0x7FFFFFFF 1 2 3)) = some 0x80000001 := by decide

/-- T-AX5, T-AX6, and the part without the flag (D40). -/
theorem test_j_breakpoint :
    seen (fun t => t.iPtr) (exec (.j 0) (machineAt cfgJ 0x80000100 1 2 3)) = some 0x80000101
    ∧ refusal (exec (.j 0) { machineAt cfgJ 0x80000100 1 2 3 with statusReg := 4 }) = some .breakpoint
    ∧ seen (fun t => t.iPtr) (exec (.j 0) { machineAt cfgA 0x80000100 1 2 3 with statusReg := 4 }) = some 0x80000101 := by
  decide

/-- T-AX8. -/
theorem test_ldc :
    seen stack (exec (.ldc 0xF) { machineAt cfgB 0x8101 1 2 3 with oreg := 0xFFF0 }) = some (0xFFFF, 1, 2) := by decide

/-- T-AX10, T-AX11: a 16-bit part, and a wrap. -/
theorem test_ldnlp :
    seen stack (exec (.ldnlp 4) (machineAt cfgB 0x8100 0x8000 2 3)) = some (0x8008, 2, 3)
    ∧ seen stack (exec (.ldnlp 0xF) { machineAt cfgA 0x80000101 0x80000000 2 3 with oreg := 0xFFFFFFF0 })
        = some (0x7FFFFFFC, 2, 3) := by decide

/-- T-AX12, T-AX13. -/
theorem test_stl :
    seen (fun t => (t.mem, stack t)) (exec (.stl 3) { machineAt cfgB 0x8100 0xBEEF 2 3 with wPtr := 0x8040 })
        = some ([(0x8046, 0xEF), (0x8047, 0xBE)], (2, 3, 3))
    ∧ seen (fun t => t.mem)
        (exec (.stl 0xF) { machineAt cfgA 0x80000201 0x11223344 2 3 with wPtr := 0x80000100, oreg := 0xFFFFFFF0 })
        = some [(0x800000FC, 0x44), (0x800000FD, 0x33), (0x800000FE, 0x22), (0x800000FF, 0x11)] := by decide

/-- T-AX14, T-AX15. -/
theorem test_stl_stops :
    refusal (exec (.stl 0) { machineAt cfgA 0x80000100 5 2 3 with wPtr := 0x7FFFFF00 }) = some (.romWrite 0x7FFFFF00)
    ∧ refusal (exec (.stl 0) { machineAt cfgA 0x80000100 5 2 3 with wPtr := 0x80000101 }) = some (.misalignedWord 0x80000101)
    ∧ seen (fun t => t.mem) (exec (.stl 0) { machineAt cfgI 0x80000200 5 2 3 with wPtr := 0x80000101 })
        = some [(0x80000100, 5)] := by decide

/-- A memory in which a byte is written back to what an unlisted address reads as is the empty memory. -/
theorem test_memory_canonical : Memory.write (Memory.write [] 5 7) 5 0 = [] := by decide

/-- `withFetchWord` makes the next step run the instruction (log 9). -/
theorem test_fetch_word :
    step (State.reset.withFetchWord 24 0x212FFF) = exec .start (State.reset.withFetchWord 24 0x212FFF)
    ∧ seen stack (step (State.reset.withFetchWord 8 0x4F)) = some (15, 0, 0) := ⟨by rfl, by decide⟩

/-! ### Witnesses: states and operands that meet the hypotheses of the statements -/

theorem test_witness_FinalByteDecodesToItsInstruction :
    Instr.wellFormedAt 0x1F0 .start = true ∧ Instr.wellFormedAt 0x40 .mint = true
    ∧ Instr.wellFormedAt 0 (.opr 0) = true ∧ Instr.wellFormedAt 0xFFFFFFF0 (.j 0xF) = true := by decide

theorem test_witness_DecodedByteIsTheFinalByte :
    (0x20 : Word) &&& 0xF = 0 ∧ decodeByte 0x20 0xF5 = .ok .testldd ∧ (0 : Word) &&& 0xF = 0
    ∧ decodeByte 0 0xF5 = .ok (.opr 5) := by decide

theorem test_witness_CanonicalCodeCarriesItsOperand :
    (0x4 : Nibble) ≠ 0x2 ∧ (0x4 : Nibble) ≠ 0x6 ∧ inWord .w32 0x80000000 = true ∧ inWord .w16 0xFFFF = true
    ∧ inWord .w16 0 = true := by decide

theorem test_witness_StepRunsTheDecodedInstruction :
    let s := holding cfgA 0x80000100 [0x54]
    s.control = .run ∧ s.oneProcess = true ∧ (s.cfg.wordSize.trunc s.iPtr).toNat ∉ s.written
    ∧ memKind s.cfg (s.cfg.wordSize.trunc s.iPtr) ≠ none
    ∧ decodeByte (s.cfg.wordSize.trunc s.oreg) (s.mem.read (s.cfg.wordSize.trunc s.iPtr).toNat) = .ok (.ldnlp 4)
    ∧ s.turns = [] ∧ { s with turns := [.cpu] }.turns = .cpu :: [] := by decide

theorem test_witness_StepStopsBeforeAnInstruction :
    let s := holding cfgA 0x80000100 [0x70]
    let e := machineAt cfgA 0x80001000 1 2 3
    let w := { s with written := [0x80000100] }
    s.turns = [] ∧ s.control = .run
    ∧ { s with timerAlarmLow := true }.oneProcess = false
    ∧ w.oneProcess = true ∧ (w.cfg.wordSize.trunc w.iPtr).toNat ∈ w.written
    ∧ e.oneProcess = true ∧ (e.cfg.wordSize.trunc e.iPtr).toNat ∉ e.written
    ∧ memKind e.cfg (e.cfg.wordSize.trunc e.iPtr) = none
    ∧ s.oneProcess = true ∧ (s.cfg.wordSize.trunc s.iPtr).toNat ∉ s.written
    ∧ memKind s.cfg (s.cfg.wordSize.trunc s.iPtr) ≠ none
    ∧ functionOf (s.mem.read (s.cfg.wordSize.trunc s.iPtr).toNat)
        ∈ [(0x1 : Nibble), 0x3, 0x7, 0x8, 0x9, 0xA, 0xB, 0xC, 0xE] := by decide

theorem test_witness_TwoByteMemoryCodeRunsItsOperation :
    let s := holding cfgA 0x80000FFE [0x22, 0xFD]
    leadingBytes .testhardchan = [0x22] ∧ s.turns = [] ∧ s.control = .run ∧ s.oneProcess = true ∧ s.oreg = 0
    ∧ s.written = [] ∧ inWord s.cfg.wordSize s.iPtr = true ∧ memKind s.cfg s.iPtr ≠ none
    ∧ memKind s.cfg s.nextInst ≠ none ∧ s.mem.read s.iPtr.toNat = 0x22
    ∧ s.mem.read s.nextInst.toNat = finalByte .testhardchan := by decide

/-- For the statements whose hypothesis is that Oreg is a word of W bits. -/
theorem test_witness_oreg_inWord :
    inWord cfgA.wordSize { machineAt cfgA 0x80000100 1 2 3 with oreg := 0xFFFFFFF0 }.oreg = true
    ∧ inWord cfgB.wordSize { machineAt cfgB 0x8100 1 2 3 with oreg := 0xFFF0 }.oreg = true := by decide

theorem test_witness_OprExecutesTheSelectedOperation :
    let s := { machineAt cfgA 0x80000100 1 2 3 with oreg := 0x1F0 }
    inWord s.cfg.wordSize s.oreg = true
    ∧ Instr.start.operationCode = some (s.oreg ||| (0xF : Nibble).zeroExtend 32).toNat := by decide

theorem test_witness_UnlistedOperationIsRefused :
    let s := { machineAt cfgA 0x80000100 1 2 3 with oreg := 0x20 }
    inWord s.cfg.wordSize s.oreg = true ∧ (s.oreg ||| (0x9 : Nibble).zeroExtend 32).toNat ∉ operationCodes
    ∧ (s.oreg ||| (0xE : Nibble).zeroExtend 32).toNat ∉ operationCodes := by decide

theorem test_witness_OprCompletesOnTheRegisterOperations :
    inWord .w32 0x20 = true ∧ inWord .w32 0x40 = true
    ∧ ((0x20 : Word) ||| (0x5 : Nibble).zeroExtend 32).toNat = 0x25
    ∧ ((0x20 : Word) ||| (0x4 : Nibble).zeroExtend 32).toNat = 0x24
    ∧ ((0x20 : Word) ||| (0x3 : Nibble).zeroExtend 32).toNat = 0x23
    ∧ ((0x40 : Word) ||| (0x2 : Nibble).zeroExtend 32).toNat = 0x42
    ∧ ((0x20 : Word) ||| (0x8 : Nibble).zeroExtend 32).toNat = 0x28
    ∧ ((0x20 : Word) ||| (0x7 : Nibble).zeroExtend 32).toNat = 0x27 := by decide

/-- T-RT7 and T-RT9. -/
theorem test_witness_TeststsReplacesStatusReg :
    ¬ ((1 : Word) &&& cfgA.errorFlag = cfgA.errorFlag ∧ (1 : Word) &&& cfgA.haltOnErrorFlag = cfgA.haltOnErrorFlag)
    ∧ ((3 : Word) &&& cfgA.errorFlag = cfgA.errorFlag ∧ (3 : Word) &&& cfgA.haltOnErrorFlag = cfgA.haltOnErrorFlag) := by
  decide

/-- T-RT8. -/
theorem test_witness_TeststsRaisingErrorHaltIsRefused :
    let s := { machineAt cfgA 0x80000100 3 2 3 with statusReg := 2 }
    (s.aReg &&& s.cfg.errorFlag = s.cfg.errorFlag ∧ s.aReg &&& s.cfg.haltOnErrorFlag = s.cfg.haltOnErrorFlag)
    ∧ ¬ (s.statusReg &&& s.cfg.errorFlag = s.cfg.errorFlag
        ∧ s.statusReg &&& s.cfg.haltOnErrorFlag = s.cfg.haltOnErrorFlag) := by decide

theorem test_witness_RegisterRoundTrips : raisesErrorHalt cfgA 2 1 = false := by decide

/-- T-AX5 (the operand is 0 and the flag clear), a `j` with a non-zero operand under the flag, and T-AX6. -/
theorem test_witness_JumpGoesToNextInstPlusOperand_and_BreakpointJumpIsRefused :
    let s := machineAt cfgJ 0x80000100 1 2 3
    inWord s.cfg.wordSize s.oreg = true ∧ s.oreg ||| (0 : Nibble).zeroExtend 32 = 0 ∧ s.cfg.hasJ0Break = true
    ∧ s.statusReg &&& s.cfg.enableJ0BreakFlag ≠ s.cfg.enableJ0BreakFlag
    ∧ s.oreg ||| (1 : Nibble).zeroExtend 32 ≠ 0
    ∧ { s with statusReg := 4 }.statusReg &&& s.cfg.enableJ0BreakFlag = s.cfg.enableJ0BreakFlag := by decide

theorem test_witness_RomEntryJumpsIntoTheTopOfMemory :
    let s := { State.reset with cfg := cfgB, iPtr := cfgB.resetCodePtr }
    s.cfg.resetCodePtr = s.cfg.wordSize.maxInt - 1 ∧ s.iPtr = s.cfg.resetCodePtr ∧ s.oreg = 0 := by decide

/-- The last word of RAM on a 32-bit part, and a misaligned one under `ignore_low_bits`. -/
theorem test_witness_StlStoresAReg :
    let s := { machineAt cfgA 0x80000100 5 2 3 with wPtr := 0x80000FFC }
    let i := { machineAt cfgI 0x80000100 5 2 3 with wPtr := 0x80000FFF }
    s.mem.wf = true ∧ alignedAddress s.cfg (index s.cfg.wordSize s.wPtr (s.operand 0)) = .ok 0x80000FFC
    ∧ alignedAddress i.cfg (index i.cfg.wordSize i.wPtr (i.operand 0)) = .ok 0x80000FFC
    ∧ (∀ a ∈ addressSpan .w32 4 0x80000FFC, memKind cfgA a = some .ram)
    ∧ ∀ a ∈ addressSpan .w32 4 0x80000FFC, memKind cfgI a = some .ram :=
  ⟨by decide, by decide, by decide, all_of_span (by rfl), all_of_span (by rfl)⟩

/-- A misaligned address, an empty one and one in ROM. -/
theorem test_witness_StlStopsOnMemoryThatCannotBeWritten :
    let a := index .w32 0x80000101 0
    cfgA.misaligned = .refuse ∧ a.toNat % 4 ≠ 0
    ∧ alignedAddress cfgA 0x80001000 = .ok 0x80001000 ∧ (0x80001003 : Word) ∈ addressSpan .w32 4 0x80001000
    ∧ memKind cfgA 0x80001003 ≠ some .ram
    ∧ alignedAddress cfgA 0x7FFFFFFC = .ok 0x7FFFFFFC ∧ (0x7FFFFFFF : Word) ∈ addressSpan .w32 4 0x7FFFFFFC
    ∧ memKind cfgA 0x7FFFFFFF ≠ some .ram := by decide

theorem test_witness_WordAccessAddress :
    inWord .w32 0x80000100 = true ∧ (0x80000100 : Word).toNat % 4 = 0 ∧ (0x80000103 : Word).toNat % 4 ≠ 0
    ∧ inWord .w16 0x8001 = true ∧ (0x8001 : Word).toNat % 2 ≠ 0 ∧ cfgA.misaligned = .refuse
    ∧ cfgI.misaligned = .ignoreLowBits := by decide

/-- The first and the last address of the fetch window after an `stl` at #80000100, and a machine that reaches it. -/
theorem test_witness_ByteWrittenAheadOfFetchIsRefused :
    let s := { machineAt cfgA 0x80000103 5 2 3 with wPtr := 0x80000104 }
    seen (fun t => (t.iPtr, t.written)) (exec (.stl 0) s)
        = some (0x80000104, [0x80000104, 0x80000105, 0x80000106, 0x80000107])
    ∧ seen (fun t => t.written) (exec (.stl 2) s) = some [0x8000010C, 0x8000010D, 0x8000010E, 0x8000010F]
    ∧ seen (fun t => t.written) (exec (.stl 3) s) = some []
    ∧ alignedAddress s.cfg (index s.cfg.wordSize s.wPtr (s.operand 2)) = .ok 0x8000010C
    ∧ (0x8000010F : Word) ∈ addressSpan .w32 4 0x8000010C
    ∧ (WordSize.w32.trunc (0x8000010F - 0x80000104)).toNat < 12
    ∧ refusal (step { machineAt cfgA 0x8000010F 1 2 3 with written := [0x8000010F] }) = some (.fetchOfWrittenByte 0x8000010F)
    ∧ seen (fun u => u.written) (exec (.j 0) { s with written := [0x8000010F] }) = some [] := by decide

theorem test_witness_TesthardchanPushesThroughTheChannel :
    let s := machineAt cfgB 0x8100 0x800E 2 3
    s.aReg = linkWord s.cfg.wordSize ⟨.link3, .inp⟩ ∧ s.anyActive = false := by decide

/-- T-HC3's addresses that select nothing, and T-HC4. -/
theorem test_witness_TesthardchanRefusals :
    let s := busy (machineAt cfgA 0x80000100 0x80000000 2 3) ⟨.link1, .inp⟩
    [0x80000020, 0x80000048, 0x80000011, 0, 0x7FFFFFFC].map (channelOf .w32) = [none, none, none, none, none]
    ∧ s.aReg = linkWord s.cfg.wordSize ⟨.link0, .out⟩ ∧ (s.channel ⟨.link1, .inp⟩).active = true := by decide

theorem test_witness_ThreePushesReadOutTheChannel : (machineAt cfgA 0x80000100 1 2 3).anyActive = false := by decide

theorem test_witness_StartBootsFromRom :
    (machineAt cfgA 0x80000100 1 2 3).anyActive = false ∧ (machineAt cfgA 0x80000100 1 2 3).pins.bootFromRom = true := by decide

theorem test_witness_StartWhileALinkIsActiveIsRefused :
    ((busy (machineAt cfgA 0x80000100 1 2 3) ⟨.link1, .inp⟩).channel ⟨.link1, .inp⟩).active = true := by decide

theorem test_witness_StartWaitsForTheHost :
    let s := hearing cfgB .link0 []
    s.anyActive = false ∧ s.pins.bootFromRom = false ∧ (∀ k, (s.link k).fromHost = []) ∧ s.turns = [] :=
  ⟨by decide, by decide, fun k => by cases k <;> rfl, by decide⟩

/-- The shortest boot message, with a byte after it (R129, R134), from `start` and after a peek on another Link. -/
theorem test_witness_StartBootsFromALink :
    let s := hearing cfgB .link3 [2, 0x40, 0x41, 9]
    let u := polling cfgB .link3 [2, 0x40, 0x41, 9]
    s.mem.wf = true ∧ s.anyActive = false ∧ s.pins.bootFromRom = false ∧ s.Hears .link3 (2 :: [0x40, 0x41] ++ [9])
    ∧ 2 ≤ (2 : Byte).toNat ∧ ([0x40, 0x41] : List Byte).length = (2 : Byte).toNat
    ∧ (∀ a ∈ addressSpan s.cfg.wordSize (2 : Byte).toNat s.cfg.memStart, memKind s.cfg a = some .ram)
    ∧ u.Polls afterPeek ∧ u.Hears .link3 (2 :: [0x40, 0x41] ++ [9]) ∧ u.mem.wf = true ∧ u.cfg = s.cfg :=
  ⟨by decide, by decide, by decide, hears_hearing _ _ _, by decide, by decide, all_of_span (by rfl), polls_polling _ _ _,
    hears_polling _ _ _, by decide, rfl⟩

theorem test_witness_PokeWritesAWord :
    let bytes := 0 :: bytesOf cfgB.wordSize.bytes 0x9000 ++ bytesOf cfgB.wordSize.bytes 0xBEEF
    let s := hearing cfgB .link0 bytes
    let u := polling cfgB .link0 bytes
    s.mem.wf = true ∧ s.anyActive = false ∧ s.pins.bootFromRom = false ∧ s.Hears .link0 bytes
    ∧ alignedAddress s.cfg 0x9000 = .ok 0x9000
    ∧ (∀ b ∈ addressSpan s.cfg.wordSize s.cfg.wordSize.bytes 0x9000, memKind s.cfg b = some .ram)
    ∧ u.Polls afterPeek ∧ u.Hears .link0 bytes ∧ u.mem.wf = true ∧ u.cfg = s.cfg :=
  ⟨by decide, by decide, by decide, hears_hearing _ _ _, by decide, all_of_span (by rfl), polls_polling _ _ _,
    hears_polling _ _ _, by decide, rfl⟩

theorem test_witness_PeekSendsAWord :
    let bytes := 1 :: bytesOf cfgB.wordSize.bytes 0x9000
    let s := hearing cfgB .link2 bytes
    let u := polling cfgB .link2 bytes
    s.anyActive = false ∧ s.pins.bootFromRom = false ∧ s.Hears .link2 bytes
    ∧ (s.channel ⟨.link2, .out⟩).pushed = false ∧ (s.link .link2).accepting = true
    ∧ alignedAddress s.cfg 0x9000 = .ok 0x9000
    ∧ (∀ b ∈ addressSpan s.cfg.wordSize s.cfg.wordSize.bytes 0x9000, memKind s.cfg b ≠ none)
    ∧ u.Polls afterPeek ∧ u.Hears .link2 bytes ∧ (u.channel ⟨.link2, .out⟩).pushed = false
    ∧ (u.link .link2).accepting = true ∧ u.cfg = s.cfg :=
  ⟨by decide, by decide, hears_hearing _ _ _, by decide, by decide, by decide, (fun b hb => by
      have h : memKind cfgB b = some .ram := all_of_span (as := addressSpan .w16 2 0x9000) (by rfl) b hb
      exact (fun e => by cases h.symm.trans e)), polls_polling _ _ _, hears_polling _ _ _, by decide, by decide, rfl⟩

/-- A Link phase with a peeked word to send, and the host not accepting it. -/
theorem test_witness_PeekWaitsForTheHostToAccept :
    let s := booting cfgB .link2 [] (.output .link2) ⟨.link2, .out⟩ ⟨0xFFFE, 0, 0xBEEF, .buffered, false, 0, false⟩
    let s := s.setLink .link2 { s.link .link2 with accepting := false }
    s.oneProcess = true ∧ (∃ b, s.control = .boot b ∧ b.phase = .output .link2)
    ∧ (s.channel ⟨.link2, .out⟩).transfer ≠ .idle
    ∧ (s.channel ⟨.link2, .out⟩).pushed = false ∧ s.turns = [] ∧ (s.link .link2).accepting = false :=
  ⟨by decide, ⟨_, rfl, rfl⟩, by decide, by decide, by decide, by decide⟩

/-- One Link that holds bytes is found. -/
theorem test_witness_PollFindsALinkWithAByte :
    (hearing cfgB .link2 [7]).pollLinkInputs.map (fun p => p.1) = some .link2 := by decide

/-- T-ST8 at its ends. -/
theorem test_witness_FirstFreeWordRoundsUp :
    [2, 3, 5, 255].map (fun n => firstFreeWord cfgA n - cfgA.memStart) = [4, 4, 8, 256]
    ∧ [2, 3, 254, 255].map (fun n => firstFreeWord cfgB n - cfgB.memStart) = [2, 4, 254, 256] := by decide

/-- What an Analyse and a Reset need of a state, with BootFromRom at either level. -/
def Resettable (s : State) : Prop :=
  (s.control = .run ∨ ∃ b, s.control = .boot b) ∧ s.oneProcess = true ∧ s.pins.reset = false ∧ s.pins.analyse = false

/-- In the middle of a program, and in the Link phase with a message in progress; BootFromRom high, and low. -/
theorem test_witness_ResetForcesStart_and_AnalyseKeepsMemory (l : List Turn) :
    let s := { holding cfgA 0x80000ABC [0x40] with turns := l }
    let b := { booting cfgB .link1 [] (.code .link1 3) ⟨.link1, .inp⟩ ⟨0xFFFD, 0x8024, 0, .memory, true, 0, false⟩ with
      turns := l }
    Resettable s ∧ s.pins.bootFromRom = true ∧ s.turns = l ∧ Resettable b ∧ b.pins.bootFromRom = false ∧ b.turns = l :=
  ⟨⟨.inl rfl, rfl, rfl, rfl⟩, rfl, rfl, ⟨.inr ⟨_, rfl⟩, rfl, rfl, rfl⟩, rfl, rfl⟩

/-- Held at power-on; and, on the way through an Analyse, after Analyse high and after Reset low. -/
theorem test_witness_HeldProcessorChangesNothing :
    let seenAfter := fun l : List Turn =>
      seen (fun t => (t.oneProcess, t.turns, t.control))
        (Host.Core.run Sys2Proof.core l.length { holding cfgA 0x80000ABC [0x40] with turns := l })
    State.powerOn.oneProcess = true ∧ State.powerOn.turns = [] ∧ State.powerOn.control = .resetHeld false
    ∧ seenAfter [.host .analyseHigh] = some (true, [], .analysing none)
    ∧ seenAfter [.host .analyseHigh, .host .resetHigh] = some (true, [], .resetHeld true)
    ∧ seenAfter [.host .analyseHigh, .host .resetHigh, .host .resetLow] = some (true, [], .analyseHeld) := by decide

/-- The first bit of a byte and the byte, on an idle channel and on one with a message in progress. -/
theorem test_witness_UnsolicitedByteSetsCountReg :
    let s := { machineAt cfgA 0x80000100 1 2 3 with turns := [.host (.linkByte .link1 0xAA), .cpu] }
    let m := booting cfgB .link1 [] (.code .link1 3) ⟨.link1, .inp⟩ ⟨0xFFFD, 0x8024, 0, .memory, true, 0, false⟩
    s.oneProcess = true ∧ m.oneProcess = true ∧ s.turns = .host (.linkByte .link1 0xAA) :: [.cpu] ∧ s.pins.reset = false
    ∧ { s with turns := [.host (.linkShift .link1)] }.turns = .host (.linkShift .link1) :: []
    ∧ (s.channel ⟨.link1, .inp⟩).pushed = false ∧ (s.channel ⟨.link1, .inp⟩).transfer = .idle
    ∧ (m.channel ⟨.link1, .inp⟩).pushed = false ∧ (m.channel ⟨.link1, .inp⟩).transfer ≠ .idle ∧ m.pins.reset = false := by
  decide

/-- An input message to memory: a byte within a word, the last of a word, the last of the message with a byte behind it; and
an output message: a byte of a word of `start`'s own, and the first of a word from memory. -/
theorem test_witness_ChannelMovesAByteOfItsMessage :
    let i := fun (n : Word) (f : Nat) =>
      { booting cfgB .link1 [7, 9] (.code .link1 3) ⟨.link1, .inp⟩ ⟨n, 0x8024, 0x40, .memory, false, f, false⟩ with
        turns := [.channel ⟨.link1, .inp⟩] }
    let o := fun (x : Transfer) =>
      { booting cfgB .link1 [] (.output .link1) ⟨.link1, .out⟩ ⟨0xFFFE, 0x8024, 0xBEEF, x, false, 0, false⟩ with
        turns := [.channel ⟨.link1, .out⟩] }
    (i 0xFFFD 0).mem.wf = true ∧ (i 0xFFFD 0).control.released = true ∧ (i 0xFFFD 0).oneProcess = true
    ∧ (o .buffered).oneProcess = true
    ∧ (i 0xFFFD 0).turns = .channel ⟨.link1, .inp⟩ :: [] ∧ ((i 0xFFFD 0).link .link1).fromHost = 7 :: [9]
    ∧ ((i 0xFFFD 0).channel ⟨.link1, .inp⟩).transfer = .memory ∧ ((i 0xFFFD 0).channel ⟨.link1, .inp⟩).pushed = false
    ∧ (memKind cfgB 0x8024 = some .ram ∧ memKind cfgB 0x8025 = some .ram)
    ∧ seen (fun t => ((t.channel ⟨.link1, .inp⟩).fill, t.mem)) (step (i 0xFFFD 0)) = some (1, [])
    ∧ seen (fun t => ((t.channel ⟨.link1, .inp⟩).fill, t.mem)) (step (i 0xFFFE 1))
        = some (0, [(0x8024, 0x40), (0x8025, 7)])
    ∧ seen (fun t => ((t.channel ⟨.link1, .inp⟩).count, t.mem)) (step (i 0xFFFF 0)) = some (1, [(0x8024, 7)])
    ∧ (o .buffered).turns = .channel ⟨.link1, .out⟩ :: [] ∧ ((o .buffered).link .link1).accepting = true
    ∧ ((o .buffered).channel ⟨.link1, .out⟩).pushed = false ∧ (o .buffered).control.released = true
    ∧ seen (fun t => (t.links.l1.toHost, (t.channel ⟨.link1, .out⟩).ptr)) (step (o .buffered)) = some ([0xEF], 0x8024)
    ∧ seen (fun t => (t.links.l1.toHost, (t.channel ⟨.link1, .out⟩).ptr)) (step (o .memory)) = some ([0], 0x8026) := by
  decide

/-- A channel left with a non-zero CountReg, in each of the places that find it so. -/
theorem test_witness_TransferAfterPushIsRefused :
    let t := machineAt cfgB 0x8100 0x800A 7 3
    let c : Channel := ⟨7, 0, 0, .idle, false, 0, true⟩
    let s := (machineAt cfgB 0x8100 1 2 3).setChannel ⟨.link1, .inp⟩ c
    let m := { booting cfgB .link1 [] (.code .link1 3) ⟨.link1, .inp⟩ { c with transfer := .memory } with
      turns := [.channel ⟨.link1, .inp⟩] }
    let p := booting cfgB .link1 [2] .poll ⟨.link1, .inp⟩ c
    let a := (booting cfgB .link1 [] (.address .link1 .peek) ⟨.link1, .out⟩ c).setChannel ⟨.link1, .inp⟩
      { Channel.idle with dbuff := 0x8000 }
    t.aReg = linkWord t.cfg.wordSize ⟨.link1, .inp⟩
    ∧ seen (fun u => (u.channel ⟨.link1, .inp⟩).pushed) (exec .testhardchan t) = some true
    ∧ s.oneProcess = true ∧ m.oneProcess = true ∧ p.oneProcess = true ∧ a.oneProcess = true
    ∧ (s.channel ⟨.link1, .inp⟩).pushed = true ∧ s.pins.reset = false
    ∧ { s with turns := [.host (.linkByte .link1 0xAA)] }.turns = .host (.linkByte .link1 0xAA) :: []
    ∧ { s with turns := [.host (.linkShift .link1)] }.turns = .host (.linkShift .link1) :: []
    ∧ (m.channel ⟨.link1, .inp⟩).pushed = true ∧ (m.channel ⟨.link1, .inp⟩).transfer ≠ .idle
    ∧ m.control.released = true ∧ m.turns = .channel ⟨.link1, .inp⟩ :: []
    ∧ (p.channel ⟨.link1, .inp⟩).pushed = true ∧ (p.link .link1).fromHost ≠ [] ∧ p.turns = []
    ∧ p.pendingLinks = [.link1]
    ∧ (a.channel ⟨.link1, .inp⟩).transfer = .idle ∧ (a.channel ⟨.link1, .out⟩).pushed = true ∧ a.turns = []
    ∧ a.loadWord (a.channel ⟨.link1, .inp⟩).dbuff = .ok 0
    ∧ refusal (step p) = some (.transferAfterPush .link1) ∧ refusal (step m) = some (.transferAfterPush .link1) := by
  decide

theorem test_witness_WordsAreLittleEndian :
    Memory.wf [(0x80000100, 0x78), (0x80000101, 0x56)] = true
    ∧ Memory.readWord .w32 [(0x80000100, 0x78), (0x80000101, 0x56), (0x80000102, 0x34), (0x80000103, 0x12)] 0x80000100
        = 0x12345678 := by decide

/-- The reset state meets the invariant, so the statements about every step from a state that meets it are not empty: a
step from it is its next state. -/
theorem test_witness_reset_inv : State.reset.Inv := ⟨by decide, by decide, by decide, by decide⟩

theorem test_witness_reset_quiet : State.reset.Quiet := ⟨by decide, by rintro ⟨⟩⟩

/-- A step from the reset state: an unlisted byte is `j 0`. The Oreg and canonical-memory hypotheses hold of it too. -/
theorem test_witness_reset_steps :
    seen (fun t => (t.iPtr, t.oreg)) (step State.reset) = some (0x7FFFFFFF, 0) ∧ State.reset.oreg &&& 0xF = 0
    ∧ State.reset.mem.wf = true ∧ memKind State.reset.cfg 0x7FFFFFFE = some .rom
    ∧ inWord State.reset.cfg.wordSize 0x7FFFFFFE = true := by decide

/-- For the statements about one instruction's next state: `start` from ROM completes, with Oreg 0. -/
theorem test_witness_start_completes :
    seen (fun t => (t.control, t.oreg)) (exec .start { machineAt cfgA 0x80000100 1 2 3 with oreg := 0x1F0 }) = some (.run, 0) := by
  decide

/-- For their clauses about the Link phase: its last step, from a message that is complete. -/
theorem test_witness_link_phase_ends :
    let s := booting cfgB .link3 [] (.code .link3 2) ⟨.link3, .inp⟩ ⟨0, 0x8026, 0, .idle, false, 0, false⟩
    (∃ b, s.control = .boot b) ∧ seen (fun t => (t.control, t.oreg)) (step s) = some (.run, 0)
    ∧ seen (fun t => (t.dReg, t.eReg, t.statusReg)) (ownStep s) = some (0, 0, 0) :=
  ⟨⟨_, rfl⟩, by decide, by decide⟩

/-- For the same statements: `opr` with an operand that they admit completes, and `ldc` writes none of the registers they
name. -/
theorem test_witness_instruction_rules :
    let s := { machineAt cfgA 0x80000100 1 2 3 with oreg := 0x20 }
    (s.operand 0x5).toNat ∉ [0x1FF, 0x2D, 0x26, 0x27, 0x28] ∧ seen (fun t => t.iPtr) (exec (.opr 5) s) = some 0x80000101
    ∧ seen (fun t => (t.dReg, t.eReg, t.statusReg)) (exec (.ldc 7) s) = some (0, 0, 0)
    ∧ seen (fun t => (t.wPtr, t.mem)) (exec (.ldc 7) s) = some (0x80000048, []) := by decide

end Tests.Slice0
end

