-- ==== Sys2Proof/Proofs/Scope.lean ====
section
/-! PROOFS. The statements of 00_scope.md: the invariant, kept by every agent's step (O51) and met at reset (O50), the
Link words (O31), and PreservedBits (O33). -/

namespace Sys2Proof.Machine

/-! ### Updates that keep the invariant -/

/-- The invariant says nothing of the process state, the pins, the Full bits, the note of bytes written, the turns left or
the count of free values. -/
theorem InvParts.of_eqButUnseen {s t : State} (h : InvParts s)
    (e : t = { s with
      procPriority := t.procPriority, timerAlarmHigh := t.timerAlarmHigh, timerAlarmLow := t.timerAlarmLow
      timesliceCount := t.timesliceCount, written := t.written, pins := t.pins, turns := t.turns, draws := t.draws
      buffers := { t.buffers with word0 := s.buffers.word0, word1 := s.buffers.word1 } }) : InvParts t := by
  rw [e]
  exact ⟨h.cfg, { h.cpu with }, h.channels, h.control, h.wf, h.below⟩

/-- The CPU's registers replaced by words of W bits, and nothing else that the invariant speaks of. -/
theorem InvParts.setCpu {s t : State} (h : InvParts s) (cpu : CpuInWords s.cfg.wordSize t)
    (cfg : t.cfg = s.cfg := by rfl) (links : t.links = s.links := by rfl)
    (control : t.control = s.control := by rfl) (mem : t.mem = s.mem := by rfl) : InvParts t := by
  have channel : ∀ ch, t.channel ch = s.channel ch := fun ch => by simp only [State.channel, State.link, links]
  constructor
  · exact cfg ▸ h.cfg
  · exact cfg ▸ cpu
  · exact fun ch => by rw [channel, cfg]; exact h.channels ch
  · rw [control, cfg]; exact h.control
  · exact mem ▸ h.wf
  · rw [mem, cfg]; exact h.below

theorem InvParts.setControl {s : State} (h : InvParts s) (c : Control) (hc : c.inWords s.cfg.wordSize = true) :
    InvParts { s with control := c } :=
  ⟨h.cfg, { h.cpu with }, h.channels, hc, h.wf, h.below⟩

theorem inWord_zero (ws : WordSize) : inWord ws 0 = true := by cases ws <;> decide

theorem inWord_minInt (ws : WordSize) : inWord ws ws.minInt = true := by cases ws <;> decide

theorem InvParts.clearOreg {s : State} (h : InvParts s) : InvParts { s with oreg := 0 } :=
  h.setCpu { h.cpu with oreg := inWord_zero _ }

theorem InvParts.setCReg {s : State} (h : InvParts s) {v : Word} (hv : inWord s.cfg.wordSize v = true) :
    InvParts { s with cReg := v } :=
  h.setCpu { h.cpu with cReg := hv }

theorem InvParts.jumpTo {s : State} (h : InvParts s) {target : Word} (ht : inWord s.cfg.wordSize target = true) :
    InvParts (s.jumpTo target) :=
  h.setCpu { h.cpu with iPtr := ht, buffer0 := inWord_readWord _ _ _, buffer1 := inWord_readWord _ _ _ }

/-- A word stored keeps memory canonical and within the address space (R61, R62). -/
theorem InvParts.writeWord {s : State} (h : InvParts s) (a v : Word) :
    InvParts { s with mem := s.mem.writeWord s.cfg.wordSize a v } :=
  h.setMem _ (Memory.wf_writeWord _ a v h.wf) (Memory.below_writeWord _ a v h.below)

theorem InvParts.storeNoted {s t : State} {a v : Word} (h : InvParts s) (hs : s.storeNoted a v = .ok t) :
    InvParts t := by
  obtain ⟨x, -, -, rfl⟩ := State.storeNoted_eq_ok.mp hs
  exact (h.writeWord x v).of_eqButUnseen rfl

/-! ### `start` -/

theorem InvParts.bootFromRom {s : State} (h : InvParts s) : InvParts s.bootFromRom :=
  have ⟨hmemStart, hreset⟩ := Cfg.inWord_of_wellFormed h.cfg
  h.enterBootCode _ _ hreset hmemStart

/-- The counts that the Link phase saves (R138) are those of the channels. -/
theorem InvParts.inputCounts {s : State} (h : InvParts s) : s.inputCounts.every (inWord s.cfg.wordSize) = true := by
  rw [PerLink.every_iff]
  intro k
  rw [State.inputCounts, PerLink.get_map]
  exact ((Channel.inWords_iff _ _).mp (h.channels ⟨k, .inp⟩)).1

theorem InvParts.beginStart {s : State} (h : InvParts s) : InvParts s.beginStart := by
  have quieted : InvParts { s with timerAlarmHigh := false, timerAlarmLow := false, timesliceCount := 0 } :=
    h.of_eqButUnseen rfl
  rcases s.beginStart_cases with e | e
  · exact e ▸ quieted.bootFromRom
  · exact e ▸ quieted.setControl _ h.inputCounts

theorem InvParts.enableOutput {s : State} (h : InvParts s) (k : Link) {v : Word}
    (hv : inWord s.cfg.wordSize v = true) : InvParts (s.enableOutput k v) := by
  refine h.draw.setChannel _ _ (Channel.enable_inWords _ _ ?_ (inWord_trunc _ _))
  obtain ⟨hcount, hptr, -⟩ := (Channel.inWords_iff _ _).mp (h.channels ⟨k, .out⟩)
  exact (Channel.inWords_iff _ _).mpr ⟨hcount, hptr, hv⟩

theorem InvParts.afterByte {s : State} (h : InvParts s) (k : Link) (rest : List Byte) :
    InvParts (s.afterByte k rest) :=
  h.setLink k _ rfl rfl

/-- CountReg of an input channel put back as the Link phase saved it (R138). -/
theorem InvParts.setCount {s : State} (h : InvParts s) (ch : ChannelId) {v : Word}
    (hv : inWord s.cfg.wordSize v = true) : InvParts (s.setChannel ch { s.channel ch with count := v }) :=
  h.setChannel _ _ ((Channel.inWords_iff _ _).mpr ⟨hv, ((Channel.inWords_iff _ _).mp (h.channels ch)).2⟩)

theorem State.drawUsed_cfg (s : State) (used : PerLink Bool) (d : Dir) : (s.drawUsed used d).cfg = s.cfg := by
  rw [(s.sameButLinks_drawUsed used d).state]

theorem State.drawPtrDBuff_cfg (s : State) (ch : ChannelId) : (s.drawPtrDBuff ch).cfg = s.cfg := rfl

theorem InvParts.finishBoot {s : State} (h : InvParts s) (b : Boot) (k : Link) (length : Nat)
    (hb : b.saved.every (inWord s.cfg.wordSize) = true) : InvParts (s.finishBoot b k length) := by
  have drawn := ((h.drawUsed (b.usedIn.set k false) .inp).drawUsed b.usedOut .out).drawPtrDBuff ⟨k, .inp⟩
  have restored := drawn.setCount ⟨k, .inp⟩ (v := b.saved.get k) <| by
    rw [State.drawPtrDBuff_cfg, State.drawUsed_cfg, State.drawUsed_cfg]
    exact (PerLink.every_iff _ _).mp hb k
  exact (restored.setCReg (inWord_trunc _ _)).enterBootCode _ _ (Cfg.inWord_of_wellFormed drawn.cfg).1
    (inWord_trunc _ _)

/-- Every move of the Link phase keeps the invariant (R128 to R138). -/
theorem InvParts.bootMove {s t : State} {b : Boot} (h : InvParts s) (hc : s.control = .boot b) (m : BootMove s b t) :
    InvParts t := by
  have saved : b.saved.every (inWord s.cfg.wordSize) = true := by
    have := h.control
    rwa [hc] at this
  have memStart := (Cfg.inWord_of_wellFormed h.cfg).1
  have taken : ∀ (k : Link) (rest : List Byte) (n : Nat),
      InvParts (({ s with draws := n } : State).afterByte k rest) :=
    fun k rest n => (h.of_eqButUnseen rfl : InvParts { s with draws := n }).afterByte k rest
  cases m with
  | word k p v rest n => exact ((taken k rest n).enable _ _ _ memStart).bootAt _ _ saved
  | message k v rest n => exact ((taken k rest n).enable _ _ _ memStart).bootAt _ _ saved
  | pokeAddress k => exact (h.draw.enable _ _ _ (inWord_trunc _ _)).bootAt _ _ saved
  | peekAddress k w _ load =>
    obtain ⟨x, -, -, rfl⟩ := State.loadWord_eq_ok.mp load
    exact (h.enableOutput k (inWord_readWord _ _ _)).bootAt _ _ saved
  | pokeData k a u _ store =>
    obtain ⟨x, -, -, rfl⟩ := State.storeWord_eq_ok.mp store
    exact (h.writeWord x _).bootAt _ _ saved
  | peekDone k => exact h.bootAt _ _ saved
  | booted k length => exact h.finishBoot b k length saved

/-! ### Instructions -/

/-- An instruction other than `opr` keeps the invariant. -/
theorem InvParts.exec_of_ne_opr {s t : State} {i : Instr} (h : InvParts s) (hi : ∀ d, i ≠ .opr d)
    (e : exec i s = .next t) : InvParts t := by
  cases i with
  | start =>
    simp only [exec, execStart] at e
    split at e <;> cases e
    have advanced : InvParts { s with iPtr := s.nextInst } := h.setCpu { h.cpu with iPtr := inWord_trunc _ _ }
    exact advanced.beginStart
  | testhardchan =>
    simp only [exec, execTesthardchan] at e
    split at e
    · cases e
    · next ch _ =>
      split at e <;> cases e
      obtain ⟨hcount, hptr, hdbuff⟩ := (Channel.inWords_iff _ _).mp (h.channels ch)
      have popped : InvParts { s with aReg := (s.channel ch).dbuff, bReg := s.cReg } :=
        h.setCpu { h.cpu with aReg := hdbuff, bReg := h.cpu.cReg }
      exact (popped.setChannel ch _ ((Channel.inWords_iff _ _).mpr ⟨h.cpu.bReg, hcount, hptr⟩)).finish
  | testldd => cases e; exact (h.push _ h.cpu.dReg).finish
  | testlde => cases e; exact (h.push _ h.cpu.eReg).finish
  | testlds => cases e; exact (h.push _ h.cpu.statusReg).finish
  | teststd =>
    cases e
    have stored : InvParts { s with dReg := s.aReg } := h.setCpu { h.cpu with dReg := h.cpu.aReg }
    exact stored.pop.finish
  | testste =>
    cases e
    have stored : InvParts { s with eReg := s.aReg } := h.setCpu { h.cpu with eReg := h.cpu.aReg }
    exact stored.pop.finish
  | teststs =>
    simp only [exec, execTeststs] at e
    split at e <;> cases e
    have stored : InvParts { s with statusReg := s.aReg } := h.setCpu { h.cpu with statusReg := h.cpu.aReg }
    exact stored.pop.finish
  | mint => cases e; exact (h.push _ (inWord_minInt _)).finish
  | pfix d => cases e; exact h.setCpu { h.cpu with oreg := inWord_trunc _ _, iPtr := inWord_trunc _ _ }
  | nfix d => cases e; exact h.setCpu { h.cpu with oreg := inWord_trunc _ _, iPtr := inWord_trunc _ _ }
  | opr d => exact absurd rfl (hi d)
  | j d =>
    simp only [exec, execJ] at e
    split at e <;> cases e
    exact h.clearOreg.jumpTo (inWord_trunc _ _)
  | ldc d => cases e; exact (h.push _ (inWord_operand s d)).finish
  | ldnlp d =>
    cases e
    have indexed : InvParts { s with aReg := index s.cfg.wordSize s.aReg (s.operand d) } :=
      h.setCpu { h.cpu with aReg := inWord_trunc _ _ }
    exact indexed.finish
  | stl d =>
    simp only [exec, execStl] at e
    split at e <;> cases e
    next u hu => exact (h.storeNoted hu).pop.finish

/-- Every instruction keeps the invariant; `opr` does as the operation that it selects (R98). -/
theorem InvParts.exec {s t : State} {i : Instr} (h : InvParts s) (e : exec i s = .next t) : InvParts t := by
  by_cases hi : ∃ d, i = .opr d
  · obtain ⟨d, rfl⟩ := hi
    rw [exec_opr] at e
    split at e
    · next op hop =>
      refine h.exec_of_ne_opr ?_ e
      rintro d' rfl
      exact absurd (operationOf_eq_some.mp hop) (by simp [Instr.operationCode])
    · cases e
  · exact h.exec_of_ne_opr (not_exists.mp hi) e

/-! ### The host's actions -/

theorem InvParts.resetLinks {s : State} (h : InvParts s) : InvParts s.resetLinks := by
  refine ⟨h.cfg, { h.cpu with }, ?_, h.control, h.wf, h.below⟩
  rintro ⟨k, d⟩
  have same : (s.resetLinks.channel ⟨k, d⟩) = (s.channel ⟨k, d⟩).reset := by cases k <;> cases d <;> rfl
  exact same ▸ h.channels ⟨k, d⟩

/-- The Reset pin going high: the channel registers are kept (C5), and what is redrawn are words and canonical memory. -/
theorem InvParts.resetGoesHigh {s : State} (h : InvParts s) : InvParts s.resetGoesHigh := by
  have drawn := h.resetLinks.drawHidden
  have held : ∀ m : Memory, m.wf = true → m.below (2 ^ s.cfg.wordSize.bits) = true →
      InvParts { s.resetLinks.drawHidden with mem := m, control := .resetHeld s.pins.analyse } :=
    fun m hw hb => (drawn.setMem m hw hb).setControl _ rfl
  refine (held (if s.pins.analyse then s.mem else redrawn s.cfg s.mem s.resetLinks.drawHidden.draws)
    ?_ ?_).of_eqButUnseen rfl
  · split
    · exact h.wf
    · exact wf_redrawn _ _ h.wf
  · split
    · exact h.below
    · exact below_redrawn _ _ h.below

theorem InvParts.resetGoesLow {s : State} (h : InvParts s) : InvParts s.resetGoesLow := by
  have low : InvParts { s with pins := { s.pins with reset := false } } := h.of_eqButUnseen rfl
  unfold State.resetGoesLow
  dsimp only
  split
  · split
    · exact low.setControl _ rfl
    · exact low.beginStart
  · exact low.beginStart

theorem InvParts.analyseGoesHigh {s : State} (h : InvParts s) : InvParts s.analyseGoesHigh := by
  have high : InvParts { s with pins := { s.pins with analyse := true } } := h.of_eqButUnseen rfl
  unfold State.analyseGoesHigh
  dsimp only
  split
  · exact high.setControl _ rfl
  · exact high.setControl _ rfl
  · exact high

theorem InvParts.analyseGoesLow {s t : State} (h : InvParts s) (e : s.analyseGoesLow = .ok t) : InvParts t := by
  have low : InvParts { s with pins := { s.pins with analyse := false } } := h.of_eqButUnseen rfl
  unfold State.analyseGoesLow at e
  dsimp only at e
  split at e <;> cases e
  · exact low.beginStart
  · exact low

theorem InvParts.byteLands {s : State} (h : InvParts s) (k : Link) (v : Byte) : InvParts (s.byteLands k v) := by
  have queued : InvParts (s.queueByte k v) := h.setLink k _ rfl rfl
  rw [State.byteLands_eq]
  exact queued.setChannel _ _ (Channel.counted_inWords _ (h.channels ⟨k, .inp⟩))

theorem InvParts.byteArrives {s t : State} {k : Link} {v : Byte} (h : InvParts s) (e : s.byteArrives k v = .ok t) :
    InvParts t := by
  unfold State.byteArrives at e
  split at e
  · split at e <;> cases e
    · exact (h.byteLands k v).of_eqButUnseen rfl
    · exact h.of_eqButUnseen rfl
  · split at e <;> cases e
    exact h.byteLands k v

theorem InvParts.byteBegins {s t : State} {k : Link} (h : InvParts s) (e : s.byteBegins k = .ok t) : InvParts t := by
  unfold State.byteBegins at e
  split at e
  · cases e
    exact h
  · split at e <;> cases e
    exact h.setChannel _ _ (h.channels ⟨k, .inp⟩)

/-- Every action of the host keeps the invariant. -/
theorem InvParts.hostStep {s t : State} {a : HostAction} (h : InvParts s) (e : hostStep a s = .ok t) : InvParts t := by
  cases a with
  | linkShift k => exact h.byteBegins e
  | linkByte k v => exact h.byteArrives e
  | linkAccept k x => cases e; exact h.setLink k _ rfl rfl
  | linkTake k => cases e; exact h.setLink k _ rfl rfl
  | resetHigh =>
    simp only [Machine.hostStep] at e
    split at e <;> cases e
    · exact h
    · exact h.resetGoesHigh
  | resetLow =>
    simp only [Machine.hostStep] at e
    split at e <;> cases e
    · exact h.resetGoesLow
    · exact h
  | analyseHigh =>
    simp only [Machine.hostStep] at e
    split at e <;> cases e
    · exact h
    · exact h.analyseGoesHigh
  | analyseLow =>
    simp only [Machine.hostStep] at e
    split at e
    · exact h.analyseGoesLow e
    · cases e
      exact h
  | bootFromRom level => cases e; exact h.of_eqButUnseen rfl

/-! ### Steps -/

/-- Every step of the CPU keeps the invariant. -/
theorem InvParts.cpuStep {s t : State} (h : InvParts s) (e : cpuStep s = .next t) : InvParts t := by
  rcases cpuStep_cases e with rfl | ⟨-, i, -, he⟩ | ⟨b, hb, -, m⟩
  · exact h
  · exact h.exec he
  · exact h.bootMove hb m

/-- Every step of the machine by itself keeps the invariant. -/
theorem InvParts.ownStep {s t : State} (h : InvParts s) (e : ownStep s = .next t) : InvParts t := by
  rcases ownStep_cases e with ⟨ch, -, hc⟩ | ⟨-, hc⟩
  · exact h.channelMove (channelStep_move hc)
  · exact h.cpuStep hc

/-- Every step, by whatever agent, keeps the invariant. -/
theorem InvParts.step {s t : State} (h : InvParts s) (e : step s = .next t) : InvParts t := by
  have turned : ∀ rest, InvParts { s with turns := rest } := fun _ => h.of_eqButUnseen rfl
  obtain ⟨-, ⟨-, e⟩ | ⟨rest, -, e⟩ | ⟨ch, rest, -, e⟩ | ⟨a, rest, -, e⟩⟩ := step_cases e
  · exact h.ownStep e
  · exact (turned rest).cpuStep e
  · exact (turned rest).channelMove (channelStep_move e)
  · exact (turned rest).hostStep e

/-- Settles O51: the invariant in parts is kept by the step of each agent, and by each instruction, move of the Link phase
and action of the host that such a step can be. -/
theorem stepKeepsTheInvariant : Obligations.StepKeepsTheInvariant := by
  intro s t h e
  exact (State.inv_iff t).mpr (((State.inv_iff s).mp h).step e)

/-- Settles O50: the reset state's registers, memory, alarms and channels are the literal ones of `State.powerOn`. -/
theorem resetStateMeetsTheInvariant : Obligations.ResetStateMeetsTheInvariant := by
  constructor
  · exact ⟨by decide, by decide, by decide, by decide⟩
  · exact ⟨by decide, fun h => absurd h (by decide)⟩

/-! ### Link words -/

/-- The output Link words are the four lowest words of memory (R7, D5). -/
theorem toNat_linkOutWord (ws : WordSize) (k : Link) :
    (linkOutWord ws k).toNat = ws.minInt.toNat + k.number * ws.bytes := by
  cases ws <;> cases k <;> decide

/-- The input Link words are the four words above them (R7, D5). -/
theorem toNat_linkInWord (ws : WordSize) (k : Link) :
    (linkInWord ws k).toNat = ws.minInt.toNat + (4 + k.number) * ws.bytes := by
  cases ws <;> cases k <;> decide

theorem channelOf_eq_some {ws : WordSize} {a : Word} {ch : ChannelId} :
    channelOf ws a = some ch ↔ a = linkWord ws ch :=
  ⟨linkWord_of_channelOf, fun h => h ▸ channelOf_linkWord ws ch⟩

/-- Settles O31. -/
theorem linkWordsSelectTheirChannels : Obligations.LinkWordsSelectTheirChannels :=
  fun ws k _ _ => ⟨toNat_linkOutWord ws k, toNat_linkInWord ws k, channelOf_eq_some⟩

/-! ### PreservedBits -/

/-- PreservedBits of the parts with and without EnableJ0BreakFlag (R7), by the masks of `Cfg.ofPart` (log 3). -/
theorem preservedBits_ofPart (p : Part) (regions : List Region) :
    preservedBits (Cfg.ofPart p regions) = if p = .t425 ∨ p = .t801 then 7 else 3 := by
  cases p <;> simp [preservedBits, Cfg.ofPart, Part.hasJ0Break]

/-- One mask after another is a mask of the bits that both have. -/
theorem and_and_eq_and {mask flag both : Word} (status : Word) (h : mask &&& flag = both) :
    status &&& mask &&& flag = status &&& both := by
  rw [BitVec.and_assoc, h]

theorem and_and_eq_zero {mask flag : Word} (status : Word) (h : mask &&& flag = 0) : status &&& mask &&& flag = 0 :=
  (and_and_eq_and status h).trans BitVec.and_zero

/-- Settles O33: each flag's mask lies within the part's PreservedBits or outside it. -/
theorem preservedBitsPerPart : Obligations.PreservedBitsPerPart := by
  intro p regions status
  dsimp only
  rw [preservedBits_ofPart]
  simp only [Cfg.ofPart]
  split
  · exact ⟨and_and_eq_and status (by decide), and_and_eq_and status (by decide), and_and_eq_and status (by decide),
      and_and_eq_zero status (by decide)⟩
  · exact ⟨and_and_eq_and status (by decide), and_and_eq_and status (by decide), and_and_eq_zero status (by decide),
      and_and_eq_zero status (by decide)⟩

end Sys2Proof.Machine
end

/-! PROOFS. The statements of 10_state.md: what an instruction leaves unchanged (O56 to O59), a byte that arrives (O46), a
byte of a message (O47), and the forced `start` at the end of a Reset or an Analyse (O42 to O44). -/

namespace Sys2Proof.Machine

/-! ### What an instruction leaves unchanged -/

/-- What an instruction other than `opr` and `start` leaves of the machine: each register is written by the instructions
named for it only, and what no field names by none. -/
structure InstrFrame (i : Instr) (s t : State) : Prop where
  state     : t = { s with
    aReg := t.aReg, bReg := t.bReg, cReg := t.cReg, iPtr := t.iPtr, oreg := t.oreg, dReg := t.dReg, eReg := t.eReg
    statusReg := t.statusReg, buffers := t.buffers, written := t.written, links := t.links, mem := t.mem }
  iPtr      : (∀ d, i ≠ .j d) → t.iPtr = s.nextInst
  dReg      : i ≠ .teststd → t.dReg = s.dReg
  eReg      : i ≠ .testste → t.eReg = s.eReg
  statusReg : i ≠ .teststs → t.statusReg = s.statusReg
  links     : i ≠ .testhardchan → t.links = s.links
  mem       : (∀ d, i ≠ .stl d) → t.mem = s.mem

/-- An instruction that writes only the stack, IPtr and Oreg and goes on to the next byte. -/
theorem InstrFrame.of_next {i : Instr} {s t : State}
    (e : t = { s with aReg := t.aReg, bReg := t.bReg, cReg := t.cReg, iPtr := s.nextInst, oreg := t.oreg }) :
    InstrFrame i s t := by
  rw [e]
  exact ⟨rfl, fun _ => rfl, fun _ => rfl, fun _ => rfl, fun _ => rfl, fun _ => rfl, fun _ => rfl⟩

theorem exec_frame {i : Instr} {s t : State} (hopr : ∀ d, i ≠ .opr d) (hstart : i ≠ .start) (e : exec i s = .next t) :
    InstrFrame i s t := by
  cases i with
  | start => exact absurd rfl hstart
  | opr d => exact absurd rfl (hopr d)
  | testldd => cases e; exact .of_next rfl
  | testlde => cases e; exact .of_next rfl
  | testlds => cases e; exact .of_next rfl
  | mint => cases e; exact .of_next rfl
  | pfix d => cases e; exact .of_next rfl
  | nfix d => cases e; exact .of_next rfl
  | ldc d => cases e; exact .of_next rfl
  | ldnlp d => cases e; exact .of_next rfl
  | teststd =>
    cases e
    exact ⟨rfl, fun _ => rfl, fun h => absurd rfl h, fun _ => rfl, fun _ => rfl, fun _ => rfl, fun _ => rfl⟩
  | testste =>
    cases e
    exact ⟨rfl, fun _ => rfl, fun _ => rfl, fun h => absurd rfl h, fun _ => rfl, fun _ => rfl, fun _ => rfl⟩
  | teststs =>
    simp only [exec, execTeststs] at e
    split at e <;> cases e
    exact ⟨rfl, fun _ => rfl, fun _ => rfl, fun _ => rfl, fun h => absurd rfl h, fun _ => rfl, fun _ => rfl⟩
  | testhardchan =>
    simp only [exec, execTesthardchan] at e
    split at e
    · cases e
    · split at e <;> cases e
      exact ⟨rfl, fun _ => rfl, fun _ => rfl, fun _ => rfl, fun _ => rfl, fun h => absurd rfl h, fun _ => rfl⟩
  | j d =>
    simp only [exec, execJ] at e
    split at e <;> cases e
    exact ⟨rfl, fun h => absurd rfl (h d), fun _ => rfl, fun _ => rfl, fun _ => rfl, fun _ => rfl, fun _ => rfl⟩
  | stl d =>
    simp only [exec, execStl] at e
    split at e <;> cases e
    next u hu =>
    obtain ⟨x, -, -, rfl⟩ := State.storeNoted_eq_ok.mp hu
    exact ⟨rfl, fun _ => rfl, fun _ => rfl, fun _ => rfl, fun _ => rfl, fun _ => rfl, fun h => absurd rfl (h d)⟩

/-- The instruction whose meaning `i` has: `i` itself, or the operation that `opr` selects by its operand (R98). -/
def State.Selects (s : State) (i op : Instr) : Prop :=
  op = i ∨ ∃ d, i = .opr d ∧ op.operationCode = some (s.operand d).toNat

/-- Every instruction that completes is one other than `opr`, or selects one (R98, R103). -/
theorem exec_selects {i : Instr} {s t : State} (e : exec i s = .next t) :
    ∃ op, s.Selects i op ∧ (∀ d, op ≠ .opr d) ∧ exec op s = .next t := by
  by_cases hi : ∃ d, i = .opr d
  · obtain ⟨d, rfl⟩ := hi
    rw [exec_opr] at e
    split at e
    · next op hop =>
      have code := operationOf_eq_some.mp hop
      refine ⟨op, .inr ⟨d, rfl, code⟩, ?_, e⟩
      rintro d' rfl
      cases code
    · cases e
  · exact ⟨i, .inl rfl, not_exists.mp hi, e⟩

/-- An operation that neither the instruction nor its operand names is not selected. -/
theorem State.Selects.ne {i op x : Instr} {s : State} {n : Nat} (h : s.Selects i op) (hx : x.operationCode = some n)
    (hi : i ≠ x) (hn : ∀ d, i = .opr d → (s.operand d).toNat ≠ n) : op ≠ x := by
  rintro rfl
  rcases h with rfl | ⟨d, rfl, code⟩
  · exact hi rfl
  · exact hn d rfl (Option.some.inj (code.symm.trans hx))

/-- A function is not selected by an operand. -/
theorem State.Selects.ne_function {i op x : Instr} {s : State} (h : s.Selects i op) (hx : x.operationCode = none)
    (hi : i ≠ x) : op ≠ x := by
  rintro rfl
  rcases h with rfl | ⟨d, rfl, code⟩
  · exact hi rfl
  · cases hx.symm.trans code

/-- Settles O56: what is executed is neither `j` nor `start`, and all else goes on to NextInst. -/
theorem instructionAdvancesIPtrByOne : Obligations.InstructionAdvancesIPtrByOne := by
  intro i s t hj hstart hopr e
  obtain ⟨op, sel, hne, eop⟩ := exec_selects e
  have frame := exec_frame hne (sel.ne rfl hstart hopr) eop
  rw [frame.iPtr fun d => sel.ne_function rfl (hj d), State.toNat_nextInst]

/-! ### What `start` leaves unchanged -/

theorem exec_start {s t : State} (e : exec .start s = .next t) : t = { s with iPtr := s.nextInst }.beginStart := by
  simp only [exec, execStart] at e
  split at e <;> cases e
  rfl

theorem State.beginStart_of_rom {s : State} (h : s.pins.bootFromRom = true) :
    s.beginStart
      = ({ s with timerAlarmHigh := false, timerAlarmLow := false, timesliceCount := 0 } : State).bootFromRom :=
  if_pos h

theorem State.beginStart_of_link {s : State} (h : s.pins.bootFromRom = false) :
    s.beginStart = { s with
      timerAlarmHigh := false, timerAlarmLow := false, timesliceCount := 0
      control := .boot ⟨.poll, s.inputCounts, ⟨false, false, false, false⟩, ⟨false, false, false, false⟩⟩ } :=
  if_neg (ne_true_of_eq_false h)

/-- The first effects of `start` in either branch: CReg, DReg, EReg, the Links, memory and the pins are as they were, and
the alarms and the timeslice are cleared (R120, R124). -/
theorem State.beginStart_frame (s : State) :
    let t := s.beginStart
    t = { s with
      aReg := t.aReg, bReg := t.bReg, wPtr := t.wPtr, procPriority := t.procPriority, iPtr := t.iPtr, oreg := t.oreg
      statusReg := t.statusReg, timerAlarmHigh := false, timerAlarmLow := false, timesliceCount := 0
      buffers := t.buffers, written := t.written, control := t.control } := by
  rcases s.beginStart_cases with e | e
  · rw [e]; rfl
  · rw [e]

theorem State.beginStart_mem (s : State) : s.beginStart.mem = s.mem :=
  (congrArg State.mem s.beginStart_frame :)

theorem exec_start_frame {s t : State} (e : exec .start s = .next t) :
    t = { s with
      aReg := t.aReg, bReg := t.bReg, wPtr := t.wPtr, procPriority := t.procPriority, iPtr := t.iPtr, oreg := t.oreg
      statusReg := t.statusReg, timerAlarmHigh := false, timerAlarmLow := false, timesliceCount := 0
      buffers := t.buffers, written := t.written, control := t.control } := by
  rw [exec_start e]
  exact State.beginStart_frame _

/-- StatusReg as it was, or without the bits that `start` clears (R120). -/
def State.StatusKept (s t : State) : Prop :=
  t.statusReg = s.statusReg ∨ t.statusReg = s.statusReg &&& preservedBits s.cfg

/-- DReg and EReg as they were, and StatusReg as far as `start` keeps it (R34, R120). -/
structure State.HiddenKept (s t : State) : Prop where
  dReg   : t.dReg = s.dReg
  eReg   : t.eReg = s.eReg
  status : s.StatusKept t

theorem State.statusKept_beginStart (s : State) : s.StatusKept s.beginStart := by
  rcases s.beginStart_cases with e | e <;> rw [e]
  · exact .inr rfl
  · exact .inl rfl

/-! ### ErrorFlag and HaltOnErrorFlag -/

theorem preservedBits_eq_or (c : Cfg) : ∃ rest, preservedBits c = c.errorFlag ||| c.haltOnErrorFlag ||| rest := by
  unfold preservedBits
  split
  · exact ⟨_, rfl⟩
  · exact ⟨0, BitVec.or_zero.symm⟩

/-- ErrorFlag and HaltOnErrorFlag are among PreservedBits on every part (R7). -/
theorem preservedBits_and_flags (c : Cfg) :
    preservedBits c &&& c.errorFlag = c.errorFlag ∧ preservedBits c &&& c.haltOnErrorFlag = c.haltOnErrorFlag := by
  obtain ⟨rest, e⟩ := preservedBits_eq_or c
  rw [e]
  constructor
  · ext i hi
    simp +contextual
  · ext i hi
    simp +contextual

/-- What `start` keeps of StatusReg holds both flags (R33). -/
theorem State.StatusKept.sameFlags {s t : State} (h : s.StatusKept t) :
    t.statusReg &&& s.cfg.errorFlag = s.statusReg &&& s.cfg.errorFlag
      ∧ t.statusReg &&& s.cfg.haltOnErrorFlag = s.statusReg &&& s.cfg.haltOnErrorFlag := by
  rcases h with h | h <;> rw [h]
  · exact ⟨rfl, rfl⟩
  · obtain ⟨hError, hHalt⟩ := preservedBits_and_flags s.cfg
    exact ⟨and_and_eq_and _ hError, and_and_eq_and _ hHalt⟩

theorem exec_statusKept {i : Instr} {s t : State} (hopr : ∀ d, i ≠ .opr d) (hsts : i ≠ .teststs)
    (e : exec i s = .next t) : s.StatusKept t := by
  by_cases hstart : i = .start
  · subst hstart
    exact exec_start e ▸ State.statusKept_beginStart _
  · exact .inl ((exec_frame hopr hstart e).statusReg hsts)

/-- The Link phase leaves DReg and EReg as they are, and clears bits of StatusReg at its end only (R34, R120). -/
theorem BootMove.hidden {s t : State} {b : Boot} (m : BootMove s b t) :
    s.HiddenKept t := by
  cases m with
  | word => exact ⟨rfl, rfl, .inl rfl⟩
  | message => exact ⟨rfl, rfl, .inl rfl⟩
  | pokeAddress => exact ⟨rfl, rfl, .inl rfl⟩
  | peekAddress => exact ⟨rfl, rfl, .inl rfl⟩
  | pokeData k a u phase store =>
    obtain ⟨x, -, -, rfl⟩ := State.storeWord_eq_ok.mp store
    exact ⟨rfl, rfl, .inl rfl⟩
  | peekDone => exact ⟨rfl, rfl, .inl rfl⟩
  | booted k length =>
    have spec := (s.finishBoot_spec b k length).1
    rw [spec]
    exact ⟨rfl, rfl, .inr rfl⟩

/-- In the Link phase of `start` the CPU leaves of the hidden registers what its moves leave. -/
theorem cpuStep_boot_hidden {s t : State} {b : Boot} (hb : s.control = .boot b) (e : cpuStep s = .next t) :
    s.HiddenKept t := by
  rcases cpuStep_cases e with rfl | ⟨hrun, -⟩ | ⟨_, -, -, m⟩
  · exact ⟨rfl, rfl, .inl rfl⟩
  · cases hb.symm.trans hrun
  · exact m.hidden

theorem ChannelMove.hidden {s t : State} {ch : ChannelId} (m : ChannelMove s ch t) :
    s.HiddenKept t := by
  rw [m.state]
  exact ⟨rfl, rfl, .inl rfl⟩

theorem ownStep_boot_hidden {s t : State} {b : Boot} (hb : s.control = .boot b) (e : ownStep s = .next t) :
    s.HiddenKept t := by
  rcases ownStep_cases e with ⟨ch, -, hc⟩ | ⟨-, hc⟩
  · exact (channelStep_move hc).hidden
  · exact cpuStep_boot_hidden hb hc

theorem State.statusKept_byteLands (s : State) (k : Link) (v : Byte) : s.StatusKept (s.byteLands k v) := by
  rw [State.byteLands_eq]
  exact .inl rfl

theorem State.statusKept_resetGoesLow (s : State) : s.StatusKept s.resetGoesLow := by
  unfold State.resetGoesLow
  dsimp only
  split
  · split
    · exact .inl rfl
    · exact State.statusKept_beginStart _
  · exact State.statusKept_beginStart _

/-- No action of the host clears a bit of StatusReg but by the `start` that it forces (R270, R273). -/
theorem hostStep_statusKept {s t : State} {a : HostAction} (e : hostStep a s = .ok t) : s.StatusKept t := by
  cases a with
  | linkShift k =>
    simp only [hostStep, State.byteBegins] at e
    split at e
    · cases e; exact .inl rfl
    · split at e <;> cases e
      exact .inl rfl
  | linkByte k v =>
    simp only [hostStep, State.byteArrives] at e
    split at e
    · split at e <;> cases e
      · exact s.statusKept_byteLands k v
      · exact .inl rfl
    · split at e <;> cases e
      exact s.statusKept_byteLands k v
  | linkAccept k x => cases e; exact .inl rfl
  | linkTake k => cases e; exact .inl rfl
  | resetHigh =>
    simp only [hostStep] at e
    split at e <;> cases e <;> exact .inl rfl
  | resetLow =>
    simp only [hostStep] at e
    split at e <;> cases e
    · exact s.statusKept_resetGoesLow
    · exact .inl rfl
  | analyseHigh =>
    simp only [hostStep] at e
    split at e <;> cases e
    · exact .inl rfl
    · unfold State.analyseGoesHigh
      dsimp only
      split <;> exact .inl rfl
  | analyseLow =>
    simp only [hostStep, State.analyseGoesLow] at e
    split at e
    · split at e <;> cases e
      · exact State.statusKept_beginStart _
      · exact .inl rfl
    · cases e; exact .inl rfl
  | bootFromRom level => cases e; exact .inl rfl

/-- Settles O57: StatusReg is left alone, or loses bits outside PreservedBits. -/
theorem onlyTeststsChangesTheErrorFlag : Obligations.OnlyTeststsChangesTheErrorFlag := by
  constructor
  · intro i s t hsts hopr e
    obtain ⟨op, sel, hne, eop⟩ := exec_selects e
    exact (exec_statusKept hne (sel.ne rfl hsts hopr) eop).sameFlags
  · intro s t b hb e
    obtain ⟨-, ⟨-, e⟩ | ⟨rest, -, e⟩ | ⟨ch, rest, -, e⟩ | ⟨a, rest, -, e⟩⟩ := step_cases e
    · exact (ownStep_boot_hidden hb e).status.sameFlags
    · exact (cpuStep_boot_hidden (s := { s with turns := rest }) hb e).status.sameFlags
    · exact (channelStep_move e).hidden.status.sameFlags
    · exact (hostStep_statusKept e).sameFlags

/-- Settles O58: `start` writes StatusReg only, and the frame of the other instructions names the writer of each. -/
theorem whoWritesTheHiddenRegisters : Obligations.WhoWritesTheHiddenRegisters := by
  refine ⟨fun i s t e => ?_, fun s t b hb e => ?_⟩
  · obtain ⟨op, sel, hne, eop⟩ := exec_selects e
    by_cases hstart : op = .start
    · subst hstart
      rw [exec_start_frame eop]
      exact ⟨fun _ _ => rfl, fun _ _ => rfl,
        fun _ hi hopr => absurd rfl (sel.ne (x := .start) rfl hi fun d hd => (hopr d hd).2)⟩
    · have frame := exec_frame hne hstart eop
      exact ⟨fun hi hopr => frame.dReg (sel.ne rfl hi hopr), fun hi hopr => frame.eReg (sel.ne rfl hi hopr),
        fun hi _ hopr => frame.statusReg (sel.ne rfl hi fun d hd => (hopr d hd).1)⟩
  · have kept := ownStep_boot_hidden hb e
    exact ⟨kept.dReg, kept.eReg⟩

/-- Settles O59: `start` switches both alarms off, and no other instruction's frame names the process state. -/
theorem onlyStartWritesTheProcessState : Obligations.OnlyStartWritesTheProcessState := by
  intro i s t e
  obtain ⟨op, sel, hne, eop⟩ := exec_selects e
  by_cases hstart : op = .start
  · subst hstart
    rw [exec_start_frame eop]
    exact ⟨fun hi hopr => absurd rfl (sel.ne (x := .start) rfl hi hopr), nofun, nofun⟩
  · rw [(exec_frame hne hstart eop).state]
    exact ⟨fun _ _ => ⟨rfl, rfl, rfl, rfl, rfl⟩, id, id⟩

/-! ### The Links as the host sees them -/

/-- A byte that joins those that wait on a Link changes nothing else of the Links. -/
theorem State.link_queueByte (s : State) (k j : Link) (v : Byte) :
    (s.queueByte k v).link j
      = if j = k then { s.link j with fromHost := (s.link j).fromHost ++ [v] } else s.link j := by
  by_cases h : j = k
  · subst h
    rw [if_pos rfl, State.queueByte, State.link_setLink_same]
  · rw [if_neg h, State.queueByte, State.link_setLink_other _ _ h]

/-- CountReg where a byte waits: 1 with no message in progress, else as it was (R42, log 42). -/
theorem Channel.counted_of_waiting (c : Channel) {waiting : List Byte} (h : waiting ≠ []) :
    c.counted waiting = { c with count := if c.transfer = .idle then 1 else c.count } := by
  unfold Channel.counted
  by_cases hx : c.transfer = .idle
  · simp [hx, h]
  · simp [hx]

/-- The host's turn, under R241's conditions. -/
theorem step_host {s t : State} {a : HostAction} {rest : List Turn} (ho : s.oneProcess = true)
    (ht : s.turns = .host a :: rest) (h : hostStep a { s with turns := rest } = .ok t) : step s = .next t := by
  rw [step_turn ho ht]
  exact outcome_eq_next.mpr h

/-- A channel's turn, under R241's conditions. -/
theorem step_channelTurn {s t : State} {ch : ChannelId} {rest : List Turn} (ho : s.oneProcess = true)
    (ht : s.turns = .channel ch :: rest) (h : channelStep ch { s with turns := rest } = .ok t) : step s = .next t := by
  rw [step_turn ho ht]
  exact outcome_eq_next.mpr h

/-- Settles O46: both actions are a write of the one input channel, the second after its byte has joined those that
wait. -/
theorem unsolicitedByteSetsCountReg : Obligations.UnsolicitedByteSetsCountReg := by
  intro s k v rest ho hreset hpushed
  constructor
  · intro ht
    refine ⟨({ s with turns := rest } : State).setChannel ⟨k, .inp⟩ { s.channel ⟨k, .inp⟩ with shifting := true },
      step_host ho ht ?_, rfl, State.channel_setChannel_same _ _ _, ?_, fun ch hch => ?_, fun j => ?_⟩
    · simp only [hostStep, State.byteBegins, hreset, Bool.false_eq_true, if_false]
      exact if_neg (ne_true_of_eq_false hpushed)
    · rw [State.channel_setChannel_same]
      simp [Channel.active]
    · exact State.channel_setChannel_other _ _ hch
    · exact ⟨State.fromHost_setChannel _ _ _ j, State.toHost_setChannel _ _ _ j, State.accepting_setChannel _ _ _ j⟩
  · intro ht
    refine ⟨(({ s with turns := rest } : State).queueByte k v).setChannel ⟨k, .inp⟩ { s.channel ⟨k, .inp⟩ with
        shifting := false
        count := if (s.channel ⟨k, .inp⟩).transfer = .idle then 1 else (s.channel ⟨k, .inp⟩).count },
      step_host ho ht ?_, rfl, State.channel_setChannel_same _ _ _, ?_, fun ch hch => ?_, fun j hj => ?_, fun j => ?_⟩
    · simp only [hostStep, State.byteArrives, hreset, Bool.false_eq_true, if_false, State.byteLands_eq]
      rw [Channel.counted_of_waiting _ (by simp)]
      exact if_neg (ne_true_of_eq_false hpushed)
    · rw [State.fromHost_setChannel, State.link_queueByte, if_pos rfl]
      rfl
    · rw [State.channel_setChannel_other _ _ hch, State.channel_queueByte]
      rfl
    · rw [State.fromHost_setChannel, State.link_queueByte, if_neg hj]
      rfl
    · rw [State.toHost_setChannel, State.accepting_setChannel, State.link_queueByte]
      split <;> exact ⟨rfl, rfl⟩

/-! ### A byte of a message -/

/-- The next byte is the last of the message (R42). -/
abbrev Channel.Ends (ws : WordSize) (c : Channel) : Prop := ws.trunc (c.count + 1) = 0

/-- The next byte completes a word, or the message (R44, R45). -/
abbrev Channel.Completes (ws : WordSize) (c : Channel) : Prop := c.Ends ws ∨ ws.bytes ≤ c.fill + 1

/-- The next byte to send is the first of a word that stands in memory (R70). -/
abbrev Channel.Reads (c : Channel) : Prop := c.transfer = .memory ∧ c.fill = 0

theorem Channel.wordDone_iff {ws : WordSize} {c : Channel} :
    c.wordDone ws = true ↔ c.count = 0 ∨ ws.bytes ≤ c.fill := by
  simp [Channel.wordDone]

theorem Channel.wordDone_countByte {ws : WordSize} {c : Channel} :
    (c.countByte ws).wordDone ws = true ↔ c.Completes ws :=
  Channel.wordDone_iff

theorem Channel.wordDone_receive {ws : WordSize} {c : Channel} {v : Byte} :
    (c.receive ws v).wordDone ws = true ↔ c.Completes ws :=
  Channel.wordDone_iff

theorem Channel.endWord_of_last {c : Channel} (h : c.count = 0) :
    c.endWord = { c with fill := 0, transfer := .idle } := by
  rw [Channel.endWord, if_pos h]

theorem Channel.endWord_of_more {c : Channel} (h : c.count ≠ 0) : c.endWord = { c with fill := 0 } := by
  rw [Channel.endWord, if_neg h]

/-- An input channel after the byte `v` of its message, with `waiting` behind it (R42 to R44, log 20). -/
def Channel.afterReceive (ws : WordSize) (c : Channel) (v : Byte) (waiting : List Byte) : Channel :=
  { c with
    count    := if c.Ends ws ∧ waiting ≠ [] then 1 else ws.trunc (c.count + 1)
    ptr      := if c.Completes ws then index ws c.ptr 1 else c.ptr
    dbuff    := ws.trunc (withLane c.dbuff c.fill v)
    transfer := if c.Ends ws then .idle else c.transfer
    fill     := if c.Completes ws then 0 else c.fill + 1 }

/-- Memory after the byte `v` of the message of an input channel: written where the byte completes a word of a message to
memory (R45, R71, R72). -/
def Channel.memAfterReceive (ws : WordSize) (c : Channel) (v : Byte) (m : Memory) : Memory :=
  if c.Completes ws ∧ c.transfer = .memory then
    m.writeBytes (addressSpan ws (c.fill + 1) c.ptr) (bytesOf (c.fill + 1) (ws.trunc (withLane c.dbuff c.fill v)))
  else m

theorem Channel.receive_eq_afterReceive {ws : WordSize} {c : Channel} (v : Byte) (waiting : List Byte)
    (more : ¬ c.Completes ws) : c.receive ws v = c.afterReceive ws v waiting := by
  have notLast : ¬ c.Ends ws := fun h => more (.inl h)
  rw [Channel.afterReceive, if_neg more, if_neg more, if_neg notLast, if_neg fun h => notLast h.1]
  rfl

theorem Channel.receive_word_eq_afterReceive {ws : WordSize} {c : Channel} (v : Byte) (waiting : List Byte)
    (hx : c.transfer ≠ .idle) (full : c.Completes ws) :
    ((c.receive ws v).nextWord ws).endWord.counted waiting = c.afterReceive ws v waiting := by
  rw [Channel.afterReceive, if_pos full, if_pos full]
  by_cases last : c.Ends ws
  · rw [Channel.endWord_of_last last, if_pos last]
    cases waiting with
    | nil => rw [Channel.counted_nil, if_neg fun h => h.2 rfl]; rfl
    | cons w ws => rw [Channel.counted_cons _ _ rfl, if_pos ⟨last, List.cons_ne_nil _ _⟩]; rfl
  · rw [Channel.endWord_of_more last, Channel.counted_of_busy, if_neg last, if_neg fun h => last h.1]
    · rfl
    · exact hx

/-- The step of an input channel that takes a byte of its message. -/
theorem channelStep_receives {s : State} {k : Link} {c : Channel} {v : Byte} {bytes : List Byte}
    (hc : s.channel ⟨k, .inp⟩ = c) (hr : s.control.released = true) (hx : c.transfer ≠ .idle) (hp : c.pushed = false)
    (hb : (s.link k).fromHost = v :: bytes)
    (ram : c.Completes s.cfg.wordSize → c.transfer = .memory →
      ∀ a ∈ addressSpan s.cfg.wordSize (c.fill + 1) c.ptr, memKind s.cfg a = some .ram) :
    channelStep ⟨k, .inp⟩ s = .ok (s.received k bytes (c.afterReceive s.cfg.wordSize v bytes)
      (c.memAfterReceive s.cfg.wordSize v s.mem)) := by
  subst hc
  rw [channelStep_inp hr hx hp]
  by_cases full : (s.channel ⟨k, .inp⟩).Completes s.cfg.wordSize
  · refine (State.receiveByte_word hb (Channel.wordDone_receive.mpr full)).mpr
      ⟨(s.channel ⟨k, .inp⟩).memAfterReceive s.cfg.wordSize v s.mem, ?_,
        by rw [Channel.receive_word_eq_afterReceive v bytes hx full]⟩
    unfold Channel.WordWritten
    split
    · next h => exact ⟨ram full h, if_pos ⟨full, h⟩⟩
    · next h => exact if_neg fun g => h g.2
  · have notDone := mt (Channel.wordDone_receive (v := v)).mp full
    rw [State.receiveByte_more hb (Bool.eq_false_of_not_eq_true notDone), Channel.receive_eq_afterReceive v bytes full,
      Channel.memAfterReceive, if_neg fun g => full g.1]

/-- The word that an output channel has in DBuffReg when it sends its next byte, and PtrReg then (R44, R70). -/
def Channel.loaded (ws : WordSize) (c : Channel) (m : Memory) : Channel :=
  { c with
    dbuff := if c.Reads then m.readWord ws c.ptr else c.dbuff
    ptr   := if c.Reads then index ws c.ptr 1 else c.ptr }

theorem State.wordToSend_eq_loaded {s : State} {c : Channel}
    (there : c.Reads → ∀ a ∈ addressSpan s.cfg.wordSize s.cfg.wordSize.bytes c.ptr, memKind s.cfg a ≠ none) :
    s.wordToSend c = .ok (c.loaded s.cfg.wordSize s.mem) := by
  rw [State.wordToSend_eq_ok, Channel.loaded]
  split
  · next reads => exact ⟨there reads, rfl⟩
  · rfl

/-- An output channel after it has sent a byte (R42, R44). -/
theorem Channel.sent_eq (ws : WordSize) (c : Channel) :
    c.sent ws = { c with
      count    := ws.trunc (c.count + 1)
      transfer := if c.Ends ws then .idle else c.transfer
      fill     := if c.Completes ws then 0 else c.fill + 1 } := by
  unfold Channel.sent
  split
  · next done => rw [if_pos (Channel.wordDone_countByte.mp done)]; rfl
  · next more =>
    rw [Channel.wordDone_countByte] at more
    rw [if_neg more, if_neg fun last => more (.inl last)]
    rfl

/-- The step of an output channel that sends a byte of its message. -/
theorem channelStep_sends {s : State} {k : Link} {c : Channel} (hc : s.channel ⟨k, .out⟩ = c)
    (hr : s.control.released = true) (hx : c.transfer ≠ .idle) (hp : c.pushed = false)
    (ha : (s.link k).accepting = true)
    (there : c.Reads → ∀ a ∈ addressSpan s.cfg.wordSize s.cfg.wordSize.bytes c.ptr, memKind s.cfg a ≠ none) :
    channelStep ⟨k, .out⟩ s = .ok (s.sentTo k [laneOf (c.loaded s.cfg.wordSize s.mem).dbuff c.fill]
      ((c.loaded s.cfg.wordSize s.mem).sent s.cfg.wordSize)) := by
  subst hc
  rw [channelStep_out hr hx hp]
  exact (State.sendByte_eq_ok ha).mpr ⟨_, State.wordToSend_eq_loaded there, rfl⟩

/-- Settles O47: what the step leaves is `afterReceive` and `memAfterReceive` of an input channel, `loaded` and `sent` of
an output channel. -/
theorem channelMovesAByteOfItsMessage : Obligations.ChannelMovesAByteOfItsMessage := by
  intro s k v bytes rest hwf hr ho ws
  constructor
  · intro ht hb c d last full hx hp ram
    refine ⟨({ s with turns := rest } : State).received k bytes (c.afterReceive ws v bytes)
      (c.memAfterReceive ws v s.mem), step_channelTurn ho ht (channelStep_receives rfl hr hx hp hb ram), rfl, ?_⟩
    rw [State.channel_received_same, State.received_mem]
    refine ⟨rfl,
      -- CountReg, the message's end, PtrReg with the byte selector, and the rest of the control logic
      fun h => if_neg fun g => g.2 (h g.1), fun hl h => if_pos ⟨hl, h⟩,
      fun h => if_pos h, fun h => if_neg h,
      fun h => ⟨if_pos h, if_pos h⟩, fun h => ⟨if_neg h, if_neg h⟩,
      rfl, rfl,
      -- memory, and what waits on the Links
      fun h hm hle => ?_, fun h hm addr hne => ?_, fun h => if_neg fun g => h g.1 g.2,
      ?_, fun j hj => ?_, fun ch hch => ?_, fun j => ?_⟩
    · rw [Channel.memAfterReceive, if_pos ⟨h, hm⟩]
      have fits : c.fill + 1 ≤ 2 ^ ws.bits := hle.trans (by cases ws <;> decide)
      exact Memory.read_writeBytes _ _ hwf (by simp) (addressSpan_pairwise ws _ _ fits)
    · rw [Channel.memAfterReceive, if_pos ⟨h, hm⟩]
      exact Memory.read_writeBytes_other _ _ hwf _ hne
    · rw [State.fromHost_received, if_pos rfl]
    · rw [State.fromHost_received, if_neg hj]
      rfl
    · exact State.channel_received_other _ _ _ _ _ hch
    · exact ⟨State.toHost_received _ _ _ _ _ _, State.accepting_received _ _ _ _ _ _⟩
  · intro ht ha c reads d last hx hp there
    refine ⟨({ s with turns := rest } : State).sentTo k [laneOf d c.fill] ((c.loaded ws s.mem).sent ws),
      step_channelTurn ho ht (channelStep_sends rfl hr hx hp ha there), rfl, ?_⟩
    rw [State.channel_sentTo_same, Channel.sent_eq]
    refine ⟨?_, rfl, rfl, rfl, rfl, rfl, rfl, fun h => if_pos h, fun h => if_neg h, fun j hj => ?_, fun ch hch => ?_,
      fun j => ?_⟩
    · rw [State.toHost_sentTo, if_pos rfl]
      rfl
    · rw [State.toHost_sentTo, if_neg hj]
      rfl
    · exact State.channel_sentTo_other _ _ _ _ hch
    · exact ⟨State.fromHost_sentTo _ _ _ _ _, State.accepting_sentTo _ _ _ _ _⟩

/-! ### Reset and Analyse -/

/-- Settles O42: the forced `start` takes the branch from ROM. -/
theorem resetStateIsTheForcedStart : Obligations.ResetStateIsTheForcedStart :=
  step_host rfl rfl rfl

/-- What Reset keeps in `t` of the machine `s`: the configuration, CReg and every channel register, with the instruction
buffers Full and every channel idle (R51, R52, R164, R272). -/
def State.KeptByReset (s t : State) : Prop :=
  t.cfg = s.cfg ∧ t.cReg = s.cReg ∧ t.buffers.full0 = true ∧ t.buffers.full1 = true
    ∧ ∀ ch, (t.channel ch).count = (s.channel ch).count ∧ (t.channel ch).ptr = (s.channel ch).ptr
        ∧ (t.channel ch).dbuff = (s.channel ch).dbuff ∧ (t.channel ch).active = false

/-- The CPU registers that stand still until `start` proceeds (R271). -/
def State.SameCpu (s t : State) : Prop :=
  t.aReg = s.aReg ∧ t.bReg = s.bReg ∧ t.wPtr = s.wPtr ∧ t.procPriority = s.procPriority ∧ t.iPtr = s.iPtr
    ∧ t.oreg = s.oreg ∧ t.statusReg = s.statusReg

/-- What the forced `start` makes in `t` of the machine `s`, in both columns of R51. -/
def State.StartForced (s t : State) : Prop :=
  t.pins = s.pins ∧ t.timerAlarmHigh = false ∧ t.timerAlarmLow = false ∧ t.timesliceCount = 0
    ∧ (s.pins.bootFromRom = true → t.control = .run
        ∧ t.aReg = s.iPtr ∧ t.bReg = s.wPtr ||| s.procPriority.toWord
        ∧ t.iPtr = s.cfg.resetCodePtr ∧ t.wPtr = s.cfg.memStart ∧ t.procPriority = .low
        ∧ t.statusReg = s.statusReg &&& preservedBits s.cfg ∧ t.oreg = 0)
    ∧ (s.pins.bootFromRom = false → s.SameCpu t ∧ ∃ b, t.Polls b
        ∧ ∀ k, b.saved.get k = (s.channel ⟨k, .inp⟩).count ∧ b.usedIn.get k = false ∧ b.usedOut.get k = false)

/-- What is left in `t` of the machine `s` while the pins hold it. -/
structure State.HeldFrom (s t : State) : Prop where
  kept : s.KeptByReset t
  same : s.SameCpu t
  high : t.timerAlarmHigh = s.timerAlarmHigh
  low  : t.timerAlarmLow = s.timerAlarmLow

theorem State.KeptByReset.idle {s t : State} (h : s.KeptByReset t) (ch : ChannelId) :
    (t.channel ch).transfer = .idle := by
  obtain ⟨-, -, -, -, channels⟩ := h
  exact (Channel.active_eq_false.mp (channels ch).2.2.2).1

/-- With the alarms off, R241's conditions hold once Reset has made every channel idle. -/
theorem State.HeldFrom.oneProcess {s t : State} (h : s.HeldFrom t) (ho : s.oneProcess = true) : t.oneProcess = true := by
  obtain ⟨highOff, lowOff, -⟩ := State.oneProcess_iff.mp ho
  exact State.oneProcess_of_idle (h.high.trans highOff) (h.low.trans lowOff) h.kept.idle

theorem State.channel_resetLinks (s : State) (ch : ChannelId) : s.resetLinks.channel ch = (s.channel ch).reset := by
  obtain ⟨k, d⟩ := ch
  cases k <;> cases d <;> rfl

theorem State.heldFrom_resetGoesHigh (s : State) : s.HeldFrom s.resetGoesHigh := by
  refine ⟨⟨rfl, rfl, rfl, rfl, fun ch => ?_⟩, ⟨rfl, rfl, rfl, rfl, rfl, rfl, rfl⟩, rfl, rfl⟩
  have reset : s.resetGoesHigh.channel ch = (s.channel ch).reset := s.channel_resetLinks ch
  rw [reset]
  exact ⟨rfl, rfl, rfl, rfl⟩

/-- Reset high holds the machine, and in an Analyse keeps its memory (R271 to R274, D25). -/
theorem step_resetHigh {s : State} {rest : List Turn} (ho : s.oneProcess = true)
    (ht : s.turns = .host .resetHigh :: rest) (hp : s.pins.reset = false) :
    ∃ t, step s = .next t ∧ s.HeldFrom t ∧ t.turns = rest ∧ t.pins = { s.pins with reset := true }
      ∧ t.control = .resetHeld s.pins.analyse ∧ (s.pins.analyse = true → t.mem = s.mem) := by
  obtain ⟨kept, same, high, low⟩ := State.heldFrom_resetGoesHigh { s with turns := rest }
  exact ⟨_, step_host ho ht (if_neg (ne_true_of_eq_false hp)), ⟨kept, same, high, low⟩, rfl, rfl, rfl,
    fun h => if_pos h⟩

/-- Reset low, in no Analyse: `start` proceeds (R270). -/
theorem step_resetLow {s : State} {rest : List Turn} (ho : s.oneProcess = true)
    (ht : s.turns = .host .resetLow :: rest) (hc : s.control = .resetHeld false) (hp : s.pins.reset = true) :
    step s = .next ({ s with turns := rest, pins := { s.pins with reset := false } } : State).beginStart := by
  refine step_host ho ht ?_
  simp only [hostStep, hp, if_true, State.resetGoesLow, hc]

/-- The machine held on by Analyse after Reset has gone low (R273). -/
def State.heldOn (s : State) (rest : List Turn) : State :=
  { s with turns := rest, pins := { s.pins with reset := false }, control := .analyseHeld }

theorem step_resetLow_analyse {s : State} {rest : List Turn} (ho : s.oneProcess = true)
    (ht : s.turns = .host .resetLow :: rest) (hc : s.control = .resetHeld true) (hp : s.pins.reset = true)
    (ha : s.pins.analyse = true) : step s = .next (s.heldOn rest) := by
  refine step_host ho ht ?_
  simp only [hostStep, hp, if_true, State.resetGoesLow, hc, ha, State.heldOn]

/-- A program or the Link phase stopped by Analyse high, with the message that the Link phase waits for (R273, log 17). -/
def State.analysed (s : State) (rest : List Turn) : State :=
  { s with turns := rest, pins := { s.pins with analyse := true }, control := .analysing s.control.ownChannel }

theorem step_analyseHigh {s : State} {rest : List Turn} (ho : s.oneProcess = true)
    (ht : s.turns = .host .analyseHigh :: rest) (hc : s.control = .run ∨ ∃ b, s.control = .boot b)
    (hp : s.pins.analyse = false) : step s = .next (s.analysed rest) := by
  refine step_host ho ht ?_
  obtain hc | ⟨b, hc⟩ := hc
  · simp only [hostStep, hp, Bool.false_eq_true, if_false, State.analyseGoesHigh, hc, State.analysed, Control.ownChannel]
  · simp only [hostStep, hp, Bool.false_eq_true, if_false, State.analyseGoesHigh, hc, State.analysed, Control.ownChannel]

theorem State.oneProcess_analysed {s : State} {rest : List Turn} (ho : s.oneProcess = true) :
    (s.analysed rest).oneProcess = true :=
  State.oneProcess_of_eq ho rfl rfl fun _ busy other => ⟨busy, other⟩

/-- Analyse low, with Reset low again: `start` proceeds (R273). -/
theorem step_analyseLow {s : State} {rest : List Turn} (ho : s.oneProcess = true)
    (ht : s.turns = .host .analyseLow :: rest) (hc : s.control = .analyseHeld) (hp : s.pins.analyse = true) :
    step s = .next ({ s with turns := rest, pins := { s.pins with analyse := false } } : State).beginStart := by
  refine step_host ho ht ?_
  simp only [hostStep, hp, if_true, State.analyseGoesLow, hc]

theorem Pins.eq_of_levels {p : Pins} {r a b : Bool} (hr : p.reset = r) (ha : p.analyse = a) (hb : p.bootFromRom = b) :
    (⟨r, a, b⟩ : Pins) = p := by
  subst hr ha hb
  rfl

theorem State.KeptByReset.beginStart {s u : State} (h : s.KeptByReset u) : s.KeptByReset u.beginStart := by
  obtain ⟨cfg, cReg, full0, full1, channels⟩ := h
  rcases u.beginStart_cases with e | e <;> rw [e]
  · exact ⟨cfg, cReg, rfl, rfl, channels⟩
  · exact ⟨cfg, cReg, full0, full1, channels⟩

/-- `start` proceeds from a state in which the pins have held the machine (R51, R270, R273). -/
theorem State.HeldFrom.startForced {s u : State} (held : s.HeldFrom u) (pins : u.pins = s.pins) :
    s.StartForced u.beginStart := by
  have frame := u.beginStart_frame
  refine ⟨(congrArg State.pins frame).trans pins, congrArg State.timerAlarmHigh frame,
    congrArg State.timerAlarmLow frame, congrArg State.timesliceCount frame, fun rom => ?_, fun link => ?_⟩
  · obtain ⟨cfg, -⟩ := held.kept
    obtain ⟨-, -, wPtr, priority, iPtr, -, status⟩ := held.same
    rw [State.beginStart_of_rom (pins ▸ rom), ← cfg, ← iPtr, ← wPtr, ← priority, ← status]
    exact ⟨rfl, rfl, rfl, rfl, rfl, rfl, rfl, rfl⟩
  · rw [State.beginStart_of_link (pins ▸ link)]
    refine ⟨held.same, _, ⟨rfl, rfl, State.oneProcess_of_idle rfl rfl held.kept.idle⟩, fun k => ⟨?_, ?_, ?_⟩⟩
    · obtain ⟨-, -, -, -, channels⟩ := held.kept
      rw [State.inputCounts, PerLink.get_map]
      exact (channels ⟨k, .inp⟩).1
    · cases k <;> rfl
    · cases k <;> rfl

/-- The pins released, and what `start` then makes of the state they have held. -/
theorem State.HeldFrom.proceeds {s h : State} (held : s.HeldFrom h) (rest : List Turn) {p : Pins} (pins : p = s.pins) :
    let t := ({ h with turns := rest, pins := p } : State).beginStart
    t.mem = h.mem ∧ s.KeptByReset t ∧ s.StartForced t := by
  have released : s.HeldFrom { h with turns := rest, pins := p } := ⟨held.kept, held.same, held.high, held.low⟩
  exact ⟨State.beginStart_mem _, released.kept.beginStart, released.startForced pins⟩

/-- Settles O43: Reset high holds the machine, and Reset low lets `start` proceed from the state held. -/
theorem resetForcesStart : Obligations.ResetForcesStart := by
  intro s turns _ ho hreset hanalyse
  obtain ⟨h, step1, held, hturns, hpins, hcontrol, -⟩ := step_resetHigh ho turns hreset
  rw [hanalyse] at hcontrol
  have step2 := step_resetLow (held.oneProcess ho) hturns hcontrol (congrArg Pins.reset hpins)
  have pins : ({ h.pins with reset := false } : Pins) = s.pins := by
    rw [hpins]
    exact Pins.eq_of_levels hreset rfl rfl
  obtain ⟨-, kept, forced⟩ := held.proceeds [] pins
  exact ⟨⟨h, run_succ step1, hcontrol, held.kept, held.same⟩,
    _, (run_succ step1).trans (run_succ step2), kept, forced⟩

/-- Settles O44: Analyse high and Reset high hold the machine with its memory, Reset low holds it on, and Analyse low lets
`start` proceed from the state held. -/
theorem analyseKeepsMemory : Obligations.AnalyseKeepsMemory := by
  intro s turns hc ho hreset hanalyse
  have step1 := step_analyseHigh ho turns hc hanalyse
  obtain ⟨h, step2, ⟨kept, same, high, low⟩, hturns, hpins, hcontrol, hmem⟩ :=
    step_resetHigh (rest := [.host .resetLow, .host .analyseLow]) (State.oneProcess_analysed ho) rfl hreset
  have held : s.HeldFrom h := ⟨kept, same, high, low⟩
  have mem : h.mem = s.mem := hmem rfl
  have step3 := step_resetLow_analyse (held.oneProcess ho) hturns hcontrol (congrArg Pins.reset hpins)
    (congrArg Pins.analyse hpins)
  have heldOn : s.HeldFrom (h.heldOn [.host .analyseLow]) := ⟨kept, same, high, low⟩
  have step4 := step_analyseLow (heldOn.oneProcess ho) rfl rfl (congrArg Pins.analyse hpins)
  have pins : ({ (h.heldOn [.host .analyseLow]).pins with analyse := false } : Pins) = s.pins := by
    rw [State.heldOn, hpins]
    exact Pins.eq_of_levels hreset hanalyse rfl
  obtain ⟨keptMem, keptRest, forced⟩ := heldOn.proceeds [] pins
  have runs := fun n => (run_succ (n := n + 2) step1).trans ((run_succ (n := n + 1) step2).trans (run_succ step3))
  exact ⟨⟨_, runs 0, rfl, ⟨mem, kept⟩, same⟩,
    _, (runs 1).trans (run_succ step4), ⟨keptMem.trans mem, keptRest⟩, forced⟩

end Sys2Proof.Machine

/-! PROOFS. The statements of 20_memory.md: ROM kept by every step (O52), where a step stops before an instruction (O8), the
address of a word access and the stops of `stl` (O25, O26), bytes written ahead of fetch (O27), the bytes of a word (O49),
and who writes memory and the Links (O60). -/

namespace Sys2Proof.Machine

/-! ### ROM -/

/-- Two memories agree on every byte that stands in ROM (R74). -/
def RomKept (c : Cfg) (m n : Memory) : Prop :=
  ∀ a : Word, memKind c a = some .rom → n.read a.toNat = m.read a.toNat

/-- The configuration as it was, and every byte that stands in ROM (R74). -/
def State.KeepsRom (s t : State) : Prop := t.cfg = s.cfg ∧ RomKept s.cfg s.mem t.mem

theorem State.keepsRom_of_mem_eq {s t : State} (cfg : t.cfg = s.cfg) (mem : t.mem = s.mem) : s.KeepsRom t :=
  ⟨cfg, fun _ _ => by rw [mem]⟩

/-- No address is both ROM and RAM. -/
theorem toNat_ne_of_rom_of_ram {c : Cfg} {a b : Word} (rom : memKind c a = some .rom) (ram : memKind c b = some .ram) :
    a.toNat ≠ b.toNat := by
  intro h
  rw [BitVec.eq_of_toNat_eq h, ram] at rom
  cases rom

/-- Bytes written where RAM stands are none of ROM's. -/
theorem romKept_writeBytes {c : Cfg} {m : Memory} {as : List Word} (bs : List Byte) (hm : m.wf = true)
    (ram : ∀ b ∈ as, memKind c b = some .ram) : RomKept c m (m.writeBytes as bs) :=
  fun _ rom => Memory.read_writeBytes_other as bs hm _ fun b hb => (toNat_ne_of_rom_of_ram rom (ram b hb)).symm

/-- Cells chosen by their addresses: a chosen address reads as before. -/
theorem Memory.read_filter (p : Host.Cell → Bool) {m : Memory} {addr : Nat} (hp : ∀ v, p (addr, v) = true) :
    Memory.read (m.filter p) addr = m.read addr := by
  induction m with
  | nil => rfl
  | cons cell rest ih =>
    obtain ⟨a, v⟩ := cell
    by_cases ha : a = addr
    · subst ha
      rw [List.filter_cons_of_pos (hp v)]
      simp [Memory.read]
    · rw [List.filter_cons]
      split <;> simp [Memory.read, ha, ih]

/-- The cells of ROM read as before where ROM stands. -/
theorem romKept_romCells (c : Cfg) (m : Memory) : RomKept c m (romCells c m) := by
  intro a rom
  refine Memory.read_filter _ fun _ => ?_
  rw [BitVec.ofNat_toNat, BitVec.setWidth_eq, rom, decide_eq_true_eq]

theorem romKept_overwriteRam (c : Cfg) {m : Memory} (cells : List Host.Cell) (hm : m.wf = true) :
    RomKept c m (overwriteRam c m cells) := by
  induction cells generalizing m with
  | nil => exact fun _ _ => rfl
  | cons cell rest ih =>
    simp only [overwriteRam]
    split
    · next ram =>
      intro a rom
      rw [ih (Memory.wf_write _ _ hm) a rom, Memory.read_write _ _ hm, if_neg (toNat_ne_of_rom_of_ram rom ram)]
    · exact ih hm

/-- The redraw of a plain Reset leaves ROM as it was (log 18). -/
theorem romKept_redrawn (c : Cfg) {m : Memory} (n : Nat) (hm : m.wf = true) : RomKept c m (redrawn c m n) :=
  fun a rom => (romKept_overwriteRam c _ (Memory.wfFrom_filter _ hm) a rom).trans (romKept_romCells c m a rom)

/-! ### ROM through the step of each agent -/

theorem State.keepsRom_beginStart (s : State) : s.KeepsRom s.beginStart :=
  State.keepsRom_of_mem_eq (congrArg State.cfg s.beginStart_frame :) s.beginStart_mem

/-- `stl` completes exactly where its store does: the store, then a pop (R209). -/
theorem exec_stl_eq_next {d : Nibble} {s t : State} :
    exec (.stl d) s = .next t ↔
      ∃ u, s.storeNoted (index s.cfg.wordSize s.wPtr (s.operand d)) s.aReg = .ok u ∧ t = u.pop.finish := by
  simp only [exec, execStl]
  cases s.storeNoted (index s.cfg.wordSize s.wPtr (s.operand d)) s.aReg with
  | ok u => simp [eq_comm]
  | error e => simp [outcome]

theorem exec_keepsRom {i : Instr} {s t : State} (hm : s.mem.wf = true) (e : exec i s = .next t) : s.KeepsRom t := by
  obtain ⟨op, -, hopr, e⟩ := exec_selects e
  by_cases hstart : op = .start
  · subst hstart
    exact exec_start e ▸ State.keepsRom_beginStart { s with iPtr := s.nextInst }
  by_cases hstl : ∃ d, op = .stl d
  · obtain ⟨d, rfl⟩ := hstl
    obtain ⟨u, hu, rfl⟩ := exec_stl_eq_next.mp e
    obtain ⟨x, -, ram, rfl⟩ := State.storeNoted_eq_ok.mp hu
    exact ⟨rfl, romKept_writeBytes _ hm ram⟩
  · have frame := exec_frame hopr hstart e
    exact State.keepsRom_of_mem_eq (congrArg State.cfg frame.state :) (frame.mem (not_exists.mp hstl))

/-- In the Link phase of `start` the CPU writes memory by a poke only (R130). -/
theorem BootMove.keepsRom {s t : State} {b : Boot} (hm : s.mem.wf = true) (m : BootMove s b t) : s.KeepsRom t := by
  cases m with
  | word => exact State.keepsRom_of_mem_eq rfl rfl
  | message => exact State.keepsRom_of_mem_eq rfl rfl
  | pokeAddress => exact State.keepsRom_of_mem_eq rfl rfl
  | peekAddress => exact State.keepsRom_of_mem_eq rfl rfl
  | pokeData k a u phase store =>
    obtain ⟨x, -, ram, rfl⟩ := State.storeWord_eq_ok.mp store
    exact ⟨rfl, romKept_writeBytes _ hm ram⟩
  | peekDone => exact State.keepsRom_of_mem_eq rfl rfl
  | booted k length =>
    have spec := (s.finishBoot_spec b k length).1
    exact State.keepsRom_of_mem_eq (congrArg State.cfg spec :) (congrArg State.mem spec :)

theorem ChannelMove.keepsRom {s t : State} {ch : ChannelId} (hm : s.mem.wf = true) (m : ChannelMove s ch t) :
    s.KeepsRom t := by
  have cfg : t.cfg = s.cfg := (congrArg State.cfg m.state :)
  rcases m.mem with same | ⟨n, a, v, ram, written⟩
  · exact State.keepsRom_of_mem_eq cfg same
  · exact ⟨cfg, written ▸ romKept_writeBytes _ hm ram⟩

theorem cpuStep_keepsRom {s t : State} (hm : s.mem.wf = true) (e : cpuStep s = .next t) : s.KeepsRom t := by
  rcases cpuStep_cases e with rfl | ⟨-, i, -, he⟩ | ⟨b, -, -, m⟩
  · exact State.keepsRom_of_mem_eq rfl rfl
  · exact exec_keepsRom hm he
  · exact m.keepsRom hm

theorem ownStep_keepsRom {s t : State} (hm : s.mem.wf = true) (e : ownStep s = .next t) : s.KeepsRom t := by
  rcases ownStep_cases e with ⟨ch, -, hc⟩ | ⟨-, hc⟩
  · exact (channelStep_move hc).keepsRom hm
  · exact cpuStep_keepsRom hm hc

theorem State.keepsRom_byteLands (s : State) (k : Link) (v : Byte) : s.KeepsRom (s.byteLands k v) := by
  rw [State.byteLands_eq]
  exact State.keepsRom_of_mem_eq rfl rfl

/-- In an Analyse Reset keeps memory, and else it redraws what is RAM (R274, log 18). -/
theorem State.keepsRom_resetGoesHigh {s : State} (hm : s.mem.wf = true) : s.KeepsRom s.resetGoesHigh := by
  refine ⟨rfl, ?_⟩
  show RomKept s.cfg s.mem (if s.pins.analyse then s.mem else redrawn s.cfg s.mem _)
  split
  · exact fun _ _ => rfl
  · exact romKept_redrawn _ _ hm

theorem State.keepsRom_resetGoesLow (s : State) : s.KeepsRom s.resetGoesLow := by
  have started := State.keepsRom_beginStart { s with pins := { s.pins with reset := false } }
  unfold State.resetGoesLow
  dsimp only
  split
  · split
    · exact State.keepsRom_of_mem_eq rfl rfl
    · exact started
  · exact started

theorem State.keepsRom_analyseGoesHigh (s : State) : s.KeepsRom s.analyseGoesHigh := by
  unfold State.analyseGoesHigh
  dsimp only
  split <;> exact State.keepsRom_of_mem_eq rfl rfl

theorem State.keepsRom_analyseGoesLow {s t : State} (e : s.analyseGoesLow = .ok t) : s.KeepsRom t := by
  unfold State.analyseGoesLow at e
  dsimp only at e
  split at e <;> cases e
  · exact State.keepsRom_beginStart { s with pins := { s.pins with analyse := false } }
  · exact State.keepsRom_of_mem_eq rfl rfl

theorem hostStep_keepsRom {s t : State} {a : HostAction} (hm : s.mem.wf = true) (e : hostStep a s = .ok t) :
    s.KeepsRom t := by
  have same : s.KeepsRom s := State.keepsRom_of_mem_eq rfl rfl
  cases a with
  | linkShift k =>
    simp only [hostStep, State.byteBegins] at e
    split at e
    · cases e; exact same
    · split at e <;> cases e
      exact State.keepsRom_of_mem_eq rfl rfl
  | linkByte k v =>
    simp only [hostStep, State.byteArrives] at e
    split at e
    · split at e <;> cases e
      · exact s.keepsRom_byteLands k v
      · exact State.keepsRom_of_mem_eq rfl rfl
    · split at e <;> cases e
      exact s.keepsRom_byteLands k v
  | linkAccept k x => cases e; exact State.keepsRom_of_mem_eq rfl rfl
  | linkTake k => cases e; exact State.keepsRom_of_mem_eq rfl rfl
  | resetHigh =>
    simp only [hostStep] at e
    split at e <;> cases e
    · exact same
    · exact State.keepsRom_resetGoesHigh hm
  | resetLow =>
    simp only [hostStep] at e
    split at e <;> cases e
    · exact s.keepsRom_resetGoesLow
    · exact same
  | analyseHigh =>
    simp only [hostStep] at e
    split at e <;> cases e
    · exact same
    · exact s.keepsRom_analyseGoesHigh
  | analyseLow =>
    simp only [hostStep] at e
    split at e
    · exact State.keepsRom_analyseGoesLow e
    · cases e; exact same
  | bootFromRom level => cases e; exact State.keepsRom_of_mem_eq rfl rfl

/-- Settles O52: an agent's step writes memory where it is RAM, or, at a plain Reset, redraws what is RAM. -/
theorem stepKeepsRom : Obligations.StepKeepsRom := by
  intro s t hm e
  have kept : s.KeepsRom t := by
    obtain ⟨-, ⟨-, e⟩ | ⟨rest, -, e⟩ | ⟨ch, rest, -, e⟩ | ⟨a, rest, -, e⟩⟩ := step_cases e
    · exact ownStep_keepsRom hm e
    · exact cpuStep_keepsRom (s := { s with turns := rest }) hm e
    · exact (channelStep_move e).keepsRom (s := { s with turns := rest }) hm
    · exact hostStep_keepsRom (s := { s with turns := rest }) hm e
  obtain ⟨cfg, rom⟩ := kept
  exact ⟨cfg, fun a ha _ => rom a ha⟩

/-! ### Where a step stops before an instruction -/

/-- Outside R241's conditions every step is refused (U12, log 22). -/
theorem step_of_not_oneProcess {s : State} (h : s.oneProcess = false) : step s = .refused .notOneProcess :=
  if_neg (ne_true_of_eq_false h)

/-- A fetch that stops is the stop of the step. -/
theorem step_of_fetch_error {s : State} {r : Refusal} (ho : s.oneProcess = true) (ht : s.turns = [])
    (hc : s.control = .run) (hf : s.fetch = .error r) : step s = .refused r := by
  rw [step_run ho ht hc]
  simp only [cpuStep, hc, State.runInstr, hf, outcome]

theorem State.fetch_of_fetchByte_error {s : State} {r : Refusal} (h : s.fetchByte = .error r) : s.fetch = .error r := by
  simp only [State.fetch, h]

theorem State.fetchByte_of_written {s : State} {a : Word} (ha : s.cfg.wordSize.trunc s.iPtr = a)
    (h : a.toNat ∈ s.written) : s.fetchByte = .error (.fetchOfWrittenByte a) := by
  subst ha
  exact if_pos (List.contains_iff_mem.mpr h)

theorem State.fetchByte_of_empty {s : State} (fresh : (s.cfg.wordSize.trunc s.iPtr).toNat ∉ s.written)
    (empty : memKind s.cfg (s.cfg.wordSize.trunc s.iPtr) = none) :
    s.fetchByte = .error (.emptyMemory (s.cfg.wordSize.trunc s.iPtr)) := by
  simp [State.fetchByte, fresh, readStop, empty]

/-- A byte that was not written ahead of fetch is read where something stands (R74, R79). -/
theorem State.fetchByte_of_there {s : State} (fresh : (s.cfg.wordSize.trunc s.iPtr).toNat ∉ s.written)
    (there : memKind s.cfg (s.cfg.wordSize.trunc s.iPtr) ≠ none) :
    s.fetchByte = .ok (s.mem.read (s.cfg.wordSize.trunc s.iPtr).toNat) := by
  simp [State.fetchByte, fresh, readStop_eq_none.mpr there]

/-- The functions that R91 and R100 do not list are no instruction (R103). -/
theorem decodeByte_of_unlisted {b : Byte} (oreg : Word)
    (h : functionOf b ∈ [(0x1 : Nibble), 0x3, 0x7, 0x8, 0x9, 0xA, 0xB, 0xC, 0xE]) :
    decodeByte oreg b = .error (.functionNotSpecified (functionOf b)) := by
  unfold decodeByte
  split
  case h_8 => rfl
  all_goals next listed => exact absurd (listed ▸ h) (by decide)

/-- Settles O8: the guard refuses, or the fetch stops, at its byte or at its decoding. -/
theorem stepStopsBeforeAnInstruction : Obligations.StepStopsBeforeAnInstruction := by
  refine ⟨fun s => step_of_not_oneProcess, fun s ht hc ho => ⟨fun written => ?_, fun fresh empty => ?_,
    fun fresh there unlisted => ?_⟩⟩
  · exact step_of_fetch_error ho ht hc (State.fetch_of_fetchByte_error (State.fetchByte_of_written rfl written))
  · exact step_of_fetch_error ho ht hc (State.fetch_of_fetchByte_error (State.fetchByte_of_empty fresh empty))
  · refine step_of_fetch_error ho ht hc ?_
    simp only [State.fetch, State.fetchByte_of_there fresh there, decodeByte_of_unlisted _ unlisted]

/-! ### The address of a word access -/

/-- The low bits of an address are its remainder by BPW. -/
theorem toNat_and_lowBits (ws : WordSize) (a : Word) :
    (a &&& BitVec.ofNat 32 (ws.bytes - 1)).toNat = a.toNat % ws.bytes := by
  cases ws with
  | w16 => exact Nat.and_two_pow_sub_one_eq_mod a.toNat 1
  | w32 => exact Nat.and_two_pow_sub_one_eq_mod a.toNat 2

/-- The bits of a word within a mask and those outside it make up the word. -/
theorem toNat_and_add_toNat_and_not (a m : Word) : (a &&& m).toNat + (a &&& ~~~m).toNat = a.toNat := by
  have disjoint : (a &&& m) &&& (a &&& ~~~m) = 0#32 := by
    ext i hi
    simp +contextual
  have both : (a &&& m) ||| (a &&& ~~~m) = a := by
    rw [← BitVec.and_or_distrib_left, BitVec.or_not_self, BitVec.and_allOnes]
  rw [← BitVec.toNat_add_of_and_eq_zero disjoint, BitVec.add_eq_or_of_and_eq_zero _ _ disjoint, both]

theorem alignedAddress_of_aligned {c : Cfg} {a : Word} (ha : inWord c.wordSize a = true)
    (h : a.toNat % c.wordSize.bytes = 0) : alignedAddress c a = .ok a := by
  rw [← toNat_and_lowBits] at h
  simp only [alignedAddress, trunc_of_inWord ha]
  exact if_pos (BitVec.eq_of_toNat_eq h)

theorem and_lowBits_ne_zero {ws : WordSize} {a : Word} (h : a.toNat % ws.bytes ≠ 0) :
    a &&& BitVec.ofNat 32 (ws.bytes - 1) ≠ 0 := by
  intro e
  rw [← toNat_and_lowBits, e] at h
  exact h rfl

theorem alignedAddress_of_refuse {c : Cfg} {a : Word} (ha : inWord c.wordSize a = true)
    (h : a.toNat % c.wordSize.bytes ≠ 0) (hr : c.misaligned = .refuse) :
    alignedAddress c a = .error (.misalignedWord a) := by
  simp only [alignedAddress, trunc_of_inWord ha, if_neg (and_lowBits_ne_zero h), hr]

theorem alignedAddress_of_ignoreLowBits {c : Cfg} {a : Word} (ha : inWord c.wordSize a = true)
    (h : a.toNat % c.wordSize.bytes ≠ 0) (hi : c.misaligned = .ignoreLowBits) :
    alignedAddress c a = .ok (a &&& ~~~BitVec.ofNat 32 (c.wordSize.bytes - 1)) := by
  simp only [alignedAddress, trunc_of_inWord ha, if_neg (and_lowBits_ne_zero h), hi]

/-- Settles O26: the low bits of an address are its remainder by BPW, and what is left without them is the rest. -/
theorem wordAccessAddress : Obligations.WordAccessAddress := by
  refine fun c a ha => ⟨alignedAddress_of_aligned ha, alignedAddress_of_refuse ha,
    fun h hi => ⟨_, alignedAddress_of_ignoreLowBits ha h hi, ?_⟩⟩
  have split := toNat_and_add_toNat_and_not a (BitVec.ofNat 32 (c.wordSize.bytes - 1))
  rw [toNat_and_lowBits] at split
  omega

/-! ### Where `stl` stops -/

theorem inWord_index (ws : WordSize) (a n : Word) : inWord ws (index ws a n) = true := inWord_trunc ws _

/-- A store that stops is the stop of `stl`. -/
theorem exec_stl_of_storeWord_error {d : Nibble} {s : State} {r : Refusal}
    (h : s.storeWord (index s.cfg.wordSize s.wPtr (s.operand d)) s.aReg = .error r) :
    exec (.stl d) s = .refused r := by
  simp only [exec, execStl, State.storeNoted, h, outcome]

theorem State.storeWord_of_misaligned {s : State} {a v : Word} {r : Refusal} (h : alignedAddress s.cfg a = .error r) :
    s.storeWord a v = .error r := by
  simp only [State.storeWord, h]

/-- A word store stops where one of its bytes does. -/
theorem State.storeWord_of_stop {s : State} {a v x : Word} {r : Refusal} (h : alignedAddress s.cfg a = .ok x)
    (hr : firstStop writeStop s.cfg (addressSpan s.cfg.wordSize s.cfg.wordSize.bytes x) = some r) :
    s.storeWord a v = .error r := by
  simp only [State.storeWord, h, hr]

theorem writeStop_eq_some {c : Cfg} {a : Word} {r : Refusal} (h : writeStop c a = some r) :
    memKind c a = none ∧ r = .emptyMemory a ∨ memKind c a = some .rom ∧ r = .romWrite a := by
  unfold writeStop at h
  split at h <;> cases h
  · next empty => exact .inl ⟨empty, rfl⟩
  · next rom => exact .inr ⟨rom, rfl⟩

/-- A write stops at one of its bytes where some byte is no RAM (R74). -/
theorem exists_firstStop_of_not_ram {c : Cfg} {as : List Word} {b : Word} (hb : b ∈ as) (h : memKind c b ≠ some .ram) :
    ∃ e ∈ as, ∃ r, firstStop writeStop c as = some r ∧ writeStop c e = some r := by
  cases stop : firstStop writeStop c as with
  | none => exact absurd (writeStop_eq_none.mp (firstStop_eq_none.mp stop b hb)) h
  | some r =>
    obtain ⟨e, he, hr⟩ := firstStop_eq_some stop
    exact ⟨e, he, r, rfl, hr⟩

/-- Settles O25: `stl` stops where the address of its store has no meaning, or at the first byte that cannot be written. -/
theorem stlStopsOnMemoryThatCannotBeWritten : Obligations.StlStopsOnMemoryThatCannotBeWritten := by
  refine fun d s => ⟨fun refuse misaligned => ?_, fun x b aligned hb notRam => ?_⟩
  · exact exec_stl_of_storeWord_error
      (State.storeWord_of_misaligned (alignedAddress_of_refuse (inWord_index _ _ _) misaligned refuse))
  · obtain ⟨e, he, r, stop, at_e⟩ := exists_firstStop_of_not_ram hb notRam
    have refused := exec_stl_of_storeWord_error (State.storeWord_of_stop aligned stop)
    refine ⟨e, he, ?_⟩
    rcases writeStop_eq_some at_e with ⟨empty, rfl⟩ | ⟨rom, rfl⟩
    · exact .inl ⟨empty, refused⟩
    · exact .inr ⟨rom, refused⟩

/-! ### Bytes written ahead of fetch -/

theorem inWord_of_mem_addressSpan {ws : WordSize} {n : Nat} {a b : Word} (h : b ∈ addressSpan ws n a) :
    inWord ws b = true := by
  obtain ⟨i, -, rfl⟩ := mem_addressSpan.mp h
  exact inWord_trunc ws _

/-- A taken jump forgets what was written ahead of fetch (R78). -/
theorem exec_j_written {d : Nibble} {s t : State} (e : exec (.j d) s = .next t) : t.written = [] := by
  simp only [exec, execJ] at e
  split at e <;> cases e
  rfl

/-- Settles O27: `stl` adds to the note what it writes in the window that begins at the next instruction. -/
theorem byteWrittenAheadOfFetchIsRefused : Obligations.ByteWrittenAheadOfFetchIsRefused := by
  intro d s t x b e
  obtain ⟨_, stored, rfl⟩ := exec_stl_eq_next.mp e
  obtain ⟨y, haligned, -, rfl⟩ := State.storeNoted_eq_ok.mp stored
  refine ⟨fun a noted => mem_noteWritten.mpr (.inl noted), fun hx hb window u cfg written iPtr ht hc ho => ?_,
    fun _ _ => exec_j_written⟩
  cases haligned.symm.trans hx
  have reached : u.cfg.wordSize.trunc u.iPtr = b := by
    rw [cfg, iPtr]
    exact trunc_of_inWord (inWord_of_mem_addressSpan hb)
  have noted : b.toNat ∈ u.written := by
    rw [written]
    exact mem_noteWritten.mpr (.inr ⟨b, hb, decide_eq_true window, rfl⟩)
  exact step_of_fetch_error ho ht hc (State.fetch_of_fetchByte_error (State.fetchByte_of_written reached noted))

/-! ### Words in memory -/

/-- The bytes of a word read are those of its span (R64). -/
theorem bytesOf_readWord (ws : WordSize) (m : Memory) (a : Word) :
    bytesOf ws.bytes (m.readWord ws a) = (addressSpan ws ws.bytes a).map fun x => m.read x.toNat :=
  bytesOf_valueOf ws _ (by simp)

theorem laneOf_readWord {ws : WordSize} (m : Memory) (a : Word) {i : Nat} (h : i < ws.bytes) :
    laneOf (m.readWord ws a) i = m.read (ws.trunc (a + BitVec.ofNat 32 i)).toNat := by
  have lanes := bytesOf_readWord ws m a
  rw [bytesOf_eq_map, addressSpan_eq_map, List.map_map, List.map_inj_left] at lanes
  exact lanes i (List.mem_range.mpr h)

/-- Settles O49. -/
theorem wordsAreLittleEndian : Obligations.WordsAreLittleEndian :=
  fun ws m a v => ⟨inWord_readWord ws m a, fun _ => laneOf_readWord m a, Memory.readWord_writeWord ws a v⟩

/-! ### Who writes memory and the Links -/

/-- Settles O60: what is executed is not `start`, and its frame names the writer of each. -/
theorem whoWritesMemoryAndChannels : Obligations.WhoWritesMemoryAndChannels := by
  intro i s t hstart hopr e
  obtain ⟨op, sel, hne, eop⟩ := exec_selects e
  have frame := exec_frame hne (sel.ne rfl hstart hopr) eop
  exact ⟨fun hstl => frame.mem fun d => sel.ne_function rfl (hstl d), fun hi hn => frame.links (sel.ne rfl hi hn)⟩

end Sys2Proof.Machine

/-! PROOFS. The statements of 30_encoding.md: decoding and encoding at one byte (O1, O2) and over whole memory codes (O3 to
O6), the step of an instruction and of a two-byte memory code (O7, O9), the prefixes and `opr` (O10 to O13), and what every
step leaves in Oreg (O54, O55). -/

namespace Sys2Proof

/-! ### One byte -/

theorem decodeByte_pfix (oreg : Word) (d : Nibble) : decodeByte oreg (instrByte 0x2 d) = .ok (.pfix d) := by
  simp [decodeByte]

theorem decodeByte_nfix (oreg : Word) (d : Nibble) : decodeByte oreg (instrByte 0x6 d) = .ok (.nfix d) := by
  simp [decodeByte]

/-- At function #F the operand selects an operation, or leaves `opr` (R98, R106). -/
theorem decodeByte_opr (oreg : Word) (d : Nibble) :
    decodeByte oreg (instrByte 0xF d) = .ok ((operationOf (operandOf oreg d).toNat).getD (.opr d)) := by
  simp [decodeByte]

/-- An operation's final byte has function #F and the low digit of its code as data (R98, R99, R100). -/
theorem finalByte_of_operation {i : Instr} {n : Nat} (h : i.operationCode = some n) :
    finalByte i = instrByte 0xF (BitVec.ofNat 4 n) := by
  cases i <;> cases h <;> rfl

/-- An operation can stand where the operand at its final byte is its code (R98). -/
theorem wellFormedAt_operation {i : Instr} {n : Nat} (oreg : Word) (h : i.operationCode = some n) :
    i.wellFormedAt oreg = true ↔ (operandOf oreg (BitVec.ofNat 4 n)).toNat = n := by
  cases i <;> cases h <;> exact beq_iff_eq

theorem wellFormedAt_opr {oreg : Word} {d : Nibble} :
    (Instr.opr d).wellFormedAt oreg = true ↔ (operandOf oreg d).toNat ∉ operationCodes := by
  simp [Instr.wellFormedAt, operandOf]

/-- Where no operation is selected the code is none of the nine (R103). -/
theorem not_mem_operationCodes {n : Nat} (h : operationOf n = none) : n ∉ operationCodes := by
  intro hn
  simp only [operationCodes, List.mem_cons, List.not_mem_nil, or_false] at hn
  rcases hn with rfl | rfl | rfl | rfl | rfl | rfl | rfl | rfl | rfl <;> cases h

theorem decodeByte_of_operation {oreg : Word} {i : Instr} {n : Nat} (code : i.operationCode = some n)
    (h : i.wellFormedAt oreg = true) : decodeByte oreg (finalByte i) = .ok i := by
  rw [finalByte_of_operation code, decodeByte_opr, (wellFormedAt_operation oreg code).mp h,
    operationOf_eq_some.mpr code]
  rfl

/-- Settles O1: an operation is what the operand at its byte selects, `opr` is left where it selects none, and the function
field alone gives the others. -/
theorem finalByteDecodesToItsInstruction : Obligations.FinalByteDecodesToItsInstruction := by
  intro oreg i h
  cases i with
  | opr d =>
    rw [finalByte, decodeByte_opr, operationOf_eq_none (wellFormedAt_opr.mp h)]
    rfl
  | pfix d => exact decodeByte_pfix oreg d
  | nfix d => exact decodeByte_nfix oreg d
  | j d => simp [decodeByte, finalByte]
  | ldc d => simp [decodeByte, finalByte]
  | ldnlp d => simp [decodeByte, finalByte]
  | stl d => simp [decodeByte, finalByte]
  | _ => exact decodeByte_of_operation rfl h

/-- With Oreg's low digit clear the data field is the low digit of the operand (R97). -/
theorem low_digit_operandOf {oreg : Word} (d : Nibble) (h : oreg &&& 0xF = 0) :
    BitVec.ofNat 4 (operandOf oreg d).toNat = d := by
  have clear : oreg.toNat % 2 ^ 4 = 0 := by
    rw [← Nat.and_two_pow_sub_one_eq_mod]
    exact congrArg BitVec.toNat h
  apply BitVec.eq_of_toNat_eq
  rw [BitVec.toNat_ofNat, operandOf, BitVec.toNat_or, Nat.or_mod_two_pow, clear, Nat.zero_or, BitVec.toNat_setWidth]
  omega

/-- At function #F what is decoded can stand there, and ends in this byte: with Oreg's low digit clear no operation is
selected under another data field than its own. -/
theorem finalByte_of_decodeByte_opr {oreg : Word} {d : Nibble} {i : Instr} (clear : oreg &&& 0xF = 0)
    (h : decodeByte oreg (instrByte 0xF d) = .ok i) : i.wellFormedAt oreg = true ∧ finalByte i = instrByte 0xF d := by
  rw [decodeByte_opr] at h
  cases selected : operationOf (operandOf oreg d).toNat with
  | none =>
    cases selected ▸ h
    exact ⟨wellFormedAt_opr.mpr (not_mem_operationCodes selected), rfl⟩
  | some op =>
    obtain rfl : op = i := by simpa [selected] using h
    have code := operationOf_eq_some.mp selected
    rw [wellFormedAt_operation _ code, finalByte_of_operation code, low_digit_operandOf d clear]
    exact ⟨rfl, rfl⟩

/-- Settles O2: the function field of the byte names the instruction, and at #F its operand does. -/
theorem decodedByteIsTheFinalByte : Obligations.DecodedByteIsTheFinalByte := by
  intro oreg b i clear h
  have fields := instrByte_fields b
  by_cases hF : functionOf b = 0xF
  · rw [← fields, hF] at h ⊢
    exact finalByte_of_decodeByte_opr clear h
  · unfold decodeByte at h
    split at h <;> cases h
    case h_7 hf => exact absurd hf hF
    all_goals
      next hf =>
      rw [hf] at fields
      exact ⟨rfl, fields⟩

/-! ### Whole memory codes -/

theorem decodeBytes_singleton (ws : WordSize) {oreg : Word} {b : Byte} {i : Instr} (n : Nat)
    (h : decodeByte oreg b = .ok i) : decodeBytes ws oreg n [b] = .ok (i, oreg, n, []) := by
  cases i <;> simp [decodeBytes, h]

/-- The prefix bytes of an instruction's memory code are taken into Oreg, and leave there what the instruction's final
byte needs (R94, R98 to R100). -/
theorem exists_oreg_of_leadingBytes (ws : WordSize) (i : Instr) :
    ∃ oreg, i.wellFormedAt oreg = true
      ∧ ∀ b, decodeBytes ws 0 0 (leadingBytes i ++ [b]) = decodeBytes ws oreg (leadingBytes i).length [b] := by
  cases i with
  | start => exact ⟨0x1F0, rfl, fun b => by cases ws <;> rfl⟩
  | mint => exact ⟨0x40, rfl, fun b => by cases ws <;> rfl⟩
  | opr d => exact ⟨0, by revert d; decide, fun b => rfl⟩
  | pfix d => exact ⟨0, rfl, fun b => rfl⟩
  | nfix d => exact ⟨0, rfl, fun b => rfl⟩
  | j d => exact ⟨0, rfl, fun b => rfl⟩
  | ldc d => exact ⟨0, rfl, fun b => rfl⟩
  | ldnlp d => exact ⟨0, rfl, fun b => rfl⟩
  | stl d => exact ⟨0, rfl, fun b => rfl⟩
  | _ => exact ⟨0x20, rfl, fun b => by cases ws <;> rfl⟩

/-- Settles O3. -/
theorem memoryCodeDecodesToItsInstruction : Obligations.MemoryCodeDecodesToItsInstruction := by
  intro ws i
  obtain ⟨oreg, wf, taken⟩ := exists_oreg_of_leadingBytes ws i
  exact ⟨oreg, (taken _).trans (decodeBytes_singleton ws _ (finalByteDecodesToItsInstruction oreg i wf)), wf⟩

/-- Settles O5: each number is decoded, from its bytes on, by evaluation. -/
theorem memoryCodesOfTheManualDecode : Obligations.MemoryCodesOfTheManualDecode := by
  unfold Obligations.MemoryCodesOfTheManualDecode
  decide

/-! ### Functions with their operands -/

theorem assemble_pfix (ws : WordSize) (oreg : Word) (d : Nibble) (rest : List Byte) :
    assemble ws oreg (instrByte 0x2 d :: rest) = assemble ws (pfixOreg ws oreg d) rest := by
  simp [assemble]

theorem assemble_nfix (ws : WordSize) (oreg : Word) (d : Nibble) (rest : List Byte) :
    assemble ws oreg (instrByte 0x6 d :: rest) = assemble ws (nfixOreg ws oreg d) rest := by
  simp [assemble]

/-- A byte whose function is no prefix ends a memory code (R93, R97). -/
theorem assemble_final (ws : WordSize) (oreg : Word) {f : Nibble} (d : Nibble) (rest : List Byte) (hp : f ≠ 0x2)
    (hn : f ≠ 0x6) : assemble ws oreg (instrByte f d :: rest) = some (f, operandOf oreg d, rest) := by
  simp only [assemble, functionOf_instrByte, dataOf_instrByte]
  split
  · exact absurd rfl hp
  · exact absurd rfl hn
  · rfl

/-- Settles O6: `pfix 0` leaves Oreg 0. -/
theorem redundantPrefixChangesNothing : Obligations.RedundantPrefixChangesNothing := by
  intro ws bytes
  rw [assemble_pfix]
  cases ws <;> rfl

end Sys2Proof

namespace Sys2Proof.Machine

/-! ### Canonical memory codes -/

/-- A word is its upper digits with its low digit as data (R90, R97). -/
theorem operandOf_upper_low (v : Word) : operandOf ((v >>> 4) <<< 4) (v.extractLsb' 0 4) = v := by
  ext i hi
  by_cases low : i < 4
  · simp [operandOf, low, BitVec.getLsbD_eq_getElem hi]
  · simp [operandOf, low, Nat.add_sub_cancel' (not_lt.mp low), BitVec.getLsbD_eq_getElem hi]

theorem toNat_lt_of_inWord {ws : WordSize} {v : Word} (h : inWord ws v = true) : v.toNat < 2 ^ ws.bits :=
  trunc_of_inWord h ▸ WordSize.toNat_trunc_lt ws v

theorem trunc_of_toNat_lt {ws : WordSize} {v : Word} (h : v.toNat < 2 ^ ws.bits) : ws.trunc v = v :=
  BitVec.eq_of_toNat_eq ((WordSize.toNat_trunc ws v).trans (Nat.mod_eq_of_lt h))

theorem toNat_shiftDigit (v : Word) : (v >>> 4).toNat = v.toNat / 16 := by
  rw [BitVec.toNat_ushiftRight, Nat.shiftRight_eq_div_pow]

theorem toNat_upper (v : Word) : ((v >>> 4) <<< 4).toNat = v.toNat / 16 * 16 := by
  have := v.isLt
  rw [BitVec.toNat_shiftLeft, toNat_shiftDigit, Nat.shiftLeft_eq]
  omega

/-- A word of W bits is negative from 2^(W-1) on. -/
theorem isNegative_iff {ws : WordSize} {v : Word} (h : v.toNat < 2 ^ ws.bits) :
    isNegative ws v = true ↔ 2 ^ (ws.bits - 1) ≤ v.toNat := by
  rw [isNegative, BitVec.getLsbD, Nat.testBit_eq_decide_div_mod_eq, decide_eq_true_iff]
  cases ws <;> simp only [WordSize.bits] at h ⊢ <;> omega

/-- `pfix` puts the last of a word's upper digits below the others (R94). -/
theorem pfixOreg_upper_low {ws : WordSize} {v : Word} (h : v.toNat < 2 ^ ws.bits) :
    pfixOreg ws ((v >>> 4 >>> 4) <<< 4) ((v >>> 4).extractLsb' 0 4) = (v >>> 4) <<< 4 := by
  rw [pfixOreg, operandOf_upper_low]
  refine trunc_of_toNat_lt ?_
  rw [toNat_upper]
  omega

/-- The upper digits of a word's complement, complemented by `nfix`, are the word's own (R96). -/
theorem nfixOreg_upper_low {ws : WordSize} {v : Word} (h : v.toNat < 2 ^ ws.bits) :
    nfixOreg ws ((ws.trunc (~~~v) >>> 4 >>> 4) <<< 4) ((ws.trunc (~~~v) >>> 4).extractLsb' 0 4) = (v >>> 4) <<< 4 := by
  rw [nfixOreg, operandOf_upper_low]
  apply BitVec.eq_of_toNat_eq
  rw [toNat_upper, WordSize.toNat_trunc, BitVec.toNat_shiftLeft, BitVec.toNat_not, toNat_shiftDigit,
    WordSize.toNat_trunc, BitVec.toNat_not, Nat.shiftLeft_eq]
  cases ws <;> simp only [WordSize.bits] at h ⊢ <;> omega

theorem upper_eq_zero {v : Word} (h : v.toNat < 16) : (v >>> 4) <<< 4 = 0 :=
  BitVec.eq_of_toNat_eq <| by rw [toNat_upper, Nat.div_eq_of_lt h]; rfl

/-- A word that is not negative is a word of W bits. -/
theorem toNat_lt_of_nonneg {ws : WordSize} {v : Word} (h : v.toNat < 2 ^ (ws.bits - 1)) : v.toNat < 2 ^ ws.bits :=
  h.trans_le (Nat.pow_le_pow_right (by decide) (Nat.sub_le _ _))

theorem not_isNegative {ws : WordSize} {v : Word} (h : v.toNat < 2 ^ (ws.bits - 1)) : ¬ isNegative ws v = true := by
  rw [isNegative_iff (toNat_lt_of_nonneg h)]
  omega

/-- One digit needs no prefix (R101). -/
theorem encodeOperand_digit {ws : WordSize} (n : Nat) (f : Nibble) {v : Word} (nonneg : v.toNat < 2 ^ (ws.bits - 1))
    (small : v.toNat < 16) : encodeOperand ws (n + 1) f v = [instrByte f (v.extractLsb' 0 4)] := by
  rw [encodeOperand, if_neg (not_isNegative nonneg), if_pos small]

/-- More digits are those of a `pfix` and the last (R101). -/
theorem encodeOperand_pfix {ws : WordSize} (n : Nat) (f : Nibble) {v : Word} (nonneg : v.toNat < 2 ^ (ws.bits - 1))
    (large : ¬ v.toNat < 16) :
    encodeOperand ws (n + 1) f v = encodeOperand ws n 0x2 (v >>> 4) ++ [instrByte f (v.extractLsb' 0 4)] := by
  rw [encodeOperand, if_neg (not_isNegative nonneg), if_neg large]

/-- The upper digits of a negative word are the complement's of an `nfix` (R101). -/
theorem encodeOperand_nfix {ws : WordSize} (n : Nat) (f : Nibble) {v : Word} (neg : isNegative ws v = true) :
    encodeOperand ws (n + 1) f v
      = encodeOperand ws n 0x6 (ws.trunc (~~~v) >>> 4) ++ [instrByte f (v.extractLsb' 0 4)] := by
  rw [encodeOperand, if_pos neg]

/-- The canonical code of a word that is not negative leaves its upper digits in Oreg at the final byte (R94, R101). -/
theorem assemble_encodeOperand_of_nonneg {ws : WordSize} {n : Nat} (f : Nibble) {v : Word} (rest : List Byte)
    (nonneg : v.toNat < 2 ^ (ws.bits - 1)) (digits : v.toNat < 16 ^ (n + 1)) :
    assemble ws 0 (encodeOperand ws (n + 1) f v ++ rest)
      = assemble ws ((v >>> 4) <<< 4) (instrByte f (v.extractLsb' 0 4) :: rest) := by
  induction n generalizing f v rest with
  | zero =>
    rw [encodeOperand_digit 0 f nonneg digits, upper_eq_zero digits]
    rfl
  | succ n ih =>
    by_cases small : v.toNat < 16
    · rw [encodeOperand_digit _ f nonneg small, upper_eq_zero small]
      rfl
    · have shifted := toNat_shiftDigit v
      rw [encodeOperand_pfix _ f nonneg small, List.append_assoc, ih 0x2 _ (by omega) (by omega), assemble_pfix,
        pfixOreg_upper_low (toNat_lt_of_nonneg nonneg)]
      rfl

/-- The complement of a negative word has one digit less than a word of W bits, once its last one is shifted out. -/
theorem toNat_complement_shiftDigit {ws : WordSize} {v : Word} (h : v.toNat < 2 ^ ws.bits)
    (neg : isNegative ws v = true) :
    (ws.trunc (~~~v) >>> 4).toNat < 2 ^ (ws.bits - 1) ∧ (ws.trunc (~~~v) >>> 4).toNat < 16 ^ (2 * ws.bytes - 1) := by
  rw [isNegative_iff h] at neg
  rw [toNat_shiftDigit, WordSize.toNat_trunc, BitVec.toNat_not]
  cases ws <;> simp only [WordSize.bits, WordSize.bytes] at h neg ⊢ <;> omega

/-- The canonical code of any word leaves its upper digits in Oreg at the final byte (R94, R96, R101). -/
theorem assemble_canonicalCode {ws : WordSize} (f : Nibble) {v : Word} (h : v.toNat < 2 ^ ws.bits) :
    assemble ws 0 (canonicalCode ws f v) = assemble ws ((v >>> 4) <<< 4) [instrByte f (v.extractLsb' 0 4)] := by
  obtain ⟨n, fuel⟩ : ∃ n, 2 * ws.bytes = n + 2 := by cases ws <;> exact ⟨_, rfl⟩
  rw [canonicalCode, fuel]
  by_cases neg : isNegative ws v = true
  · obtain ⟨nonneg, digits⟩ := toNat_complement_shiftDigit h neg
    rw [fuel] at digits
    rw [encodeOperand_nfix _ f neg, assemble_encodeOperand_of_nonneg 0x6 _ nonneg digits, assemble_nfix,
      nfixOreg_upper_low h]
  · rw [isNegative_iff h, not_le] at neg
    have digits : v.toNat < 16 ^ (n + 1 + 1) := by
      rw [← fuel]
      cases ws <;> exact h
    rw [← List.append_nil (encodeOperand _ _ _ _), assemble_encodeOperand_of_nonneg f [] neg digits]

/-- Settles O4: the upper digits that the prefixes leave in Oreg and the data of the final byte are the operand. -/
theorem canonicalCodeCarriesItsOperand : Obligations.CanonicalCodeCarriesItsOperand := by
  intro ws f v hp hn hv
  rw [assemble_canonicalCode f (toNat_lt_of_inWord hv), assemble_final ws _ _ _ hp hn, operandOf_upper_low]

/-! ### The step of an instruction -/

theorem State.fetch_of_decodeByte {s : State} {i : Instr} (fresh : (s.cfg.wordSize.trunc s.iPtr).toNat ∉ s.written)
    (there : memKind s.cfg (s.cfg.wordSize.trunc s.iPtr) ≠ none)
    (h : decodeByte (s.cfg.wordSize.trunc s.oreg) (s.mem.read (s.cfg.wordSize.trunc s.iPtr).toNat) = .ok i) :
    s.fetch = .ok i := by
  simp only [State.fetch, State.fetchByte_of_there fresh there, h]

/-- Settles O7: the fetch finds the instruction, in the CPU's turn as in the machine's own step. -/
theorem stepRunsTheDecodedInstruction : Obligations.StepRunsTheDecodedInstruction := by
  intro s i rest hc ho fresh there h
  have found := State.fetch_of_decodeByte fresh there h
  constructor
  · intro ht
    rw [step_run ho ht hc, cpuStep_exec hc found]
  · intro ht
    rw [step_turn ho ht]
    exact cpuStep_exec (s := { s with turns := rest }) hc found

/-- The prefix of a two-byte memory code is a `pfix` that leaves in Oreg what the operation's final byte needs. -/
theorem pfix_of_leadingBytes_singleton {i : Instr} {p : Byte} (ws : WordSize) (h : leadingBytes i = [p]) :
    p = instrByte 0x2 (dataOf p) ∧ i.wellFormedAt (pfixOreg ws 0 (dataOf p)) = true := by
  cases i <;> cases h
  all_goals exact ⟨rfl, by cases ws <;> rfl⟩

/-- A byte that stands in memory, with nothing written ahead of fetch, is executed as the instruction it decodes to. -/
theorem step_exec {s : State} {i : Instr} (ht : s.turns = []) (hc : s.control = .run) (ho : s.oneProcess = true)
    (fresh : s.written = []) (hi : inWord s.cfg.wordSize s.iPtr = true) (hr : inWord s.cfg.wordSize s.oreg = true)
    (there : memKind s.cfg s.iPtr ≠ none) (h : decodeByte s.oreg (s.mem.read s.iPtr.toNat) = .ok i) :
    step s = exec i s := by
  refine (stepRunsTheDecodedInstruction s i [] hc ho ?_ ?_ ?_).1 ht
  · simp [fresh]
  · rwa [trunc_of_inWord hi]
  · rwa [trunc_of_inWord hi, trunc_of_inWord hr]

theorem run_one (s : State) : Host.Core.run Sys2Proof.core 1 s = step s := by
  have same : Sys2Proof.core.step s = step s := rfl
  cases h : step s <;> simp only [Host.Core.run, same.trans h] <;> rfl

/-- Settles O9: the first step is the `pfix` of the first byte, and the second finds the operation under the Oreg that it
left. -/
theorem twoByteMemoryCodeRunsItsOperation : Obligations.TwoByteMemoryCodeRunsItsOperation := by
  intro s i p hp ht hc ho hr fresh hi there there' first second
  obtain ⟨isPfix, wf⟩ := pfix_of_leadingBytes_singleton s.cfg.wordSize hp
  have prefixStep : step s = .next { s with oreg := pfixOreg s.cfg.wordSize 0 (dataOf p), iPtr := s.nextInst } := by
    rw [step_exec ht hc ho fresh hi (hr ▸ inWord_zero _) there (i := .pfix (dataOf p))]
    · simp only [exec, execPfix, hr, trunc_of_inWord (inWord_zero _)]
    · rw [first, isPfix, dataOf_instrByte]
      exact decodeByte_pfix _ _
  rw [run_succ prefixStep, run_one]
  refine step_exec ht hc ho fresh (inWord_trunc _ _) (inWord_trunc _ _) there' ?_
  rw [second]
  exact finalByteDecodesToItsInstruction _ i wf

/-! ### Prefixes and `opr` -/

/-- Settles O10. -/
theorem prefixesBuildOreg : Obligations.PrefixesBuildOreg := by
  intro d s hr
  refine ⟨decodeByte_pfix _ d, decodeByte_nfix _ d, ?_, ?_⟩
  · simp only [exec, execPfix, trunc_of_inWord hr]
    rfl
  · simp only [exec, execNfix, trunc_of_inWord hr]
    rfl

/-- Settles O11: the operation of a code is the one that has it, and `opr` executes the operation of its operand. -/
theorem oprExecutesTheSelectedOperation : Obligations.OprExecutesTheSelectedOperation := by
  intro d s i hr code
  rw [← State.operand_eq d hr] at code
  rw [exec_opr, operationOf_eq_some.mpr code]

/-- Settles O12. -/
theorem unlistedOperationIsRefused : Obligations.UnlistedOperationIsRefused := by
  intro d s hr unlisted
  rw [← State.operand_eq d hr] at unlisted ⊢
  rw [exec_opr, operationOf_eq_none unlisted]

/-- Settles O13: each code is that of one of the operations, whose next state is its meaning written out. -/
theorem oprCompletesOnTheRegisterOperations : Obligations.OprCompletesOnTheRegisterOperations := by
  intro d s hr code pushed popped
  have selected : ∀ i : Instr, i.operationCode = some code → exec (.opr d) s = exec i s :=
    fun i => oprExecutesTheSelectedOperation d s i hr
  exact ⟨fun h => selected .testldd (h ▸ rfl), fun h => selected .testlde (h ▸ rfl),
    fun h => selected .testlds (h ▸ rfl), fun h => selected .mint (h ▸ rfl),
    fun h => selected .teststd (h ▸ rfl), fun h => selected .testste (h ▸ rfl)⟩

/-! ### What is left in Oreg -/

/-- Oreg is clear, or `start` has begun its Link phase with Oreg as it was, to clear it at that phase's end (R97, R120). -/
def State.OregSettled (s t : State) : Prop := t.oreg = 0 ∨ t.oreg = s.oreg ∧ t.control ≠ .run

/-- Oreg is clear, or as it was, and as it was only where the processor has not begun to run. -/
def State.OregKept (s t : State) : Prop := t.oreg = 0 ∨ t.oreg = s.oreg ∧ (t.control = .run → s.control = .run)

theorem State.OregSettled.kept {s t : State} (h : s.OregSettled t) : s.OregKept t :=
  h.imp_right fun ⟨same, held⟩ => ⟨same, fun run => absurd run held⟩

theorem State.oregKept_of_eq {s t : State} (oreg : t.oreg = s.oreg) (control : t.control = s.control) :
    s.OregKept t :=
  .inr ⟨oreg, fun run => control ▸ run⟩

theorem State.oregSettled_beginStart (s : State) : s.OregSettled s.beginStart := by
  rcases s.beginStart_cases with e | e <;> rw [e]
  · exact .inl rfl
  · exact .inr ⟨rfl, nofun⟩

/-- An instruction that is neither a prefix nor `opr` clears Oreg, `start` at the end of its Link phase if it has one
(R97). -/
theorem exec_oregSettled {i : Instr} {s t : State} (hopr : ∀ d, i ≠ .opr d) (hp : ∀ d, i ≠ .pfix d)
    (hn : ∀ d, i ≠ .nfix d) (e : exec i s = .next t) : s.OregSettled t := by
  cases i with
  | start => exact exec_start e ▸ State.oregSettled_beginStart _
  | opr d => exact absurd rfl (hopr d)
  | pfix d => exact absurd rfl (hp d)
  | nfix d => exact absurd rfl (hn d)
  | testhardchan =>
    simp only [exec, execTesthardchan] at e
    split at e
    · cases e
    · split at e <;> cases e
      exact .inl rfl
  | teststs =>
    simp only [exec, execTeststs] at e
    split at e <;> cases e
    exact .inl rfl
  | j d =>
    simp only [exec, execJ] at e
    split at e <;> cases e
    exact .inl rfl
  | stl d =>
    obtain ⟨u, -, rfl⟩ := exec_stl_eq_next.mp e
    exact .inl rfl
  | _ => cases e; exact .inl rfl

/-- In the Link phase of `start` the CPU leaves Oreg, up to the phase's end, which clears it (R120). -/
theorem BootMove.oregSettled {s t : State} {b : Boot} (m : BootMove s b t) : s.OregSettled t := by
  cases m with
  | word => exact .inr ⟨rfl, nofun⟩
  | message => exact .inr ⟨rfl, nofun⟩
  | pokeAddress => exact .inr ⟨rfl, nofun⟩
  | peekAddress => exact .inr ⟨rfl, nofun⟩
  | pokeData k a u phase store =>
    obtain ⟨x, -, -, rfl⟩ := State.storeWord_eq_ok.mp store
    exact .inr ⟨rfl, nofun⟩
  | peekDone => exact .inr ⟨rfl, nofun⟩
  | booted k length => exact .inl (congrArg State.oreg (s.finishBoot_spec b k length).1 :)

theorem ChannelMove.oregKept {s t : State} {ch : ChannelId} (m : ChannelMove s ch t) : s.OregKept t :=
  State.oregKept_of_eq (congrArg State.oreg m.state :) (congrArg State.control m.state :)

theorem State.oregKept_byteLands (s : State) (k : Link) (v : Byte) : s.OregKept (s.byteLands k v) := by
  rw [State.byteLands_eq]
  exact State.oregKept_of_eq rfl rfl

theorem State.oregKept_resetGoesLow (s : State) : s.OregKept s.resetGoesLow := by
  have started := (State.oregSettled_beginStart { s with pins := { s.pins with reset := false } }).kept
  unfold State.resetGoesLow
  dsimp only
  split
  · split
    · exact .inr ⟨rfl, nofun⟩
    · exact started
  · exact started

theorem State.oregKept_analyseGoesHigh (s : State) : s.OregKept s.analyseGoesHigh := by
  unfold State.analyseGoesHigh
  dsimp only
  split
  · exact .inr ⟨rfl, nofun⟩
  · exact .inr ⟨rfl, nofun⟩
  · exact State.oregKept_of_eq rfl rfl

theorem State.oregKept_analyseGoesLow {s t : State} (e : s.analyseGoesLow = .ok t) : s.OregKept t := by
  unfold State.analyseGoesLow at e
  dsimp only at e
  split at e <;> cases e
  · exact (State.oregSettled_beginStart { s with pins := { s.pins with analyse := false } }).kept
  · exact State.oregKept_of_eq rfl rfl

/-- No action of the host writes Oreg but by the `start` that it forces (R270, R273). -/
theorem hostStep_oregKept {s t : State} {a : HostAction} (e : hostStep a s = .ok t) : s.OregKept t := by
  have same : s.OregKept s := State.oregKept_of_eq rfl rfl
  cases a with
  | linkShift k =>
    simp only [hostStep, State.byteBegins] at e
    split at e
    · cases e; exact same
    · split at e <;> cases e
      exact State.oregKept_of_eq rfl rfl
  | linkByte k v =>
    simp only [hostStep, State.byteArrives] at e
    split at e
    · split at e <;> cases e
      · exact s.oregKept_byteLands k v
      · exact State.oregKept_of_eq rfl rfl
    · split at e <;> cases e
      exact s.oregKept_byteLands k v
  | linkAccept k x => cases e; exact State.oregKept_of_eq rfl rfl
  | linkTake k => cases e; exact State.oregKept_of_eq rfl rfl
  | resetHigh =>
    simp only [hostStep] at e
    split at e <;> cases e
    · exact same
    · exact .inr ⟨rfl, nofun⟩
  | resetLow =>
    simp only [hostStep] at e
    split at e <;> cases e
    · exact s.oregKept_resetGoesLow
    · exact same
  | analyseHigh =>
    simp only [hostStep] at e
    split at e <;> cases e
    · exact same
    · exact s.oregKept_analyseGoesHigh
  | analyseLow =>
    simp only [hostStep] at e
    split at e
    · exact State.oregKept_analyseGoesLow e
    · cases e; exact same
  | bootFromRom level => cases e; exact State.oregKept_of_eq rfl rfl

/-- The digit that a prefix shifts in is clear (R94, R96). -/
theorem trunc_shiftLeft_and_low (ws : WordSize) (v : Word) : ws.trunc (v <<< 4) &&& 0xF = 0 := by
  have low : ws.mask &&& 0xF = 0xF := by cases ws <;> rfl
  rw [WordSize.trunc, BitVec.and_assoc, low]
  apply BitVec.eq_of_toNat_eq
  rw [BitVec.toNat_and, BitVec.toNat_shiftLeft, Nat.shiftLeft_eq]
  exact (Nat.and_two_pow_sub_one_eq_mod _ 4).trans (show _ % 2 ^ 4 = 0 by omega)

/-- What a step does to Oreg: an instruction that the running processor executes can leave there any word with a clear low
digit. -/
def State.OregStepped (s t : State) : Prop := s.OregKept t ∨ s.control = .run ∧ t.oreg &&& 0xF = 0

theorem exec_oregStepped {i : Instr} {s t : State} (run : s.control = .run) (e : exec i s = .next t) :
    s.OregStepped t := by
  obtain ⟨op, -, hopr, e⟩ := exec_selects e
  by_cases hp : ∃ d, op = .pfix d
  · obtain ⟨d, rfl⟩ := hp
    cases e
    exact .inr ⟨run, trunc_shiftLeft_and_low _ _⟩
  by_cases hn : ∃ d, op = .nfix d
  · obtain ⟨d, rfl⟩ := hn
    cases e
    exact .inr ⟨run, trunc_shiftLeft_and_low _ _⟩
  · exact .inl (exec_oregSettled hopr (not_exists.mp hp) (not_exists.mp hn) e).kept

theorem cpuStep_oregStepped {s t : State} (e : cpuStep s = .next t) : s.OregStepped t := by
  rcases cpuStep_cases e with rfl | ⟨run, i, -, he⟩ | ⟨b, -, -, m⟩
  · exact .inl (State.oregKept_of_eq rfl rfl)
  · exact exec_oregStepped run he
  · exact .inl m.oregSettled.kept

theorem ownStep_oregStepped {s t : State} (e : ownStep s = .next t) : s.OregStepped t := by
  rcases ownStep_cases e with ⟨ch, -, hc⟩ | ⟨-, hc⟩
  · exact .inl (channelStep_move hc).oregKept
  · exact cpuStep_oregStepped hc

theorem step_oregStepped {s t : State} (e : step s = .next t) : s.OregStepped t := by
  obtain ⟨-, ⟨-, e⟩ | ⟨rest, -, e⟩ | ⟨ch, rest, -, e⟩ | ⟨a, rest, -, e⟩⟩ := step_cases e
  · exact ownStep_oregStepped e
  · exact cpuStep_oregStepped (s := { s with turns := rest }) e
  · exact .inl (channelStep_move e).oregKept
  · exact .inl (hostStep_oregKept (s := { s with turns := rest }) e)

/-- Settles O54: a step leaves Oreg, clears it, or shifts a clear digit in. -/
theorem stepKeepsTheLowDigitOfOregClear : Obligations.StepKeepsTheLowDigitOfOregClear := by
  intro s t clear e
  rcases step_oregStepped e with (zero | ⟨same, -⟩) | ⟨-, shifted⟩
  · rw [zero]; rfl
  · rwa [same]
  · exact shifted

/-- Settles O55: where no prefix is executed a processor that runs has cleared Oreg, or ran with it before. -/
theorem completedInstructionClearsOreg : Obligations.CompletedInstructionClearsOreg := by
  constructor
  · intro i s t hp hn _ e run
    obtain ⟨op, sel, hopr, e⟩ := exec_selects e
    rcases exec_oregSettled hopr (fun d => sel.ne_function rfl (hp d)) (fun d => sel.ne_function rfl (hn d)) e with
      zero | ⟨-, held⟩
    · exact zero
    · exact absurd run held
  · intro s t b hb e run
    have notRun : s.control ≠ .run := by rw [hb]; nofun
    rcases step_oregStepped e with (zero | ⟨-, ran⟩) | ⟨ran, -⟩
    · exact zero
    · exact absurd (ran run) notRun
    · exact absurd ran notRun

end Sys2Proof.Machine

/-! PROOFS. The statements of 40_start.md: the ROM branch and its entry (O32, O23), where `start` is refused (O34) and where
it waits (O35, O39), the poll (O40), the Link branch (O36 to O38), and First Free Word (O41). -/

namespace Sys2Proof.Machine

/-! ### The ROM branch -/

/-- `start` where no channel is active (R120, R123). -/
theorem exec_start_of_idle {s : State} (ha : s.anyActive = false) :
    exec .start s = .next ({ s with iPtr := s.nextInst } : State).beginStart :=
  if_neg (ne_true_of_eq_false ha)

/-- Settles O32: the boot from ROM, after the first effects of `start`. -/
theorem startBootsFromRom : Obligations.StartBootsFromRom := by
  intro s ha hboot
  have rom := (exec_start_of_idle ha).trans (congrArg _ (State.beginStart_of_rom hboot))
  exact ⟨_, rom, rfl, rfl, rfl⟩

/-- With Oreg's low digit clear, the operand is Oreg and the data field side by side (R97). -/
theorem toNat_operandOf {oreg : Word} (d : Nibble) (clear : oreg &&& 0xF = 0) :
    (operandOf oreg d).toNat = oreg.toNat + d.toNat := by
  have low : oreg.toNat % 2 ^ 4 = 0 := by
    rw [← Nat.and_two_pow_sub_one_eq_mod]
    exact congrArg BitVec.toNat clear
  obtain ⟨upper, hu⟩ := Nat.dvd_of_mod_eq_zero low
  rw [operandOf, BitVec.toNat_or, BitVec.toNat_setWidth, Nat.mod_eq_of_lt (by omega), hu,
    ← Nat.two_pow_add_eq_or_of_lt d.isLt]

/-- `nfix` from a clear Oreg leaves the upper digits of a small negative operand (R96). -/
theorem toNat_nfixOreg_zero (ws : WordSize) (d : Nibble) :
    (nfixOreg ws (ws.trunc 0) d).toNat = 2 ^ ws.bits - 16 * (d.toNat + 1) := by
  have zero : (0 : Word).toNat = 0 := rfl
  rw [nfixOreg, trunc_of_inWord (inWord_zero ws), WordSize.toNat_trunc, BitVec.toNat_shiftLeft, BitVec.toNat_not,
    toNat_operandOf d rfl, Nat.shiftLeft_eq, zero]
  cases ws <;> simp only [WordSize.bits] <;> omega

theorem WordSize.two_pow_16_le (ws : WordSize) : 2 ^ 16 ≤ 2 ^ ws.bits := by cases ws <;> decide

theorem WordSize.toNat_minInt (ws : WordSize) : ws.minInt.toNat = 2 ^ (ws.bits - 1) := by cases ws <;> rfl

theorem WordSize.toNat_maxInt (ws : WordSize) : ws.maxInt.toNat = 2 ^ (ws.bits - 1) - 1 := by cases ws <;> rfl

/-- MaxInt is the highest address and MinInt, after it, the lowest (R7, R28). -/
theorem WordSize.trunc_maxInt_add_one (ws : WordSize) : ws.trunc (ws.maxInt + 1) = ws.minInt := by cases ws <;> rfl

/-- A small negative operand from MinInt leads into the top of memory (R28, R126). -/
theorem toNat_minInt_add_negative (ws : WordSize) (x y : Nibble) {v : Word}
    (hv : v.toNat = 2 ^ ws.bits - 16 * (x.toNat + 1) + y.toNat) :
    (ws.trunc (ws.minInt + v)).toNat = ws.maxInt.toNat - 255 + (16 * (15 - x.toNat) + y.toNat) := by
  rw [WordSize.toNat_trunc_add, hv, WordSize.toNat_minInt, WordSize.toNat_maxInt]
  cases ws <;> simp only [WordSize.bits] <;> omega

/-- Settles O23: the operand is negative, so `j` is no breakpoint, and from MinInt, the byte after the highest address, it
goes back at most 256 bytes. -/
theorem romEntryJumpsIntoTheTopOfMemory : Obligations.RomEntryJumpsIntoTheTopOfMemory := by
  intro x y s hreset hiPtr horeg
  let t : State := { s with oreg := nfixOreg s.cfg.wordSize (s.cfg.wordSize.trunc s.oreg) x, iPtr := s.nextInst }
  have top : t.iPtr = s.cfg.wordSize.maxInt := by
    show s.cfg.wordSize.trunc (s.iPtr + 1) = _
    rw [hiPtr, hreset]
    cases s.cfg.wordSize <;> rfl
  have next : t.nextInst = s.cfg.wordSize.minInt := by
    rw [State.nextInst, top]
    exact WordSize.trunc_maxInt_add_one _
  have operand : (t.operand y).toNat = 2 ^ s.cfg.wordSize.bits - 16 * (x.toNat + 1) + y.toNat := by
    have oreg : t.oreg = nfixOreg s.cfg.wordSize (s.cfg.wordSize.trunc 0) x := by rw [← horeg]
    have isWord : inWord t.cfg.wordSize t.oreg = true := inWord_trunc _ _
    have clear : t.oreg &&& 0xF = 0 := trunc_shiftLeft_and_low _ _
    rw [State.operand, trunc_of_inWord isWord, toNat_operandOf y clear, oreg, toNat_nfixOreg_zero]
  have nonzero : t.operand y ≠ 0 := by
    intro h
    have zero : (t.operand y).toNat = 0 := congrArg BitVec.toNat h
    have large := WordSize.two_pow_16_le s.cfg.wordSize
    omega
  have target := toNat_minInt_add_negative s.cfg.wordSize x y operand
  refine ⟨t, _, rfl, top, exec_j fun h => nonzero h.1, ?_⟩
  rw [State.jumpTo_iPtr, next, target, WordSize.toNat_minInt, WordSize.toNat_maxInt]
  cases s.cfg.wordSize <;> simp only [WordSize.bits] <;> omega

/-! ### Where `start` is refused, and where it waits -/

/-- Settles O34. -/
theorem startWhileALinkIsActiveIsRefused : Obligations.StartWhileALinkIsActiveIsRefused := by
  intro s ch active
  have any : s.anyActive = true := List.any_eq_true.mpr ⟨ch, mem_allChannels ch, active⟩
  exact if_pos any

/-- Settles O35: the Link phase begun, where the poll finds nothing. -/
theorem startWaitsForTheHost : Obligations.StartWaitsForTheHost := by
  intro s ha hboot none ht
  exact ⟨s.linkBegun, _, execStart_link ha hboot, rfl, rfl, rfl, step_poll_wait (State.linkBegun_polls ha) ht none⟩

/-- An output channel waits while the host does not accept (R131, log 29). -/
theorem State.sendByte_of_not_accepting {s : State} {k : Link} (h : (s.link k).accepting = false) :
    s.sendByte k = .ok s :=
  if_neg (ne_true_of_eq_false h)

/-- Settles O39: the step is that of the output channel, which waits. -/
theorem peekWaitsForTheHostToAccept : Obligations.PeekWaitsForTheHostToAccept := by
  intro s b k one hc hphase busy fresh ht ha
  have released : s.control.released = true := by rw [hc]; rfl
  have own : b.phase.channel = some ⟨k, .out⟩ := by rw [hphase]; rfl
  rw [step_channel one ht hc own busy, channelStep_out released busy fresh, State.sendByte_of_not_accepting ha]
  rfl

/-- Settles O40. -/
theorem pollFindsALinkWithAByte : Obligations.PollFindsALinkWithAByte :=
  fun _ => ⟨fun _ _ => State.pollLinkInputs_eq_some, State.pollLinkInputs_eq_none⟩

/-! ### Runs of the Link phase, message by message -/

/-- What stays as it was throughout the Link phase of `start`: all but its phase, memory, the Links and the count of free
values. -/
def State.BootFrame (s t : State) : Prop :=
  t = { s with control := t.control, mem := t.mem, links := t.links, draws := t.draws }

theorem State.BootFrame.trans {s t u : State} (h : s.BootFrame t) (g : t.BootFrame u) : s.BootFrame u := by
  unfold State.BootFrame at *
  rw [h] at g
  exact g

/-- The Link phase that was at the poll in `s`, where the CPU takes it up again in `t`: at `b`, with every message complete
and `waiting` the bytes still to come on Link `k`, the only one that holds bytes. -/
structure State.Resumes (s t : State) (b : Boot) (k : Link) (waiting : List Byte) : Prop where
  frame     : s.BootFrame t
  control   : t.control = .boot b
  idle      : ∀ ch, (t.channel ch).transfer = .idle
  shifting  : ∀ ch, (t.channel ch).shifting = (s.channel ch).shifting
  fresh     : (t.channel ⟨k, .inp⟩).pushed = false
  fromHost  : ∀ j, (t.link j).fromHost = if j = k then waiting else []
  accepting : ∀ j, (t.link j).accepting = (s.link j).accepting

namespace State.Resumes

variable {s t : State} {b b₀ : Boot} {k : Link} {waiting : List Byte}

theorem cfg (h : s.Resumes t b k waiting) : t.cfg = s.cfg := (congrArg State.cfg h.frame :)

theorem turns (h : s.Resumes t b k waiting) : t.turns = s.turns := (congrArg State.turns h.frame :)

theorem waitingFor (h : s.Resumes t b k waiting) : t.waitingFor = none :=
  State.waitingFor_eq_none.mpr fun _ _ ch _ => h.idle ch

theorem oneProcess (h : s.Resumes t b k waiting) (hp : s.Polls b₀) : t.oneProcess = true := by
  obtain ⟨high, low, -⟩ := State.oneProcess_iff.mp hp.oneProcess
  exact State.oneProcess_of_idle ((congrArg State.timerAlarmHigh h.frame :).trans high)
    ((congrArg State.timerAlarmLow h.frame :).trans low) h.idle

theorem polls (h : s.Resumes t b k waiting) (hp : s.Polls b₀) (poll : b.phase = .poll) : t.Polls b :=
  ⟨h.control, poll, h.oneProcess hp⟩

theorem active (h : s.Resumes t b k waiting) (hp : s.Polls b₀) (ch : ChannelId) :
    (t.channel ch).active = (s.channel ch).active := by
  rw [Channel.active, Channel.active, h.idle, hp.idle, h.shifting]

/-- The next step is the CPU's. -/
theorem step (h : s.Resumes t b k waiting) (hp : s.Polls b₀) (ht : s.turns = []) :
    Machine.step t = outcome (t.startStep b) :=
  step_boot (h.oneProcess hp) (h.turns.trans ht) h.control h.waitingFor

end State.Resumes

/-- The poll has taken the first byte (R128). -/
theorem State.Polls.resumes_afterByte {s : State} {b : Boot} {k : Link} {v : Byte} {rest : List Byte} (hp : s.Polls b)
    (hh : s.Hears k (v :: rest)) : s.Resumes (s.afterByte k rest) b k rest where
  frame := rfl
  control := hp.control
  idle ch := by rw [State.channel_afterByte, hp.idle]
  shifting ch := by rw [State.channel_afterByte]
  fresh := by rw [State.channel_afterByte, hh.fresh]
  fromHost j := by
    rw [State.fromHost_afterByte]
    split
    · rfl
    · next hj => exact hh.others j hj
  accepting j := State.accepting_afterByte _ _ _ _

/-- A message enabled on the input channel of Link `k`, whose bytes have all arrived, received: a step of the channel for
each byte (R42 to R45, R71). -/
theorem run_inputs {s w : State} {b₀ b₁ b : Boot} {k : Link} {phase : BootPhase} {x : Transfer} {p : Word}
    {bs rest : List Byte} (n : Nat) (hp : s.Polls b₀) (ht : s.turns = []) (hw : s.Resumes w b₁ k (bs ++ rest))
    (own : phase.channel = some ⟨k, .inp⟩) (hx : x ≠ .idle) (hne : bs ≠ []) (hlen : bs.length < 2 ^ 16)
    (ram : x = .memory → ∀ a ∈ addressSpan s.cfg.wordSize bs.length p, memKind s.cfg a = some .ram) :
    ∃ t : State, Host.Core.run Sys2Proof.core (n + bs.length) ((w.enable ⟨k, .inp⟩ x bs.length p).bootAt b phase)
          = Host.Core.run Sys2Proof.core n t
      ∧ s.Resumes t { b with phase := phase } k rest
      ∧ t.mem = messageMemory x s.cfg.wordSize w.mem p bs
      ∧ (bs.length = s.cfg.wordSize.bytes → (t.channel ⟨k, .inp⟩).dbuff = valueOf bs)
      ∧ (∀ ch, ch ≠ ⟨k, .inp⟩ → t.channel ch = w.channel ch)
      ∧ ∀ j, (t.link j).toHost = (w.link j).toHost := by
  rw [← hw.cfg] at ram ⊢
  let u : State := (w.enable ⟨k, .inp⟩ x bs.length p).bootAt b phase
  have others : ∀ ch, ch ≠ ⟨k, .inp⟩ → u.channel ch = w.channel ch := fun ch => State.channel_setChannel_other _ _
  have frame : s.BootFrame u := hw.frame.trans rfl
  have one : u.oneProcess = true := hp.oneProcess_of frame own fun ch hch => by rw [others ch hch, hw.idle, hp.idle]
  have bytes : (u.link k).fromHost = bs ++ rest := by
    rw [State.link_bootAt, State.enable, State.fromHost_setChannel, hw.fromHost, if_pos rfl]
  have positive : 0 < w.cfg.wordSize.bytes := by cases w.cfg.wordSize <;> decide
  obtain ⟨d, run, idle, shifting, fresh, -, dbuff⟩ := run_receives k rest bs [] n u { b with phase := phase }
    ((w.channel ⟨k, .inp⟩).enable w.cfg.wordSize x bs.length p) (State.channel_setChannel_same _ _ _) one
    (hw.turns.trans ht) rfl own hx hw.fresh rfl hne hlen rfl positive rfl bytes ram
  refine ⟨_, run, ⟨frame.trans rfl, rfl, fun ch => ?_, fun ch => ?_, ?_, fun j => ?_, fun j => ?_⟩, rfl, ?_, ?_, ?_⟩
  · by_cases h : ch = ⟨k, .inp⟩
    · rw [h, State.channel_received_same, idle]
    · rw [State.channel_received_other _ _ _ _ _ h, others ch h, hw.idle]
  · by_cases h : ch = ⟨k, .inp⟩
    · rw [h, State.channel_received_same, shifting]
      exact hw.shifting _
    · rw [State.channel_received_other _ _ _ _ _ h, others ch h, hw.shifting]
  · rw [State.channel_received_same, fresh]
  · rw [State.fromHost_received]
    split
    · rfl
    · next hj => rw [State.link_bootAt, State.enable, State.fromHost_setChannel, hw.fromHost, if_neg hj]
  · rw [State.accepting_received, State.link_bootAt, State.enable, State.accepting_setChannel, hw.accepting]
  · rw [State.channel_received_same]
    exact dbuff
  · intro ch h
    rw [State.channel_received_other _ _ _ _ _ h, others ch h]
  · intro j
    rw [State.toHost_received, State.link_bootAt, State.enable, State.toHost_setChannel]

/-! ### The CPU's part, phase by phase -/

theorem State.startStep_address {s : State} {b : Boot} {k : Link} {p : Protocol} (hw : s.waitingFor = none)
    (hph : b.phase = .address k p) : s.startStep b = s.addressReceived b k p (s.channel ⟨k, .inp⟩).dbuff := by
  simp [State.startStep, hw, hph]

theorem State.startStep_data {s : State} {b : Boot} {k : Link} {a : Word} (hw : s.waitingFor = none)
    (hph : b.phase = .data k a) : s.startStep b = s.dataReceived b a (s.channel ⟨k, .inp⟩).dbuff := by
  simp [State.startStep, hw, hph]

theorem State.startStep_output {s : State} {b : Boot} {k : Link} (hw : s.waitingFor = none)
    (hph : b.phase = .output k) : s.startStep b = .ok (s.bootAt b .poll) := by
  simp [State.startStep, hw, hph]

theorem State.startStep_code {s : State} {b : Boot} {k : Link} {n : Nat} (hw : s.waitingFor = none)
    (hph : b.phase = .code k n) : s.startStep b = .ok (s.finishBoot b k n) := by
  simp [State.startStep, hw, hph]

/-! ### From `start` itself -/

/-- The Link phase as `start` begins it (R138). -/
def State.newBoot (s : State) : Boot := ⟨.poll, s.inputCounts, ⟨false, false, false, false⟩, ⟨false, false, false, false⟩⟩

theorem State.newBoot_saved (s : State) (k : Link) : s.newBoot.saved.get k = (s.channel ⟨k, .inp⟩).count :=
  PerLink.get_map _ _ k

theorem State.newBoot_usedIn (s : State) (k : Link) : s.newBoot.usedIn.get k = false := by cases k <;> rfl

theorem State.newBoot_usedOut (s : State) (k : Link) : s.newBoot.usedOut.get k = false := by cases k <;> rfl

theorem State.Hears.linkBegun {s : State} {k : Link} {bytes : List Byte} (h : s.Hears k bytes) :
    s.linkBegun.Hears k bytes :=
  ⟨h.turns, h.bytes, h.others, h.fresh⟩

theorem State.anyActive_of_active_eq {s t : State} (ha : s.anyActive = false)
    (h : ∀ ch, (t.channel ch).active = (s.channel ch).active) : t.anyActive = false :=
  State.anyActive_eq_false.mpr fun ch => (h ch).trans (State.anyActive_eq_false.mp ha ch)

/-! ### A boot message -/

/-- The whole of a boot message from the poll, up to the boot code (R133 to R136). -/
theorem run_bootMessage {u : State} {b : Boot} {k : Link} {n : Byte} {code rest : List Byte} (hp : u.Polls b)
    (hh : u.Hears k (n :: code ++ rest)) (hn : 2 ≤ n.toNat) (hlen : code.length = n.toNat)
    (ram : ∀ a ∈ addressSpan u.cfg.wordSize n.toNat u.cfg.memStart, memKind u.cfg a = some .ram) :
    ∃ t : State, Host.Core.run Sys2Proof.core (n.toNat + 2) u
        = .next (t.finishBoot { b with phase := .code k n.toNat, usedIn := b.usedIn.set k true } k n.toNat)
      ∧ u.Resumes t { b with phase := .code k n.toNat, usedIn := b.usedIn.set k true } k rest
      ∧ t.mem = u.mem.writeBytes (addressSpan u.cfg.wordSize n.toNat u.cfg.memStart) code
      ∧ (∀ ch, ch ≠ ⟨k, .inp⟩ → t.channel ch = u.channel ch)
      ∧ ∀ j, (t.link j).toHost = (u.link j).toHost := by
  have polled := hp.resumes_afterByte hh
  have first := step_poll hp hh (State.firstByte_eq_ok.mpr ⟨polled.fresh, .inr ⟨hn, rfl⟩⟩)
  obtain ⟨t, run, done, mem, -, others, toHost⟩ := run_inputs (b := { b with usedIn := b.usedIn.set k true })
    (phase := .code k code.length) (x := .memory) (p := u.cfg.memStart) 1 hp hh.turns polled rfl (by simp)
    (List.ne_nil_of_length_pos (by omega)) (by have := n.isLt; omega) (fun _ => hlen ▸ ram)
  rw [hlen] at run done
  refine ⟨t, ?_, done, ?_, fun ch h => ?_, fun j => ?_⟩
  · rw [show n.toNat + 2 = 1 + n.toNat + 1 by omega, run_succ first]
    refine run.trans ?_
    rw [run_one, done.step hp hh.turns, State.startStep_code done.waitingFor rfl]
    rfl
  · rw [mem, messageMemory, if_pos rfl, hlen]
    rfl
  · rw [others ch h, State.channel_afterByte]
  · rw [toHost, State.toHost_afterByte]

/-- Settles O36: the poll, the bytes of the message and the end of `start`; the poll is where `start` itself begins. -/
theorem startBootsFromALink : Obligations.StartBootsFromALink := by
  unfold Obligations.StartBootsFromALink
  refine (and_iff_left_of_imp fun fromPoll => ?_).mpr ?_
  · intro s k n code rest hwf ha hboot hh hn hlen span ram
    obtain ⟨t, run, bytes, kept, taken, others, links, count, active, channels, frame⟩ :=
      fromPoll s.linkBegun s.newBoot k n code rest (State.linkBegun_polls ha) hh.linkBegun hwf hn hlen ram
    exact ⟨s.linkBegun, t, execStart_link ha hboot, run, bytes, kept, taken, others, links,
      count.trans (s.newBoot_saved k), State.anyActive_of_active_eq ha active,
      fun ch h => channels ch h (fun _ => s.newBoot_usedIn _) (fun _ => s.newBoot_usedOut _), frame⟩
  · intro u b k n code rest hp hh hwf hn hlen span ram
    obtain ⟨t, run, done, mem, others, toHost⟩ := run_bootMessage hp hh hn hlen ram
    obtain ⟨frame, links, count, control, kept⟩ :=
      t.finishBoot_spec { b with phase := .code k n.toNat, usedIn := b.usedIn.set k true } k n.toNat
    generalize t.finishBoot _ k n.toNat = v at *
    have memKept : v.mem = t.mem := (congrArg State.mem frame :)
    have same : t = _ := done.frame
    have fits : n.toNat ≤ 2 ^ u.cfg.wordSize.bits :=
      n.isLt.le.trans ((by decide : 2 ^ 8 ≤ 2 ^ 16).trans (WordSize.two_pow_16_le _))
    refine ⟨v, run, ?_, fun addr h => ?_, ?_, fun j h => ?_, fun j => ?_, count, fun ch => ?_, fun ch h hi ho => ?_, ?_⟩
    · rw [memKept, mem]
      exact Memory.read_writeBytes _ _ hwf (by simp [hlen]) (addressSpan_pairwise _ _ _ fits)
    · rw [memKept, mem, Memory.read_writeBytes_other _ _ hwf _ h]
    · rw [(links k).1, done.fromHost, if_pos rfl]
    · rw [(links j).1, done.fromHost, if_neg h]
    · obtain ⟨-, sent, accepting⟩ := links j
      exact ⟨sent.trans (toHost j), accepting.trans (done.accepting j)⟩
    · rw [(control ch).active_eq, done.active hp]
    · refine (kept ch h (fun hd => ?_) ho).trans (others ch h)
      have other : ch.link ≠ k := fun hk => h (by obtain ⟨j, d⟩ := ch; cases hk; cases hd; rfl)
      exact (PerLink.get_set_other _ _ other).trans (hi hd)
    · rw [same] at frame
      rw [memKept]
      exact frame

/-! ### Pokes and peeks -/

theorem State.Resumes.draw {s t : State} {b : Boot} {k : Link} {waiting : List Byte} (h : s.Resumes t b k waiting) :
    s.Resumes t.draw.2 b k waiting :=
  ⟨h.frame.trans rfl, h.control, h.idle, h.shifting, h.fresh, h.fromHost, h.accepting⟩

/-- The Link phase goes on, after a store or none. -/
theorem State.Resumes.bootAt {s t : State} {b : Boot} {k : Link} {waiting : List Byte} (h : s.Resumes t b k waiting)
    (m : Memory) (phase : BootPhase) :
    s.Resumes (({ t with mem := m } : State).bootAt b phase) { b with phase := phase } k waiting :=
  ⟨h.frame.trans rfl, rfl, h.idle, h.shifting, h.fresh, h.fromHost, h.accepting⟩

/-- The first byte of a poke or a peek and its address, from the poll (R128 to R131). -/
theorem run_protocol {s : State} {b : Boot} {k : Link} {p : Protocol} {v : Byte} {a : Word} {rest : List Byte} (n : Nat)
    (hv : v = match p with | .poke => 0 | .peek => 1) (hp : s.Polls b)
    (hh : s.Hears k (v :: bytesOf s.cfg.wordSize.bytes a ++ rest)) :
    ∃ t : State,
      Host.Core.run Sys2Proof.core (n + s.cfg.wordSize.bytes + 1) s = Host.Core.run Sys2Proof.core n t
      ∧ s.Resumes t { b with phase := .address k p, usedIn := b.usedIn.set k true } k rest
      ∧ t.mem = s.mem
      ∧ t.startStep { b with phase := .address k p, usedIn := b.usedIn.set k true }
        = t.addressReceived { b with phase := .address k p, usedIn := b.usedIn.set k true } k p (s.cfg.wordSize.trunc a)
      ∧ (∀ ch, ch ≠ ⟨k, .inp⟩ → t.channel ch = s.channel ch)
      ∧ ∀ j, (t.link j).toHost = (s.link j).toHost := by
  obtain ⟨t, run, control, one, dbuff, idle, shifting, fresh, others, links, frame⟩ := run_address n hv hp hh
  have mem : t.mem = s.mem := (congrArg State.mem frame :)
  have draws : t.draws = s.draws := (congrArg State.draws frame :)
  have resumes : s.Resumes t { b with phase := .address k p, usedIn := b.usedIn.set k true } k rest := by
    refine ⟨?_, control, fun ch => ?_, fun ch => ?_, fresh, fun j => (links j).1, fun j => (links j).2.2⟩
    · rw [State.BootFrame, mem, draws]
      exact frame
    · by_cases h : ch = ⟨k, .inp⟩
      · rw [h, idle]
      · rw [others ch h, hp.idle]
    · by_cases h : ch = ⟨k, .inp⟩
      · rw [h, shifting]
      · rw [others ch h]
  exact ⟨t, run, resumes, mem, by rw [State.startStep_address resumes.waitingFor rfl, dbuff], others,
    fun j => (links j).2.1⟩

theorem State.dataReceived_of_store {s t : State} {a v : Word} (b : Boot) (h : s.storeWord a v = .ok t) :
    s.dataReceived b a v = .ok (t.bootAt b .poll) := by
  simp only [State.dataReceived, h]

theorem State.addressReceived_peek {s : State} {a v : Word} {k : Link} (b : Boot) (h : s.loadWord a = .ok v)
    (fresh : (s.channel ⟨k, .out⟩).pushed = false) :
    s.addressReceived b k .peek a
      = .ok ((s.enableOutput k v).bootAt { b with usedOut := b.usedOut.set k true } (.output k)) := by
  simp [State.addressReceived, h, fresh]

/-- A peek's word sent to a host that accepts, a step of the channel for each byte (R131). -/
theorem run_outputs {s w : State} {b₀ b₁ b : Boot} {k : Link} {waiting : List Byte} {v : Word} (n : Nat) (hp : s.Polls b₀)
    (ht : s.turns = []) (hw : s.Resumes w b₁ k waiting) (fresh : (w.channel ⟨k, .out⟩).pushed = false)
    (accepts : (s.link k).accepting = true) :
    ∃ t : State, Host.Core.run Sys2Proof.core (n + s.cfg.wordSize.bytes) ((w.enableOutput k v).bootAt b (.output k))
          = Host.Core.run Sys2Proof.core n t
      ∧ s.Resumes t { b with phase := .output k } k waiting
      ∧ t.mem = w.mem
      ∧ (∀ ch, ch ≠ ⟨k, .out⟩ → t.channel ch = w.channel ch)
      ∧ ∀ j, (t.link j).toHost
          = if j = k then (w.link j).toHost ++ bytesOf s.cfg.wordSize.bytes v else (w.link j).toHost := by
  rw [← hw.cfg]
  let u : State := (w.enableOutput k v).bootAt b (.output k)
  have others : ∀ ch, ch ≠ ⟨k, .out⟩ → u.channel ch = w.channel ch := fun ch => State.channel_setChannel_other w.draw.2 _
  have frame : s.BootFrame u := hw.frame.trans rfl
  have one : u.oneProcess = true := hp.oneProcess_of frame rfl fun ch hch => by rw [others ch hch, hw.idle, hp.idle]
  have links : ∀ j, (u.link j).fromHost = (w.link j).fromHost ∧ (u.link j).toHost = (w.link j).toHost
      ∧ (u.link j).accepting = (w.link j).accepting := fun j =>
    ⟨State.fromHost_setChannel w.draw.2 _ _ j, State.toHost_setChannel w.draw.2 _ _ j,
      State.accepting_setChannel w.draw.2 _ _ j⟩
  obtain ⟨d, run, idle, shifting, -⟩ := run_sends k w.cfg.wordSize.bytes 0 n u { b with phase := .output k } _
    (State.channel_setChannel_same w.draw.2 _ _) one (hw.turns.trans ht) rfl rfl rfl fresh rfl
    (by cases w.cfg.wordSize <;> decide) rfl (Nat.zero_add _) (by rw [(links k).2.2, hw.accepting, accepts])
  refine ⟨_, run, ⟨frame.trans rfl, rfl, fun ch => ?_, fun ch => ?_, ?_, fun j => ?_, fun j => ?_⟩, rfl, ?_, ?_⟩
  · by_cases h : ch = ⟨k, .out⟩
    · rw [h, State.channel_sentTo_same, idle]
    · rw [State.channel_sentTo_other _ _ _ _ h, others ch h, hw.idle]
  · by_cases h : ch = ⟨k, .out⟩
    · rw [h, State.channel_sentTo_same, shifting]
      exact hw.shifting _
    · rw [State.channel_sentTo_other _ _ _ _ h, others ch h, hw.shifting]
  · rw [State.channel_sentTo_other _ _ _ _ (by simp), others _ (by simp), hw.fresh]
  · rw [State.fromHost_sentTo, (links j).1, hw.fromHost]
  · rw [State.accepting_sentTo, (links j).2.2, hw.accepting]
  · intro ch h
    rw [State.channel_sentTo_other _ _ _ _ h, others ch h]
  · intro j
    rw [State.toHost_sentTo, (links j).2.1, bytesOf_eq_map, List.range_eq_range']
    rfl

/-- A whole poke from the poll, up to the next poll (R130). -/
theorem run_poke {u : State} {b : Boot} {k : Link} {a v x : Word} (hp : u.Polls b)
    (hh : u.Hears k (0 :: bytesOf u.cfg.wordSize.bytes a ++ bytesOf u.cfg.wordSize.bytes v))
    (hx : alignedAddress u.cfg a = .ok x)
    (ram : ∀ c ∈ addressSpan u.cfg.wordSize u.cfg.wordSize.bytes x, memKind u.cfg c = some .ram) :
    ∃ t : State, Host.Core.run Sys2Proof.core (2 * u.cfg.wordSize.bytes + 3) u = .next t
      ∧ u.Resumes t { b with usedIn := b.usedIn.set k true } k []
      ∧ t.mem = u.mem.writeWord u.cfg.wordSize x (u.cfg.wordSize.trunc v)
      ∧ (∀ ch, ch ≠ ⟨k, .inp⟩ → t.channel ch = u.channel ch)
      ∧ ∀ j, (t.link j).toHost = (u.link j).toHost := by
  obtain ⟨phase, saved, usedIn, usedOut⟩ := b
  obtain rfl : phase = .poll := hp.phase
  have size : 0 < u.cfg.wordSize.bytes ∧ u.cfg.wordSize.bytes < 2 ^ 16 := by cases u.cfg.wordSize <;> decide
  obtain ⟨t₁, run₁, address, mem₁, cpu₁, others₁, toHost₁⟩ :=
    run_protocol (u.cfg.wordSize.bytes + 2) (p := .poke) rfl hp hh
  obtain ⟨t₂, run₂, data, mem₂, dbuff, others₂, toHost₂⟩ := run_inputs (x := .buffered) (p := t₁.draw.1)
    (b := ⟨.address k .poke, saved, usedIn.set k true, usedOut⟩) (phase := .data k (u.cfg.wordSize.trunc a))
    (bs := bytesOf u.cfg.wordSize.bytes v) (rest := []) 1 hp hh.turns (by rw [List.append_nil]; exact address.draw) rfl
    (by simp) (List.ne_nil_of_length_pos (by simpa using size.1)) (by simpa using size.2) nofun
  have mem : t₂.mem = u.mem := mem₂.trans mem₁
  have store : t₂.storeWord (u.cfg.wordSize.trunc a) (t₂.channel ⟨k, .inp⟩).dbuff
      = .ok { t₂ with mem := u.mem.writeWord u.cfg.wordSize x (u.cfg.wordSize.trunc v) } := by
    rw [State.storeWord_eq_ok, data.cfg, dbuff (by simp), valueOf_bytesOf, alignedAddress_trunc, mem]
    exact ⟨x, hx, ram, rfl⟩
  have enabled : step t₁ = .next ((t₁.draw.2.enable ⟨k, .inp⟩ .buffered u.cfg.wordSize.bytes t₁.draw.1).bootAt
      ⟨.address k .poke, saved, usedIn.set k true, usedOut⟩ (.data k (u.cfg.wordSize.trunc a))) := by
    rw [address.step hp hh.turns, cpu₁, ← address.cfg]
    rfl
  rw [bytesOf_length] at run₂
  refine ⟨_, ?_, data.bootAt (u.mem.writeWord u.cfg.wordSize x (u.cfg.wordSize.trunc v)) .poll, rfl,
    fun ch h => (others₂ ch h).trans (others₁ ch h), fun j => (toHost₂ j).trans (toHost₁ j)⟩
  calc Host.Core.run Sys2Proof.core (2 * u.cfg.wordSize.bytes + 3) u
      = Host.Core.run Sys2Proof.core (u.cfg.wordSize.bytes + 2) t₁ := by rw [← run₁]; congr 1; omega
    _ = Host.Core.run Sys2Proof.core (1 + u.cfg.wordSize.bytes) _ := by rw [run_succ enabled, Nat.add_comm]
    _ = Host.Core.run Sys2Proof.core 1 t₂ := run₂
    _ = _ := by
      rw [run_one, data.step hp hh.turns, State.startStep_data data.waitingFor rfl, State.dataReceived_of_store _ store]
      rfl

/-- Settles O37: a poke from the poll, which is where `start` itself begins. -/
theorem pokeWritesAWord : Obligations.PokeWritesAWord := by
  unfold Obligations.PokeWritesAWord
  refine (and_iff_left_of_imp fun fromPoll => ?_).mpr ?_
  · intro s k a v x hwf ha hboot hh hx span ram
    obtain ⟨t, run, polls, word, kept, links, active, others, frame⟩ :=
      fromPoll s.linkBegun s.newBoot k a v x (State.linkBegun_polls ha) hh.linkBegun hwf hx ram
    exact ⟨s.linkBegun, t, _, execStart_link ha hboot, run, polls, word, kept, links,
      State.anyActive_of_active_eq ha active, others, frame⟩
  · intro u b k a v x hp hh hwf hx span ram
    obtain ⟨t, run, done, mem, others, toHost⟩ := run_poke hp hh hx ram
    refine ⟨t, run, done.polls hp hp.phase, ?_, fun addr h => ?_, fun j => ⟨?_, toHost j, done.accepting j⟩,
      done.active hp, others, done.frame⟩
    · rw [mem, Memory.readWord_writeWord _ _ _ hwf, WordSize.trunc_trunc]
    · rw [mem]
      exact Memory.read_writeBytes_other _ _ hwf _ h
    · rw [done.fromHost, ite_self]

/-- A whole peek from the poll, up to the next poll (R131). -/
theorem run_peek {u : State} {b : Boot} {k : Link} {a x : Word} (hp : u.Polls b)
    (hh : u.Hears k (1 :: bytesOf u.cfg.wordSize.bytes a)) (fresh : (u.channel ⟨k, .out⟩).pushed = false)
    (accepts : (u.link k).accepting = true) (hx : alignedAddress u.cfg a = .ok x)
    (there : ∀ c ∈ addressSpan u.cfg.wordSize u.cfg.wordSize.bytes x, memKind u.cfg c ≠ none) :
    ∃ t : State, Host.Core.run Sys2Proof.core (2 * u.cfg.wordSize.bytes + 3) u = .next t
      ∧ u.Resumes t { b with usedIn := b.usedIn.set k true, usedOut := b.usedOut.set k true } k []
      ∧ t.mem = u.mem
      ∧ (∀ ch, ch.link ≠ k → t.channel ch = u.channel ch)
      ∧ ∀ j, (t.link j).toHost = if j = k
          then (u.link j).toHost
            ++ (addressSpan u.cfg.wordSize u.cfg.wordSize.bytes x).map (fun y => u.mem.read y.toNat)
          else (u.link j).toHost := by
  obtain ⟨phase, saved, usedIn, usedOut⟩ := b
  obtain rfl : phase = .poll := hp.phase
  obtain ⟨t₁, run₁, address, mem₁, cpu₁, others₁, toHost₁⟩ :=
    run_protocol (rest := []) (u.cfg.wordSize.bytes + 2) (p := .peek) rfl hp (by rwa [List.append_nil])
  have fresh₁ : (t₁.channel ⟨k, .out⟩).pushed = false := by rw [others₁ _ (by simp), fresh]
  obtain ⟨t₂, run₂, output, mem₂, others₂, toHost₂⟩ := run_outputs (v := u.mem.readWord u.cfg.wordSize x)
    (b := ⟨.address k .peek, saved, usedIn.set k true, usedOut.set k true⟩) 1 hp hh.turns address fresh₁ accepts
  have load : t₁.loadWord (u.cfg.wordSize.trunc a) = .ok (u.mem.readWord u.cfg.wordSize x) := by
    rw [State.loadWord_eq_ok, address.cfg, alignedAddress_trunc, mem₁]
    exact ⟨x, hx, there, rfl⟩
  have enabled : step t₁ = .next ((t₁.enableOutput k (u.mem.readWord u.cfg.wordSize x)).bootAt
      ⟨.address k .peek, saved, usedIn.set k true, usedOut.set k true⟩ (.output k)) := by
    rw [address.step hp hh.turns, cpu₁, State.addressReceived_peek _ load fresh₁]
    rfl
  refine ⟨_, ?_, output.bootAt t₂.mem .poll, mem₂.trans mem₁, fun ch h => ?_, fun j => ?_⟩
  · calc Host.Core.run Sys2Proof.core (2 * u.cfg.wordSize.bytes + 3) u
        = Host.Core.run Sys2Proof.core (u.cfg.wordSize.bytes + 2) t₁ := by rw [← run₁]; congr 1; omega
      _ = Host.Core.run Sys2Proof.core (1 + u.cfg.wordSize.bytes) _ := by rw [run_succ enabled, Nat.add_comm]
      _ = Host.Core.run Sys2Proof.core 1 t₂ := run₂
      _ = _ := by
        rw [run_one, output.step hp hh.turns, State.startStep_output output.waitingFor rfl]
        rfl
  · exact (others₂ ch (fun e => h (by rw [e]))).trans (others₁ ch (fun e => h (by rw [e])))
  · rw [← bytesOf_readWord, ← toHost₁]
    exact toHost₂ j

/-- Settles O38: a peek from the poll, which is where `start` itself begins. -/
theorem peekSendsAWord : Obligations.PeekSendsAWord := by
  unfold Obligations.PeekSendsAWord
  refine (and_iff_left_of_imp fun fromPoll => ?_).mpr ?_
  · intro s k a x ha hboot hh fresh accepts hx span there
    obtain ⟨t, run, polls, sent, links, unsent, active, others, frame⟩ :=
      fromPoll s.linkBegun s.newBoot k a x (State.linkBegun_polls ha) hh.linkBegun fresh accepts hx there
    exact ⟨s.linkBegun, t, _, execStart_link ha hboot, run, polls, sent, links, unsent,
      State.anyActive_of_active_eq ha active, others, frame⟩
  · intro u b k a x hp hh fresh accepts hx span there
    obtain ⟨t, run, done, mem, others, toHost⟩ := run_peek hp hh fresh accepts hx there
    refine ⟨t, run, done.polls hp hp.phase, (toHost k).trans (if_pos rfl), fun j => ⟨?_, done.accepting j⟩,
      fun j h => (toHost j).trans (if_neg h), done.active hp, others, ?_⟩
    · rw [done.fromHost, ite_self]
    · rw [← mem]
      exact done.frame

/-! ### First Free Word -/

/-- Settles O41: the least number of whole words that holds the boot code. -/
theorem firstFreeWordRoundsUp : Obligations.FirstFreeWordRoundsUp := by
  intro c n _
  have positive : 0 < c.wordSize.bytes := by cases c.wordSize <;> decide
  have quotient := Nat.div_add_mod (n + c.wordSize.bytes - 1) c.wordSize.bytes
  have remainder := Nat.mod_lt (n + c.wordSize.bytes - 1) positive
  exact ⟨_, Nat.mul_mod_right _ _, by omega, by omega, WordSize.toNat_trunc_add_ofNat _ _ _⟩

end Sys2Proof.Machine

/-! PROOFS. The statements of 41_testhardchan.md: the push through a channel (O28), three of them (O30), the refusals (O29),
and the refusals that a note of a push gives rise to (O48). -/

namespace Sys2Proof.Machine

/-! ### The push -/

/-- The state after `testhardchan` on a channel (R160). -/
def State.pushThrough (s : State) (ch : ChannelId) : State :=
  ({ s with aReg := (s.channel ch).dbuff, bReg := s.cReg }.setChannel ch ((s.channel ch).push s.bReg)).finish

@[simp] theorem State.channel_pushThrough_same (s : State) (ch : ChannelId) :
    (s.pushThrough ch).channel ch = (s.channel ch).push s.bReg := State.channel_setChannel_same _ _ _

theorem State.channel_pushThrough_other (s : State) {ch x : ChannelId} (h : x ≠ ch) :
    (s.pushThrough ch).channel x = s.channel x := State.channel_setChannel_other _ _ h

/-- A push leaves the control logic alone (R160, R41), so what is idle stays so. -/
theorem State.anyActive_pushThrough {s : State} (ch : ChannelId) (h : s.anyActive = false) :
    (s.pushThrough ch).anyActive = false := by
  refine State.anyActive_of_active_eq h fun x => ?_
  by_cases hx : x = ch
  · rw [hx, State.channel_pushThrough_same]
    rfl
  · rw [State.channel_pushThrough_other s hx]

/-- `testhardchan` where AReg selects a channel (R160, R162, R163). -/
theorem exec_testhardchan {s : State} {ch : ChannelId} (h : s.aReg = linkWord s.cfg.wordSize ch) :
    exec .testhardchan s = if s.anyActive then .refused .linkActive else .next (s.pushThrough ch) := by
  simp only [exec, execTesthardchan, h, channelOf_linkWord]
  rfl

theorem exec_testhardchan_of_idle {s : State} {ch : ChannelId} (h : s.aReg = linkWord s.cfg.wordSize ch)
    (ha : s.anyActive = false) : exec .testhardchan s = .next (s.pushThrough ch) :=
  (exec_testhardchan h).trans (if_neg (ne_true_of_eq_false ha))

theorem eq_pushThrough_of_exec_testhardchan {s t : State} {ch : ChannelId} (h : s.aReg = linkWord s.cfg.wordSize ch)
    (e : exec .testhardchan s = .next t) : t = s.pushThrough ch := by
  rw [exec_testhardchan h] at e
  split at e <;> cases e
  rfl

theorem decodeBytes_testhardchan (ws : WordSize) :
    decodeBytes ws 0 0 [0x22, 0xFD] = .ok (.testhardchan, 0x20, 1, []) := by
  cases ws <;> rfl

/-- Settles O28. -/
theorem testhardchanPushesThroughTheChannel : Obligations.TesthardchanPushesThroughTheChannel := by
  intro s ch selected idle
  have inert : ((s.pushThrough ch).channel ch).active = false :=
    State.anyActive_eq_false.mp (State.anyActive_pushThrough ch idle) ch
  have stack := s.channel_pushThrough_same ch
  refine ⟨decodeBytes_testhardchan _, s.pushThrough ch, exec_testhardchan_of_idle selected idle, rfl, rfl,
    congrArg Channel.dbuff stack, congrArg Channel.ptr stack, congrArg Channel.count stack, inert,
    fun x => s.channel_pushThrough_other, fun k => ?_, rfl⟩
  exact ⟨State.fromHost_setChannel _ _ _ k, State.toHost_setChannel _ _ _ k, State.accepting_setChannel _ _ _ k⟩

/-- One push with a word of choice, and the channel as the next push finds it (R160, R161). -/
theorem exists_exec_testhardchan {s : State} {ch : ChannelId} {a : Word} (v : Word) (idle : s.anyActive = false)
    (selected : a = linkWord s.cfg.wordSize ch) :
    ∃ t, exec .testhardchan { s with aReg := a, bReg := v } = .next t ∧ t.cfg = s.cfg ∧ t.anyActive = false
      ∧ t.aReg = (s.channel ch).dbuff ∧ t.channel ch = (s.channel ch).push v :=
  ⟨({ s with aReg := a, bReg := v } : State).pushThrough ch, exec_testhardchan_of_idle selected idle, rfl,
    State.anyActive_pushThrough ch idle, rfl, State.channel_pushThrough_same _ ch⟩

/-- Settles O30: each push finds the channel idle and its stack as the one before left it. -/
theorem threePushesReadOutTheChannel : Obligations.ThreePushesReadOutTheChannel := by
  intro s ch v1 v2 v3 idle ready
  obtain ⟨t1, push1, cfg1, idle1, out1, stack1⟩ := exists_exec_testhardchan (ch := ch) v1 idle rfl
  obtain ⟨t2, push2, cfg2, idle2, out2, stack2⟩ := exists_exec_testhardchan (ch := ch) v2 idle1 (by rw [cfg1])
  obtain ⟨t3, push3, -, -, out3, stack3⟩ := exists_exec_testhardchan (ch := ch) v3 idle2 (by rw [cfg2, cfg1])
  rw [stack1] at out2 stack2
  rw [stack2] at out3 stack3
  exact ⟨t1, t2, t3, push1, push2, push3, out1, out2, out3, congrArg Channel.dbuff stack3,
    congrArg Channel.ptr stack3, congrArg Channel.count stack3⟩

/-- Settles O29. -/
theorem testhardchanRefusals : Obligations.TesthardchanRefusals := by
  intro s
  constructor
  · intro unselected
    have unfound : channelOf s.cfg.wordSize s.aReg = none :=
      Option.eq_none_iff_forall_ne_some.mpr fun ch h => unselected ch (linkWord_of_channelOf h)
    simp only [exec, execTesthardchan, unfound]
  · intro ch c selected active
    have any : s.anyActive = true := List.any_eq_true.mpr ⟨c, mem_allChannels c, active⟩
    exact (exec_testhardchan selected).trans (if_pos any)

/-! ### What a noted channel refuses -/

theorem State.byteArrives_of_pushed {s : State} {k : Link} (v : Byte) (reset : s.pins.reset = false)
    (h : (s.channel ⟨k, .inp⟩).pushed = true) : s.byteArrives k v = .error (.transferAfterPush k) := by
  simp [State.byteArrives, reset, h]

theorem State.byteBegins_of_pushed {s : State} {k : Link} (reset : s.pins.reset = false)
    (h : (s.channel ⟨k, .inp⟩).pushed = true) : s.byteBegins k = .error (.transferAfterPush k) := by
  simp [State.byteBegins, reset, h]

theorem channelStep_of_pushed {s : State} {ch : ChannelId} (released : s.control.released = true)
    (busy : (s.channel ch).transfer ≠ .idle) (h : (s.channel ch).pushed = true) :
    channelStep ch s = .error (.transferAfterPush ch.link) := by
  simp [channelStep, released, busy, h]

theorem State.firstByte_of_pushed {s : State} {k : Link} (b : Boot) (v : Byte)
    (h : (s.channel ⟨k, .inp⟩).pushed = true) : s.firstByte b k v = .error (.transferAfterPush k) := if_pos h

theorem State.addressReceived_peek_of_pushed {s : State} {a v : Word} {k : Link} (b : Boot) (load : s.loadWord a = .ok v)
    (h : (s.channel ⟨k, .out⟩).pushed = true) : s.addressReceived b k .peek a = .error (.transferAfterPush k) := by
  simp [State.addressReceived, load, h]

/-- At the poll the CPU examines the first byte of the one Link that holds any (R128, R129). -/
theorem State.startStep_poll {s : State} {b : Boot} {k : Link} {v : Byte} {rest : List Byte} (hp : s.Polls b)
    (bytes : (s.link k).fromHost = v :: rest) (others : ∀ j, j ≠ k → (s.link j).fromHost = []) :
    s.startStep b = (s.afterByte k rest).firstByte b k v := by
  have found : s.pollLinkInputs = some (k, s) := State.pollLinkInputs_of_only (by simp [bytes]) others
  have taken : s.takeByte k = some (v, s.afterByte k rest) := State.takeByte_eq_some.mpr ⟨rest, bytes, rfl⟩
  simp [State.startStep, hp.waitingFor, hp.phase, found, taken]

/-- A step refused at the turn of its agent, under R241's conditions. -/
theorem step_turn_refused {s : State} {x : Turn} {rest : List Turn} {r : Refusal} (one : s.oneProcess = true)
    (ht : s.turns = x :: rest) (h : agentStep x { s with turns := rest } = outcome (.error r)) : step s = .refused r :=
  (step_turn one ht).trans h

/-- Settles O48: the note is the test of the word pushed, and each agent that would use the channel asks for it. -/
theorem transferAfterPushIsRefused : Obligations.TransferAfterPushIsRefused := by
  refine ⟨fun s t ch selected e => ?_, fun s k v rest one => ⟨?_, ?_, ?_, ?_⟩⟩
  · rw [eq_pushThrough_of_exec_testhardchan selected e, State.channel_pushThrough_same]
    exact bne_iff_ne
  · rintro noted reset (ht | ht)
    · exact step_turn_refused one ht (congrArg outcome (State.byteArrives_of_pushed v reset noted))
    · exact step_turn_refused one ht (congrArg outcome (State.byteBegins_of_pushed reset noted))
  · rintro ch rfl noted busy released ht
    exact step_turn_refused one ht (congrArg outcome (channelStep_of_pushed released busy noted))
  · intro b hc hphase ht noted waits others
    have polls : s.Polls b := ⟨hc, hphase, one⟩
    obtain ⟨w, ws, bytes⟩ := List.exists_cons_of_ne_nil waits
    rw [step_boot one ht hc polls.waitingFor, State.startStep_poll polls bytes others,
      State.firstByte_of_pushed b w (by rw [State.channel_afterByte, noted])]
    rfl
  · intro b w hc hphase ht done noted load
    have arrived : s.waitingFor = none := waitingFor_of_idle hc (by rw [hphase]; rfl) done
    rw [step_boot one ht hc arrived, State.startStep_address arrived hphase,
      State.addressReceived_peek_of_pushed b load noted]
    rfl

end Sys2Proof.Machine

/-! PROOFS. The statements of 42_register_test.md: the loads (O14), the stores into DReg and EReg (O15), `teststs` where it
stores (O16) and where it is refused (O17), and the round trips of R186 (O18). -/

namespace Sys2Proof.Machine

/-! ### The encodings -/

/-- A `pfix 2` and the final byte of an instruction that can stand under Oreg 0x20, as the operations 0x20 to 0x2F can (R94,
R99). -/
theorem decodeBytes_pfix_two (ws : WordSize) {i : Instr} (wf : i.wellFormedAt 0x20 = true) :
    decodeBytes ws 0 0 [0x22, finalByte i] = .ok (i, 0x20, 1, []) := by
  have prefixed (b : Byte) : decodeBytes ws 0 0 [0x22, b] = decodeBytes ws 0x20 1 [b] := by cases ws <;> rfl
  rw [prefixed, decodeBytes_singleton ws 1 (finalByteDecodesToItsInstruction _ i wf)]

/-! ### The six instructions -/

theorem exec_testldd (s : State) : exec .testldd s = .next (s.push s.dReg).finish := rfl

theorem exec_testlde (s : State) : exec .testlde s = .next (s.push s.eReg).finish := rfl

theorem exec_testlds (s : State) : exec .testlds s = .next (s.push s.statusReg).finish := rfl

theorem exec_teststd (s : State) : exec .teststd s = .next { s with dReg := s.aReg }.pop.finish := rfl

theorem exec_testste (s : State) : exec .testste s = .next { s with eReg := s.aReg }.pop.finish := rfl

theorem exec_teststs_of_raises {s : State} (h : raisesErrorHalt s.cfg s.statusReg s.aReg = true) :
    exec .teststs s = .refused .errorHalt := if_pos h

theorem exec_teststs_of_not_raises {s : State} (h : raisesErrorHalt s.cfg s.statusReg s.aReg = false) :
    exec .teststs s = .next { s with statusReg := s.aReg }.pop.finish := if_neg (Bool.eq_false_iff.mp h)

/-! ### ErrorFlag AND HaltOnErrorFlag -/

theorem errorHaltSet_iff {c : Cfg} {v : Word} :
    errorHaltSet c v = true
      ↔ v &&& c.errorFlag = c.errorFlag ∧ v &&& c.haltOnErrorFlag = c.haltOnErrorFlag := by
  simp [errorHaltSet, flagSet]

theorem raisesErrorHalt_iff {c : Cfg} {old new : Word} :
    raisesErrorHalt c old new = true ↔ errorHaltSet c new = true ∧ ¬ errorHaltSet c old = true := by
  simp [raisesErrorHalt]

/-- A StatusReg stored over itself raises nothing. -/
theorem raisesErrorHalt_self (c : Cfg) (v : Word) : raisesErrorHalt c v v = false := Bool.and_not_self _

/-! ### The statements -/

/-- Settles O14. -/
theorem registerLoadsPushTheRegister : Obligations.RegisterLoadsPushTheRegister := by
  intro s
  exact ⟨decodeBytes_pfix_two _ (i := .testldd) rfl, exec_testldd s, decodeBytes_pfix_two _ (i := .testlde) rfl,
    exec_testlde s, decodeBytes_pfix_two _ (i := .testlds) rfl, exec_testlds s⟩

/-- Settles O15. -/
theorem registerStoresPopIntoDAndE : Obligations.RegisterStoresPopIntoDAndE := by
  intro s
  exact ⟨decodeBytes_pfix_two _ (i := .teststd) rfl, exec_teststd s, decodeBytes_pfix_two _ (i := .testste) rfl,
    exec_testste s⟩

/-- Settles O16: the word stored has not both flags, or the old one has both already, so nothing is raised. -/
theorem teststsReplacesStatusReg : Obligations.TeststsReplacesStatusReg := by
  intro s both keeps
  have quiet : raisesErrorHalt s.cfg s.statusReg s.aReg = false := by
    rw [Bool.eq_false_iff, Ne, raisesErrorHalt_iff, errorHaltSet_iff, errorHaltSet_iff]
    rintro ⟨new, old⟩
    exact keeps.elim (· new) old
  exact exec_teststs_of_not_raises quiet

/-- Settles O17. -/
theorem teststsRaisingErrorHaltIsRefused : Obligations.TeststsRaisingErrorHaltIsRefused := by
  intro s both new old
  exact exec_teststs_of_raises (raisesErrorHalt_iff.mpr ⟨errorHaltSet_iff.mpr new, mt errorHaltSet_iff.mp old⟩)

/-- Settles O18: the second instruction runs in the state the first one leaves. After `testlds` AReg is StatusReg, so the
`teststs` that follows raises nothing. -/
theorem registerRoundTrips : Obligations.RegisterRoundTrips := by
  intro s stack
  refine ⟨?storeD, ?storeE, fun quiet => ?storeStatus, ?loadD, ?loadE, ?loadStatus⟩
  case storeD => exact ⟨_, _, exec_teststd s, exec_testldd _, ⟨rfl, rfl, rfl⟩, ⟨rfl, rfl, rfl⟩, rfl, rfl⟩
  case storeE => exact ⟨_, _, exec_testste s, exec_testlde _, ⟨rfl, rfl, rfl⟩, ⟨rfl, rfl, rfl⟩, rfl, rfl⟩
  case storeStatus =>
    exact ⟨_, _, exec_teststs_of_not_raises quiet, exec_testlds _, ⟨rfl, rfl, rfl⟩, ⟨rfl, rfl, rfl⟩, rfl, rfl⟩
  case loadD => exact ⟨_, _, exec_testldd s, exec_teststd _, ⟨rfl, rfl, rfl⟩, ⟨rfl, rfl, rfl⟩, rfl⟩
  case loadE => exact ⟨_, _, exec_testlde s, exec_testste _, ⟨rfl, rfl, rfl⟩, ⟨rfl, rfl, rfl⟩, rfl⟩
  case loadStatus =>
    exact ⟨_, _, exec_testlds s, exec_teststs_of_not_raises (raisesErrorHalt_self _ _), ⟨rfl, rfl, rfl⟩,
      ⟨rfl, rfl, rfl⟩, rfl⟩

end Sys2Proof.Machine

/-! PROOFS. The statements of 43_auxiliary_base.md: the constants (O19), `ldnlp` (O20), `j` (O21) and its breakpoint form
(O22), and `stl` where it stores (O24). -/

namespace Sys2Proof.Machine

/-! ### The instructions -/

theorem exec_ldc (d : Nibble) (s : State) : exec (.ldc d) s = .next (s.push (s.operand d)).finish := rfl

theorem exec_mint (s : State) : exec .mint s = .next (s.push s.cfg.wordSize.minInt).finish := rfl

theorem exec_ldnlp (d : Nibble) (s : State) :
    exec (.ldnlp d) s = .next { s with aReg := index s.cfg.wordSize s.aReg (s.operand d) }.finish := rfl

/-- `j 0` while it is a breakpoint (R205 (a)). -/
theorem exec_j_of_breakpoint {d : Nibble} {s : State} (zero : s.operand d = 0)
    (breaks : j0Breaks s.cfg s.statusReg = true) : exec (.j d) s = .refused .breakpoint := if_pos ⟨zero, breaks⟩

theorem j0Breaks_iff {c : Cfg} {v : Word} :
    j0Breaks c v = true ↔ c.hasJ0Break = true ∧ v &&& c.enableJ0BreakFlag = c.enableJ0BreakFlag := by
  simp [j0Breaks, flagSet]

theorem State.toNat_jumpTarget (s : State) (d : Nibble) :
    (s.cfg.wordSize.trunc (s.nextInst + s.operand d)).toNat
      = (s.iPtr.toNat + 1 + (s.operand d).toNat) % 2 ^ s.cfg.wordSize.bits := by
  rw [WordSize.toNat_trunc_add, State.toNat_nextInst, Nat.mod_add_mod]

theorem decodeBytes_mint (ws : WordSize) : decodeBytes ws 0 0 [0x24, 0xF2] = .ok (.mint, 0x40, 1, []) := by
  cases ws <;> rfl

/-- The bytes of a word are read back from where the word was written (R64). -/
theorem Memory.read_writeWord {m : Memory} (ws : WordSize) (a v : Word) (hm : m.wf = true) :
    (addressSpan ws ws.bytes a).map (fun x => (m.writeWord ws a v).read x.toNat) = bytesOf ws.bytes v :=
  Memory.read_writeBytes _ _ hm (by simp) (addressSpan_pairwise ws _ a (by cases ws <;> decide))

/-! ### The statements -/

/-- Settles O20. -/
theorem ldnlpIndexesAReg : Obligations.LdnlpIndexesAReg := by
  intro d s isWord
  refine ⟨finalByteDecodesToItsInstruction _ (.ldnlp d) rfl, _, exec_ldnlp d s, rfl, ?_⟩
  rw [← State.operand_eq d isWord]
  exact toNat_index _ _ _

/-- Settles O21: the premise says that this `j` is no breakpoint. -/
theorem jumpGoesToNextInstPlusOperand : Obligations.JumpGoesToNextInstPlusOperand := by
  intro d s isWord noBreakpoint
  rw [← State.operand_eq d isWord] at noBreakpoint ⊢
  have jumps : ¬ (s.operand d = 0 ∧ j0Breaks s.cfg s.statusReg = true) := by
    rintro ⟨zero, breaks⟩
    obtain ⟨part, flag⟩ := j0Breaks_iff.mp breaks
    exact noBreakpoint zero part flag
  exact ⟨_, exec_j jumps, rfl, rfl, rfl, s.toNat_jumpTarget d⟩

/-- Settles O24: every byte of the word is RAM, so the store completes, and only its addresses are written. -/
theorem stlStoresAReg : Obligations.StlStoresAReg := by
  intro d s x canonical aligned ram
  have stored := State.storeNoted_eq_ok (v := s.aReg).mpr ⟨x, aligned, ram, rfl⟩
  exact ⟨_, exec_stl_eq_next.mpr ⟨_, stored, rfl⟩, rfl, Memory.read_writeWord _ x s.aReg canonical,
    Memory.read_writeBytes_other _ _ canonical⟩

/-- Settles O19. -/
theorem constantsArePushed : Obligations.ConstantsArePushed := by
  intro d s isWord pushed
  rw [← State.operand_eq d isWord]
  exact ⟨finalByteDecodesToItsInstruction _ (.ldc d) rfl, exec_ldc d s, decodeBytes_mint _, exec_mint s⟩

/-- Settles O22. -/
theorem breakpointJumpIsRefused : Obligations.BreakpointJumpIsRefused := by
  intro d s isWord zero part flag
  exact exec_j_of_breakpoint ((State.operand_eq d isWord).trans zero) (j0Breaks_iff.mpr ⟨part, flag⟩)

end Sys2Proof.Machine

/-! PROOFS. The statement of 60_exceptions.md: R241's conditions, kept by every agent's step (O53). -/

namespace Sys2Proof.Machine

/-! ### A machine at rest -/

/-- Reset is low, the timer alarms are off, and no message is in progress on any channel, not even one of `start`'s own:
what R241's conditions come to wherever the CPU acts. -/
structure State.Rests (s : State) : Prop where
  reset : s.pins.reset = false
  high  : s.timerAlarmHigh = false
  low   : s.timerAlarmLow = false
  idle  : ∀ ch, (s.channel ch).transfer = .idle

/-- A machine that is not held by Reset is at rest where no channel has a message (R241). -/
theorem State.Quiet.rests {s : State} (h : s.Quiet) (released : ∀ a, s.control ≠ .resetHeld a)
    (idle : ∀ ch, (s.channel ch).transfer = .idle) : s.Rests := by
  obtain ⟨high, low, -⟩ := State.oneProcess_iff.mp h.oneProcess
  refine ⟨Bool.eq_false_iff.mpr fun pin => ?_, high, low, idle⟩
  obtain ⟨a, held⟩ := h.resetPin pin
  exact released a held

theorem State.Rests.quiet {s : State} (h : s.Rests) : s.Quiet :=
  ⟨State.oneProcess_of_idle h.high h.low h.idle, fun pin => absurd pin (ne_true_of_eq_false h.reset)⟩

/-- `start` begins its Link phase at the poll, where it waits for no channel, or runs from ROM (R120, R124). -/
theorem State.Rests.beginStart {s : State} (h : s.Rests) : s.beginStart.Rests := by
  rcases s.beginStart_cases with e | e <;> rw [e]
  · exact ⟨h.reset, rfl, rfl, h.idle⟩
  · exact ⟨h.reset, rfl, rfl, h.idle⟩

/-- A message enabled on the channel that the Link phase waits for next is one of `start`'s own (R241). -/
theorem State.Rests.quiet_enabled {s : State} (h : s.Rests) {ch : ChannelId} (c : Channel) (b : Boot) {phase : BootPhase}
    (own : phase.channel = some ch) : ((s.setChannel ch c).bootAt b phase).Quiet := by
  refine ⟨State.oneProcess_iff.mpr ⟨h.high, h.low, fun x busy => ?_⟩, fun pin => ?_⟩
  · by_cases hx : x = ch
    · exact hx ▸ own
    · rw [State.channel_bootAt, State.channel_setChannel_other _ _ hx] at busy
      exact absurd (h.idle x) busy
  · exact absurd pin (ne_true_of_eq_false h.reset)

/-! ### The CPU -/

/-- A push leaves the message of every channel (R160). -/
theorem State.transfer_pushThrough (s : State) (ch x : ChannelId) :
    ((s.pushThrough ch).channel x).transfer = (s.channel x).transfer := by
  by_cases hx : x = ch
  · rw [hx, State.channel_pushThrough_same]
    rfl
  · rw [State.channel_pushThrough_other s hx]

/-- An instruction leaves every message: `testhardchan` pushes registers only, and the others leave the Links (R160). -/
theorem exec_transfer {i : Instr} {s t : State} (hopr : ∀ d, i ≠ .opr d) (hstart : i ≠ .start) (e : exec i s = .next t)
    (ch : ChannelId) : (t.channel ch).transfer = (s.channel ch).transfer := by
  by_cases hard : i = .testhardchan
  · subst hard
    simp only [exec, execTesthardchan] at e
    split at e
    · cases e
    · split at e <;> cases e
      exact s.transfer_pushThrough _ ch
  · rw [State.channel, State.link, (exec_frame hopr hstart e).links hard]
    rfl

/-- Every instruction leaves a machine at rest at rest. -/
theorem State.Rests.exec {s t : State} {i : Instr} (h : s.Rests) (e : exec i s = .next t) : t.Rests := by
  obtain ⟨op, -, hopr, e⟩ := exec_selects e
  by_cases hstart : op = .start
  · subst hstart
    have next : ({ s with iPtr := s.nextInst } : State).Rests := ⟨h.reset, h.high, h.low, h.idle⟩
    exact exec_start e ▸ next.beginStart
  · have frame := (exec_frame hopr hstart e).state
    refine ⟨?_, ?_, ?_, fun ch => (exec_transfer hopr hstart e ch).trans (h.idle ch)⟩
    · rw [frame]; exact h.reset
    · rw [frame]; exact h.high
    · rw [frame]; exact h.low

/-- A move of the Link phase begins no message but on the channel that it then waits for (R128 to R138). -/
theorem State.Rests.quiet_bootMove {s t : State} {b : Boot} (h : s.Rests) (m : BootMove s b t) : t.Quiet := by
  have taken : ∀ (k : Link) (rest : List Byte) (n : Nat), (({ s with draws := n } : State).afterByte k rest).Rests :=
    fun k rest n => ⟨h.reset, h.high, h.low, fun ch => by rw [State.channel_afterByte]; exact h.idle ch⟩
  have drawn : s.draw.2.Rests := ⟨h.reset, h.high, h.low, h.idle⟩
  cases m with
  | word k p v rest n => exact (taken k rest n).quiet_enabled _ _ rfl
  | message k v rest n => exact (taken k rest n).quiet_enabled _ _ rfl
  | pokeAddress k => exact drawn.quiet_enabled _ _ rfl
  | peekAddress k w => exact drawn.quiet_enabled _ _ rfl
  | pokeData k a u _ store =>
    obtain ⟨x, -, -, rfl⟩ := State.storeWord_eq_ok.mp store
    exact State.Rests.quiet ⟨h.reset, h.high, h.low, h.idle⟩
  | peekDone k => exact State.Rests.quiet ⟨h.reset, h.high, h.low, h.idle⟩
  | booted k length =>
    obtain ⟨frame, -, -, control, -⟩ := s.finishBoot_spec b k length
    exact State.Rests.quiet ⟨(congrArg (·.pins.reset) frame).trans h.reset,
      (congrArg State.timerAlarmHigh frame).trans h.high, (congrArg State.timerAlarmLow frame).trans h.low,
      fun ch => (control ch).1.trans (h.idle ch)⟩

/-- Where the CPU acts the machine is at rest: a running program has no message on a channel, and the Link phase moves on
once the one that it waits for is complete. -/
theorem State.Quiet.cpuStep {s t : State} (h : s.Quiet) (e : cpuStep s = .next t) : t.Quiet := by
  rcases cpuStep_cases e with rfl | ⟨run, i, -, he⟩ | ⟨b, boot, complete, m⟩
  · exact h
  · have idle := State.idle_of_oneProcess h.oneProcess (by rw [run]; rfl)
    exact ((h.rests (by rw [run]; nofun) idle).exec he).quiet
  · refine (h.rests (by rw [boot]; nofun) fun ch => ?_).quiet_bootMove m
    by_contra busy
    have own := (State.oneProcess_iff.mp h.oneProcess).2.2 ch busy
    rw [boot] at own
    exact busy (State.waitingFor_eq_none.mp complete b boot ch own)

/-! ### The channels and the host -/

/-- R241's conditions are kept by what changes the Links and memory only, and begins no message. -/
theorem State.Quiet.of_links {s t : State} (h : s.Quiet) (state : t = { s with links := t.links, mem := t.mem })
    (transfer : ∀ ch, (t.channel ch).transfer = .idle ∨ (t.channel ch).transfer = (s.channel ch).transfer) :
    t.Quiet := by
  have control : t.control = s.control := (congrArg State.control state :)
  refine ⟨State.oneProcess_of_eq h.oneProcess (congrArg State.timerAlarmHigh state :)
    (congrArg State.timerAlarmLow state :) fun ch busy other => ?_, fun pin => ?_⟩
  · rw [(transfer ch).resolve_left busy] at busy
    exact ⟨busy, control ▸ other⟩
  · rw [control]
    exact h.resetPin ((congrArg (·.pins.reset) state).symm.trans pin)

theorem State.Quiet.channelMove {s t : State} {ch : ChannelId} (h : s.Quiet) (m : ChannelMove s ch t) : t.Quiet := by
  refine h.of_links m.state fun x => ?_
  by_cases hx : x = ch
  · exact hx ▸ m.transfer
  · exact .inr (congrArg Channel.transfer (m.others x hx))

/-- A write of a channel's registers that leaves its message leaves every channel's. -/
theorem State.transfer_setChannel (s : State) {ch : ChannelId} {c : Channel} (h : c.transfer = (s.channel ch).transfer)
    (x : ChannelId) : ((s.setChannel ch c).channel x).transfer = (s.channel x).transfer := by
  rw [State.channel_setChannel]
  split
  · next hx => rw [h, hx]
  · rfl

theorem State.Quiet.byteLands {s : State} (h : s.Quiet) (k : Link) (v : Byte) : (s.byteLands k v).Quiet := by
  rw [State.byteLands_eq]
  have landed : (({ s.channel ⟨k, .inp⟩ with shifting := false } : Channel).counted
      ((s.link k).fromHost ++ [v])).transfer = ((s.queueByte k v).channel ⟨k, .inp⟩).transfer := by
    rw [State.channel_queueByte, (Channel.counted_sameControl _ _).1]
  refine h.of_links rfl fun ch => .inr ?_
  rw [State.transfer_setChannel _ landed, State.channel_queueByte]

/-- Reset high stops every message and holds the processor (R271, R272). -/
theorem State.Quiet.resetGoesHigh {s : State} (h : s.Quiet) : s.resetGoesHigh.Quiet :=
  ⟨s.heldFrom_resetGoesHigh.oneProcess h.oneProcess, fun _ => ⟨_, rfl⟩⟩

/-- Reset low finds the processor held by Reset, so that no message is in progress (R271, R272). -/
theorem State.Quiet.resetGoesLow {s : State} (h : s.Quiet) (pin : s.pins.reset = true) : s.resetGoesLow.Quiet := by
  obtain ⟨a, held⟩ := h.resetPin pin
  obtain ⟨high, low, -⟩ := State.oneProcess_iff.mp h.oneProcess
  have idle := State.idle_of_oneProcess h.oneProcess (by rw [held]; rfl)
  have rests : ({ s with pins := { s.pins with reset := false } } : State).Rests := ⟨rfl, high, low, idle⟩
  unfold State.resetGoesLow
  dsimp only
  split
  · split
    · exact State.Rests.quiet ⟨rfl, high, low, idle⟩
    · exact rests.beginStart.quiet
  · exact rests.beginStart.quiet

/-- Analyse high holds the processor with the message that `start` was waiting for (R273, log 17). -/
theorem State.Quiet.analyseGoesHigh {s : State} (h : s.Quiet) : s.analyseGoesHigh.Quiet := by
  have stopped : ∀ m, s.control.ownChannel = m → (∀ a, s.control ≠ .resetHeld a) →
      ({ s with pins := { s.pins with analyse := true }, control := .analysing m } : State).Quiet := by
    rintro m rfl released
    refine ⟨State.oneProcess_of_eq h.oneProcess rfl rfl fun _ busy other => ⟨busy, other⟩, fun pin => ?_⟩
    obtain ⟨a, held⟩ := h.resetPin pin
    exact absurd held (released a)
  unfold State.analyseGoesHigh
  dsimp only
  split
  · next run => exact stopped none (by rw [run]; rfl) (by rw [run]; nofun)
  · next b boot => exact stopped _ (by rw [boot]; rfl) (by rw [boot]; nofun)
  · exact ⟨h.oneProcess, h.resetPin⟩

theorem State.Quiet.analyseGoesLow {s t : State} (h : s.Quiet) (e : s.analyseGoesLow = .ok t) : t.Quiet := by
  unfold State.analyseGoesLow at e
  dsimp only at e
  split at e <;> cases e
  · next held =>
    have idle := State.idle_of_oneProcess h.oneProcess (by rw [held]; rfl)
    obtain ⟨reset, high, low, idle⟩ := h.rests (by rw [held]; nofun) idle
    have rests : ({ s with pins := { s.pins with analyse := false } } : State).Rests := ⟨reset, high, low, idle⟩
    exact rests.beginStart.quiet
  · exact ⟨h.oneProcess, h.resetPin⟩

/-- Every action of the host keeps R241's conditions. -/
theorem State.Quiet.hostStep {s t : State} {a : HostAction} (h : s.Quiet) (e : hostStep a s = .ok t) : t.Quiet := by
  cases a with
  | linkShift k =>
    simp only [Machine.hostStep, State.byteBegins] at e
    split at e
    · cases e; exact h
    · split at e <;> cases e
      exact h.of_links rfl fun ch => .inr (State.transfer_setChannel _ (by rfl) ch)
  | linkByte k v =>
    simp only [Machine.hostStep, State.byteArrives] at e
    split at e
    · split at e <;> cases e
      · exact ⟨(h.byteLands k v).oneProcess, (h.byteLands k v).resetPin⟩
      · exact ⟨h.oneProcess, h.resetPin⟩
    · split at e <;> cases e
      exact h.byteLands k v
  | linkAccept k x =>
    cases e
    exact h.of_links rfl fun ch => .inr (congrArg Channel.transfer (State.channel_setLink _ _ _ (by rfl) (by rfl) ch))
  | linkTake k =>
    cases e
    exact h.of_links rfl fun ch => .inr (congrArg Channel.transfer (State.channel_setLink _ _ _ (by rfl) (by rfl) ch))
  | resetHigh =>
    simp only [Machine.hostStep] at e
    split at e <;> cases e
    · exact h
    · exact h.resetGoesHigh
  | resetLow =>
    simp only [Machine.hostStep] at e
    split at e <;> cases e
    · next pin => exact h.resetGoesLow pin
    · exact h
  | analyseHigh =>
    simp only [Machine.hostStep] at e
    split at e <;> cases e
    · exact h
    · exact h.analyseGoesHigh
  | analyseLow =>
    simp only [Machine.hostStep] at e
    split at e
    · exact h.analyseGoesLow e
    · cases e; exact h
  | bootFromRom level => cases e; exact ⟨h.oneProcess, h.resetPin⟩

/-! ### Every step -/

theorem State.Quiet.ownStep {s t : State} (h : s.Quiet) (e : ownStep s = .next t) : t.Quiet := by
  rcases ownStep_cases e with ⟨ch, -, hc⟩ | ⟨-, hc⟩
  · exact h.channelMove (channelStep_move hc)
  · exact h.cpuStep hc

/-- Settles O53: the CPU acts on a machine at rest, and begins a message only where `start` then waits for it; a channel
begins none; the host changes what the processor does by the pins only, which stop each message, find none, or hold the one
that `start` waits for. -/
theorem stepKeepsTheConditionsOfOneProcess : Obligations.StepKeepsTheConditionsOfOneProcess := by
  intro s t h e
  have turned : ∀ rest, State.Quiet { s with turns := rest } := fun _ => ⟨h.oneProcess, h.resetPin⟩
  obtain ⟨-, ⟨-, e⟩ | ⟨rest, -, e⟩ | ⟨ch, rest, -, e⟩ | ⟨a, rest, -, e⟩⟩ := step_cases e
  · exact h.ownStep e
  · exact (turned rest).cpuStep e
  · exact (turned rest).channelMove (channelStep_move e)
  · exact (turned rest).hostStep e

end Sys2Proof.Machine

/-! PROOFS. The statement of 70_reset_and_hazards.md about the machine while the pins hold the processor: it changes nothing
by itself (O45). -/

namespace Sys2Proof.Machine

/-- The controls in which the pins hold the processor: Reset high, Reset low again with Analyse still high, or Analyse high
before Reset. -/
def Control.Held (c : Control) : Prop :=
  (∃ a, c = .resetHeld a) ∨ c = .analyseHeld ∨ ∃ m, c = .analysing m

theorem Control.Held.ne_boot {c : Control} (h : c.Held) (b : Boot) : c ≠ .boot b := by
  rcases h with ⟨a, rfl⟩ | rfl | ⟨m, rfl⟩ <;> exact Control.noConfusion

/-- A held CPU does nothing. -/
theorem cpuStep_of_held {s : State} (h : s.control.Held) : cpuStep s = .next s := by
  rcases h with ⟨a, hc⟩ | hc | ⟨m, hc⟩ <;> simp only [cpuStep, hc]

/-- Settles O45: held, the machine is outside the Link phase of `start`, so that no channel moves by itself (not even the one
that Analyse has stopped in its message), and the CPU does nothing. -/
theorem heldProcessorChangesNothing : Obligations.HeldProcessorChangesNothing := by
  intro s one quiet held
  calc step s = ownStep s := step_own one quiet
    _ = cpuStep s := ownStep_of_not_boot (Control.Held.ne_boot held)
    _ = .next s := cpuStep_of_held held

end Sys2Proof.Machine
